-- ==== Sys2Proof/Word.lean ====
section
/-! DEFINITION. The words HUFFCORE's host and engine see (00_scope.md R14, R15, R20). -/

namespace Sys2Proof

/-- A host-visible word: 32 bits, bit 0 least significant (R15). -/
abbrev Word := BitVec 32

/-- One byte of IN or OUT, and one symbol (R10). -/
abbrev Byte := BitVec 8

/-- A byte offset in the block's 64 MiB aperture: 2^26 bytes (20_memory.md R80). -/
abbrev Offset := BitVec 26

/-- A bit string, first bit first; `true` is the bit 1 (R20). -/
abbrev BitStr := List Bool

end Sys2Proof
end

