-- ==== Sys2Proof/Syntax.lean ====
section
/-! DEFINITION. The nine commands of the opcode map (30_encoding.md R121). A command word has no operand field: operands are
the ARG registers latched at acceptance (R124). -/

namespace Sys2Proof

/-- One constructor per row of the opcode map, in its order. -/
inductive Instr where
  | nop
  | build
  | number
  | genCodes
  | serialize
  | deserGeneral
  | deserPostorder
  | pack
  | unpack
  deriving DecidableEq, Repr

end Sys2Proof
end

