-- ==== Sys2Proof/Decode.lean ====
section
/-! DEFINITION. Decoding a command word (30_encoding.md R120 to R123, R126), rejecting by name, and the encoder. -/

namespace Sys2Proof

/-- Why a word selects no command (R122). Both are reported as ILLEGAL. -/
inductive DecodeError where
  /-- Bits 31:8 are not all 0. -/
  | reservedBits
  /-- The opcode is in 0x09 to 0xFF. -/
  | reservedOpcode
  deriving DecidableEq, Repr

/-- OP, bits [7:0] of a command word (R120). -/
def opField (w : Word) : Byte := w.extractLsb' 0 8

/-- RSV, bits [31:8] of a command word (R120). -/
def rsvField (w : Word) : BitVec 24 := w.extractLsb' 8 24

/-- The opcode map (R121): opcode, command. -/
def opcodeMap : List (Byte × Instr) :=
  [(0x00, .nop), (0x01, .build), (0x02, .number), (0x03, .genCodes), (0x04, .serialize), (0x05, .deserGeneral),
   (0x06, .deserPostorder), (0x07, .pack), (0x08, .unpack)]

/-- A word selects a command iff its reserved bits are 0 and its opcode is in the map (R121, R122). -/
def decode (w : Word) : Except DecodeError Instr :=
  if rsvField w ≠ 0 then .error .reservedBits
  else match opcodeMap.lookup (opField w) with
    | some i => .ok i
    | none => .error .reservedOpcode

/-- The command word of an instruction: the column `w` of the opcode map (R121). -/
def encode : Instr → Word
  | .nop => 0x00000000
  | .build => 0x00000001
  | .number => 0x00000002
  | .genCodes => 0x00000003
  | .serialize => 0x00000004
  | .deserGeneral => 0x00000005
  | .deserPostorder => 0x00000006
  | .pack => 0x00000007
  | .unpack => 0x00000008

/-- The 32-bit command word whose low `nbits` bits are those of `w`, the rest 0. -/
def tableWord (nbits w : Nat) : Word := BitVec.ofNat 32 (w % 2 ^ nbits)

/-- The instruction the decoder reads from an opcode-table row's bits; a command word is one 32-bit word (R126). -/
def decodeTableWord (nbits w : Nat) : Option Instr :=
  if nbits ≤ 32 ∧ w < 2 ^ nbits then
    match decode (tableWord nbits w) with
    | .ok i => some i
    | .error _ => none
  else none

end Sys2Proof
end

