-- ==== Sys2Proof/Config.lean ====
section
/-! DEFINITION. What an instance of HUFFCORE fixes (00_scope.md R12) and the free values: constants without a body that stand
for what the spec leaves open (93_implementation_defined.md U1, U6, U7). -/

namespace Sys2Proof

/-- A reference to a subtree: a leaf symbol, or the arena slot of an internal node, 0 to 254 (00_scope.md R19). -/
inductive Ref where
  | leaf (s : Byte)
  | int (i : Fin 255)
  deriving DecidableEq, Repr

/-- An entry of the builder's pool (41_tree_builder.md R171). Weights are exact (R178; log 8). -/
structure PoolEntry where
  ref : Ref
  w : Nat
  label : Nat
  deriving DecidableEq, Repr

/-- Which pair-selection function the instance has (00_scope.md R12, R13; log 2). -/
inductive Select where
  /-- SELECT_REF, the reference instance (41_tree_builder.md R173). -/
  | ref
  /-- Some other SELECT that satisfies R172: its tie-breaks are the free values of `Config.tieFirst k` and
  `Config.tieSecond k`. -/
  | free (k : Nat)
  deriving DecidableEq, Repr

/-- The three parameters a model is indexed by (00_scope.md R12). No step changes them (log 1). -/
structure Params where
  inBytes : Nat
  outBytes : Nat
  select : Select
  deriving DecidableEq, Repr

namespace Config

/-- FREE VALUE (log 3; U7): how many host operations land before the engine's next event, for each draw. -/
opaque busyTime : Nat → Nat

/-- FREE VALUE (log 6; U6): what a host reads at an IN offset that nothing has written since reset. The last argument is the
byte IN kept there from before reset, if any: the value may depend on it (log 7). -/
opaque unwrittenIn : Nat → Nat → Option Byte → Byte

/-- FREE VALUE (log 6; U6): what a host reads at an OUT offset that nothing has written since reset; the arguments are those of
`unwrittenIn`. -/
opaque unwrittenOut : Nat → Nat → Option Byte → Byte

/-- FREE VALUE (log 2; U1): which of the lightest entries of a pool a conforming SELECT takes first. -/
opaque tieFirst : Nat → List PoolEntry → Nat

/-- FREE VALUE (log 2; U1): which of the lightest remaining entries a conforming SELECT takes second. -/
opaque tieSecond : Nat → List PoolEntry → Nat

end Config

end Sys2Proof
end

