-- ==== Sys2Proof/Machine/HostOp.lean ====
section
/-! DEFINITION. What the host and the platform can do to the block (40_control.md R157), and the host-program notation
(30_encoding.md R135 to R140). -/

namespace Sys2Proof.Machine

/-- One operation of the host or of the platform. -/
inductive HostOp where
  /-- `WR off, v` (R135). -/
  | wr (off : Offset) (v : Word)
  /-- `RD off` (R135). -/
  | rd (off : Offset)
  /-- `WR off, (p OR m)` where p is the word the host read last: the data-dependent write of `FREQ s, c` (R137). -/
  | wrOr (off : Offset) (m : Word)
  /-- `WAIT`: read STATUS until BUSY = 0 (R135). Every poll is a read of the host's like any other (00_scope.md R23); how many
  there are follows the free busy time (U8; log 12). -/
  | wait
  /-- The platform asserts reset (70_reset_and_hazards.md R340). -/
  | assertReset
  /-- The platform releases reset (R340, R341). -/
  | releaseReset
  /-- The platform removes power and gives it back, with reset asserted (60_exceptions.md R318; R340; log 19). -/
  | powerCycle
  deriving DecidableEq, Repr

/-- A line of a host program (R135 to R139). `INB` names bytes from an offset, `OUTB` a number of bytes to read. -/
inductive HostMacro where
  | prim (op : HostOp)
  | nop
  | build
  | number
  | genCodes
  | serialize (dst : Word)
  | deserGeneral (src len root : Word)
  | deserPostorder (src len root : Word)
  | pack (src len dst : Word)
  | unpack (src len dst : Word)
  | freq (s : Byte) (c : Word)
  | freqClr
  | inb (off : Nat) (bytes : List Byte)
  | outb (off n : Nat)
  | check
  | results
  deriving DecidableEq, Repr

end Sys2Proof.Machine
end

