-- ==== Sys2Proof/Machine/State.lean ====
section
/-! DEFINITION. HUFFCORE's architectural state (10_state.md R30 to R75) as plain data, its reset value, and the reasons a step
of the model can stop. INVENTORY.md lists the fields. -/

namespace Sys2Proof.Machine

/-- The error codes of 60_exceptions.md R300. -/
inductive ErrCode where
  | none
  | illegal
  | emptyFreq
  | noTree
  | notNumbered
  | malformed
  | dangling
  | truncated
  | noCode
  | range
  | shape
  deriving DecidableEq, Repr

/-- The stored fields of STATUS (10_state.md R36). BUSY is `State.busy`. -/
structure Status where
  done : Bool
  err : Bool
  wrIgnored : Bool
  treeValid : Bool
  numbered : Bool
  codesValid : Bool
  errCode : ErrCode
  lastOp : Byte
  deriving DecidableEq, Repr

/-- One symbol's row of the frequency table (R45). -/
structure FreqEntry where
  present : Bool
  count : Word
  deriving DecidableEq, Repr

/-- One arena slot (R50). -/
structure Node where
  left : Ref
  right : Ref
  num : Option (Fin 255)
  deriving DecidableEq, Repr

/-- The cleared value of a slot (R52). -/
def Node.cleared : Node := { left := .leaf 0, right := .leaf 0, num := none }

/-- The frequency table, indexed by symbol (R45). -/
abbrev FreqTable := Vector FreqEntry 256

/-- The arena, indexed by slot (R50). -/
abbrev Arena := Vector Node 255

/-- The code table, indexed by symbol: `some bits` is valid = 1, len = bits.length; `none` is valid = 0, len = 0, bits = 0
(R60, R63). -/
abbrev CodeTable := Vector (Option BitStr) 256

/-- A byte buffer: the bytes written, at strictly rising offsets. An unlisted offset has no value: nothing has written it
(R67; log 5, log 6). `inBuf` and `outBuf` list the bytes written since reset, `inAtReset` and `outAtReset` what the two buffers
held when reset was last asserted (log 7). -/
abbrev Memory := List Host.Cell

/-- The canonical form: addresses strictly rising. An unlisted address has no value, so no entry can equal it. -/
def Memory.wf (m : Memory) : Bool := decide (m.Pairwise fun c d => c.1 < d.1)

/-- The stages of the phase INIT (70_reset_and_hazards.md R340, R341; log 10). -/
inductive InitStage where
  /-- Reset is asserted. -/
  | held
  /-- Reset is released and the INIT sequence has not yet set the state. -/
  | pending
  /-- The INIT sequence has set the state and INIT has not yet ended. -/
  | set
  deriving DecidableEq, Repr

/-- The engine phase (10_state.md R70). -/
inductive Phase where
  | idle
  | init (stage : InitStage)
  | exec
  deriving DecidableEq, Repr

/-- What the engine latches at acceptance (R71). -/
structure Latch where
  word : Word
  arg0 : Word
  arg1 : Word
  arg2 : Word
  deriving DecidableEq, Repr

/-- One word the host has read, with the offset it read it at (00_scope.md R23). -/
structure HostRead where
  off : Offset
  val : Word
  deriving DecidableEq, Repr

/-- The whole state. The last six fields are the model's own: time, free values, and the host's side (log 3, 6, 12). -/
structure State where
  params : Params
  status : Status
  arg0 : Word
  arg1 : Word
  arg2 : Word
  result0 : Word
  result1 : Word
  freq : FreqTable
  nodes : Arena
  root : Ref
  code : CodeTable
  inBuf : Memory
  inAtReset : Memory
  outBuf : Memory
  outAtReset : Memory
  phase : Phase
  latch : Latch
  busyLeft : Nat
  schedule : List Nat
  draws : Nat
  garbage : Nat
  host : List HostOp
  reads : List HostRead
  deriving DecidableEq, Repr

/-- Why the model stops. The block itself never does: its errors are next states (60_exceptions.md R302). -/
inductive Fault where
  /-- The engine read an IN byte that nothing has written since reset (92_eei_decisions.md D36). Raised by DESER_GENERAL,
  DESER_POSTORDER, PACK and UNPACK. Safe: the hardware goes on with an unspecified byte. -/
  | unwrittenIn
  /-- TREE_VALID = 1 but the references from ROOT form no tree. Raised by NUMBER, GENCODES and SERIALIZE in states that break
  10_state.md R54, which no run reaches (log 11). Safe. -/
  | arenaNotATree
  /-- NUMBERED = 1 but a reachable node has no number. Raised by SERIALIZE in states that break 10_state.md R55, which no run
  reaches (log 11). Safe. -/
  | numberMissing
  deriving DecidableEq, Repr

/-- Why the model gives no meaning. -/
inductive Refusal where
  /-- Raised by `exec` for an instruction that has no meaning yet. Safe. No instruction is in this case. -/
  | notModelled (mnemonic : String)
  deriving DecidableEq, Repr

/-- STATUS = 0x00000000 but for BUSY (R75). -/
def Status.reset : Status :=
  { done := false, err := false, wrIgnored := false, treeValid := false, numbered := false, codesValid := false,
    errCode := .none, lastOp := 0 }

/-- The state right after reset of an instance with parameters `p`: every field at the value of 10_state.md R75, phase INIT,
the INIT sequence done and INIT about to end after a free time (log 1, 3, 9, 10, 12). -/
def State.resetOf (p : Params) : State where
  params := p
  status := .reset
  arg0 := 0
  arg1 := 0
  arg2 := 0
  result0 := 0
  result1 := 0
  freq := Vector.replicate 256 { present := false, count := 0 }
  nodes := Vector.replicate 255 .cleared
  root := .leaf 0
  code := Vector.replicate 256 none
  inBuf := []
  inAtReset := []
  outBuf := []
  outAtReset := []
  phase := .init .set
  latch := { word := 0, arg0 := 0, arg1 := 0, arg2 := 0 }
  busyLeft := Config.busyTime 0
  schedule := []
  draws := 1
  garbage := 0
  host := []
  reads := []

/-- The machine right after reset, for the instance of the spec's test vectors: IN_BYTES = OUT_BYTES = 64, SELECT_REF (log 1). -/
def State.reset : State := State.resetOf { inBytes := 64, outBytes := 64, select := .ref }

end Sys2Proof.Machine
end

