-- ==== Sys2Proof/Machine/Ops.lean ====
section
/-! DEFINITION. The named operations over buffers, tables and registers, and the lifecycle of a command: acceptance,
completion with success, completion with an error (the block's whole exception mechanism, 60_exceptions.md R302, R308). -/

namespace Sys2Proof.Machine

/-! ### Arithmetic and tables -/

/-- The least q with q·b ≥ a, for b > 0 (00_scope.md R14). -/
def ceilDiv (a b : Nat) : Nat := (a + (b - 1)) / b

/-- The table whose entry at `i` is `f i`. -/
def tabulate {α : Type} {n : Nat} (f : Fin n → α) : Vector α n :=
  ⟨((List.finRange n).map f).toArray, by simp⟩

/-- The symbol with number `i` (00_scope.md R10). -/
def symbolOf (i : Fin 256) : Byte := BitVec.ofNat 8 i.val

/-- The arena slot with number `n`, for n in [0, 254]. -/
def slotOf (n : Nat) : Fin 255 := Fin.ofNat 255 n

/-- A count or an offset as a 32-bit register value. -/
def toWord (n : Nat) : Word := BitVec.ofNat 32 n

/-! ### Byte order (20_memory.md R87, R91) -/

/-- Byte j of a word: bits [8j+7:8j]. -/
def wordByte (v : Word) (j : Nat) : Byte := v.extractLsb' (8 * j) 8

/-- The four bytes of a word, least significant first. -/
def wordBytes (v : Word) : List Byte := [wordByte v 0, wordByte v 1, wordByte v 2, wordByte v 3]

/-- A list of bytes read as an unsigned little-endian integer (00_scope.md R17, InRead). -/
def bytesToNat : List Byte → Nat
  | [] => 0
  | b :: bs => b.toNat + 256 * bytesToNat bs

/-! ### Buffers -/

/-- What a byte buffer holds at an offset: the byte last written there, or no value (10_state.md R67). -/
def Memory.read : Memory → Nat → Option Byte
  | [], _ => none
  | (a, b) :: m, x => if a = x then some b else Memory.read m x

/-- Write one byte, keeping the offsets strictly rising. -/
def Memory.write : Memory → Nat → Byte → Memory
  | [], x, v => [(x, v)]
  | (a, b) :: m, x, v =>
    if x < a then (x, v) :: (a, b) :: m
    else if x = a then (x, v) :: m
    else (a, b) :: Memory.write m x v

/-- Write a list of bytes from an offset on (00_scope.md R17, OutWrite). -/
def Memory.writeBytes : Memory → Nat → List Byte → Memory
  | m, _, [] => m
  | m, x, v :: vs => Memory.writeBytes (Memory.write m x v) (x + 1) vs

/-- All bytes of the first buffer written over the second. -/
def Memory.over (m : Memory) (base : Memory) : Memory := m.foldl (fun acc c => Memory.write acc c.1 c.2) base

/-- A byte range lies within a buffer; the sum does not wrap (20_memory.md R90). -/
def inRange (a n size : Nat) : Bool := a + n ≤ size

/-! ### The engine phase -/

/-- STATUS.BUSY: the phase is not IDLE (10_state.md R70). -/
def State.busy (s : State) : Bool := s.phase ≠ .idle

/-- The time to the engine's next event: fixed by `schedule`, else a free value (log 3). -/
def State.drawBusy (s : State) : State :=
  match s.schedule with
  | n :: rest => { s with busyLeft := n, schedule := rest }
  | [] => { s with busyLeft := Config.busyTime s.draws, draws := s.draws + 1 }

/-- What acceptance of a command word does (40_control.md R150): latch the word and the ARG registers, enter EXEC, clear DONE,
ERR, WR_IGNORED and ERRCODE, set LAST_OP. -/
def State.latchCommand (w : Word) (s : State) : State :=
  { s with
    latch := { word := w, arg0 := s.arg0, arg1 := s.arg1, arg2 := s.arg2 }
    phase := .exec
    status := { s.status with done := false, err := false, wrIgnored := false, errCode := .none, lastOp := wordByte w 0 } }

/-- Acceptance, with the time the command will take. -/
def State.accept (w : Word) (s : State) : State := (s.latchCommand w).drawBusy

/-! ### Completion -/

/-- Completion with success (40_control.md R152): RESULT0 and RESULT1, DONE = 1, ERR = 0, ERRCODE = 0, IDLE. -/
def State.completeOk (r0 r1 : Word) (s : State) : State :=
  { s with
    result0 := r0
    result1 := r1
    phase := .idle
    status := { s.status with done := true, err := false, errCode := .none } }

/-- Completion with an error (40_control.md R152, 60_exceptions.md R303): nothing but STATUS and the RESULT registers changes;
control does not move, because the block has no program counter (R308). There is no return operation: NOP, or any other
accepted command, clears ERR and ERRCODE (R309). -/
def State.completeErr (c : ErrCode) (s : State) : State :=
  { s with
    result0 := 0
    result1 := 0
    phase := .idle
    status := { s.status with done := true, err := true, errCode := c } }

/-- How a command's computation ends before its result: with an error code, or with a fault of the model. -/
inductive Abort where
  | raise (c : ErrCode)
  | stop (f : Fault)
  deriving DecidableEq, Repr

/-- A computation of the engine over the state at acceptance (40_control.md R151). -/
abbrev Engine (α : Type) := Except Abort α

/-- `raise Error(c)` (00_scope.md R18). -/
def raise {α : Type} (c : ErrCode) : Engine α := .error (.raise c)

/-- The model stops (log 5, log 11). -/
def stopWith {α : Type} (f : Fault) : Engine α := .error (.stop f)

/-- `if b: raise Error(c)`. -/
def raiseIf (b : Bool) (c : ErrCode) : Engine Unit := if b then raise c else .ok ()

/-- The value an optional one holds, or a stop of the model. -/
def orStop {α : Type} (f : Fault) : Option α → Engine α
  | some x => .ok x
  | none => stopWith f

/-- Completion of a command (40_control.md R152): on success the new state and the two results, on an error the state at
acceptance but for STATUS and the RESULT registers. -/
def finish (s : State) : Engine (State × Word × Word) → Host.Outcome State Fault Refusal
  | .ok (t, r0, r1) => .next (t.completeOk r0 r1)
  | .error (.raise c) => .next (s.completeErr c)
  | .error (.stop f) => .fault f

/-! ### The engine's access to IN (20_memory.md R88, R89) -/

/-- `InByte(a)` (00_scope.md R17): an IN byte never written since reset stops the model (92_eei_decisions.md D36). -/
def State.inByte (s : State) (a : Nat) : Engine Byte := orStop .unwrittenIn (s.inBuf.read a)

/-- The `n` bytes of IN from offset `a` on, read in order. -/
def State.inRead (s : State) : Nat → Nat → Engine (List Byte)
  | _, 0 => .ok []
  | a, n + 1 => do
    let b ← s.inByte a
    let bs ← State.inRead s (a + 1) n
    .ok (b :: bs)

/-- `OutByte` over a list of bytes (00_scope.md R17). -/
def State.outWrite (a : Nat) (bs : List Byte) (s : State) : State := { s with outBuf := s.outBuf.writeBytes a bs }

/-! ### Trees -/

/-- The arena that holds the given nodes from slot 0 on, every other slot cleared. -/
def arenaOf (l : List Node) : Arena := tabulate fun i => l.getD i.val .cleared

/-- Put a new tree in the arena: the old tree, numbers and codes are replaced in full (41_tree_builder.md R174,
44_tree_serdes.md R245, R252). -/
def State.installTree (nodes : Arena) (root : Ref) (s : State) : State :=
  { s with
    nodes := nodes
    root := root
    code := Vector.replicate 256 none
    status := { s.status with treeValid := true, numbered := false, codesValid := false } }

end Sys2Proof.Machine
end

