-- ==== Sys2Proof/Machine/Tree.lean ====
section
/-! DEFINITION. The tree that the arena holds (00_scope.md R19, 10_state.md R54) and the walks over it: postorder
(43_tree_numberer.md R211) and the code walk (42_code_table.md R191, R192). -/

namespace Sys2Proof.Machine

/-- A tree read from the arena: a leaf's symbol, or an internal node with the slot it stands in. -/
inductive SlotTree where
  | leaf (s : Byte)
  | node (slot : Fin 255) (left right : SlotTree)
  deriving DecidableEq, Repr

/-- An abstract tree, without slots (R19). -/
inductive AbsTree where
  | leaf (s : Byte)
  | node (left right : AbsTree)
  deriving DecidableEq, Repr

/-- Forget the slots. -/
def SlotTree.abs : SlotTree → AbsTree
  | .leaf s => .leaf s
  | .node _ l r => .node l.abs r.abs

/-- `tree_of(r)` (R19), following at most `fuel` internal nodes on any path; a strict binary tree over 255 slots is no deeper
than 255 (42_code_table.md R190; log 18). -/
def readTree (nodes : Arena) : Nat → Ref → Option SlotTree
  | _, .leaf s => some (.leaf s)
  | 0, .int _ => none
  | fuel + 1, .int i =>
    match readTree nodes fuel nodes[i].left, readTree nodes fuel nodes[i].right with
    | some l, some r => some (.node i l r)
    | _, _ => none

/-- `tree_of(ROOT)`. -/
def State.tree (s : State) : Option SlotTree := readTree s.nodes 255 s.root

/-- The tree a command works on, when TREE_VALID = 1 (R54; log 11). -/
def State.theTree (s : State) : Engine SlotTree := orStop .arenaNotATree s.tree

/-- The slots in postorder: left subtree, right subtree, node (43_tree_numberer.md R211). -/
def SlotTree.postorder : SlotTree → List (Fin 255)
  | .leaf _ => []
  | .node i l r => l.postorder ++ r.postorder ++ [i]

/-- The leaf symbols, left to right. -/
def SlotTree.leaves : SlotTree → List Byte
  | .leaf s => [s]
  | .node _ l r => l.leaves ++ r.leaves

/-- The leaves in walk order, each with its path from `path` on: left appends 0, right appends 1 (42_code_table.md R191). -/
def SlotTree.leafPaths : SlotTree → BitStr → List (Byte × BitStr)
  | .leaf s, path => [(s, path)]
  | .node _ l r, path => l.leafPaths (path ++ [false]) ++ r.leafPaths (path ++ [true])

/-- The walk of `codes_of()` (R192): a leaf root has the single path "0" (R194). -/
def SlotTree.codePaths : SlotTree → List (Byte × BitStr)
  | .leaf s => [(s, [false])]
  | .node i l r => (SlotTree.node i l r).leafPaths []

/-- `T[s]`, where T is `codes_of()` (R192): the first leaf in walk order wins (R195). -/
def SlotTree.codeOf (t : SlotTree) (s : Byte) : Option BitStr := t.codePaths.lookup s

/-- The whole code table of a tree (R193). -/
def SlotTree.codeTable (t : SlotTree) : CodeTable :=
  let paths := t.codePaths
  tabulate fun i => paths.lookup (symbolOf i)

end Sys2Proof.Machine
end

