-- ==== Sys2Proof/Machine/Build.lean ====
section
/-! DEFINITION. BUILD, the tree builder (41_tree_builder.md R170 to R182), and the SELECT parameter. -/

namespace Sys2Proof.Machine

/-- The builder's pool, in rising order of label, so that a pool's list is determined by its set (R171, R177). -/
abbrev Pool := List PoolEntry

/-- The initial pool (R171, R174): one leaf entry for each present symbol. -/
def initialPool (freq : FreqTable) : Pool :=
  (List.finRange 256).filterMap fun i =>
    if freq[i].present then some { ref := .leaf (symbolOf i), w := freq[i].count.toNat, label := i.val } else none

/-- The least weight of a pool. -/
def minWeight : Pool → Option Nat
  | [] => none
  | e :: p =>
    match minWeight p with
    | none => some e.w
    | some w => some (min e.w w)

/-- The entries of least weight, in rising order of label. -/
def lightest (p : Pool) : Pool := p.filter fun e => some e.w = minWeight p

/-- The order of SELECT_REF: weight first, then label (R173). -/
def refBefore (e f : PoolEntry) : Bool := e.w < f.w ∨ (e.w = f.w ∧ e.label < f.label)

/-- The least entry in SELECT_REF's order (R173). -/
def leastRef : Pool → Option PoolEntry
  | [] => none
  | e :: p =>
    match leastRef p with
    | none => some e
    | some f => some (if refBefore f e then f else e)

/-- One of the lightest entries: which one is `tie` (a free value; R172). -/
def pickLightest (tie : Nat) (p : Pool) : Option PoolEntry := (lightest p)[tie % (lightest p).length]?

/-- The pool without the entry that has a given label; labels identify entries (R171). -/
def dropLabel (l : Nat) (p : Pool) : Pool := p.filter fun e => e.label ≠ l

/-- The first entry SELECT returns, a (R172). -/
def selectFirst : Select → Pool → Option PoolEntry
  | .ref, p => leastRef p
  | .free k, p => pickLightest (Config.tieFirst k p) p

/-- The second entry SELECT returns, b, out of the pool without a (R172). -/
def selectSecond : Select → (whole rest : Pool) → Option PoolEntry
  | .ref, _, rest => leastRef rest
  | .free k, whole, rest => pickLightest (Config.tieSecond k whole) rest

/-- `SELECT(P)` (R172); no value for a pool of fewer than two entries. -/
def selectPair (sel : Select) (p : Pool) : Option (PoolEntry × PoolEntry) :=
  match selectFirst sel p with
  | none => none
  | some a =>
    match selectSecond sel p (dropLabel a.label p) with
    | none => none
    | some b => some (a, b)

/-- The entry that merge `k` adds (R174, R177, R178): label M + 1 + k, the exact sum of the weights. -/
def mergedEntry (maxSym k : Nat) (a b : PoolEntry) : PoolEntry :=
  { ref := .int (slotOf k), w := a.w + b.w, label := maxSym + 1 + k }

/-- The slot that merge `k` fills (R174): a left, b right. -/
def mergedNode (a b : PoolEntry) : Node := { left := a.ref, right := b.ref, num := none }

/-- The loop of R174: `n` more merges, the next one being merge `k`; the nodes of the merges, in order. -/
def mergeLoop (sel : Select) (maxSym : Nat) : (n k : Nat) → Pool → List Node
  | 0, _, _ => []
  | n + 1, k, p =>
    match selectPair sel p with
    | none => []
    | some (a, b) =>
      mergedNode a b ::
        mergeLoop sel maxSym n (k + 1) (dropLabel b.label (dropLabel a.label p) ++ [mergedEntry maxSym k a b])

/-- M, the largest present symbol (R174): the largest label of the initial pool. -/
def maxLabel (p : Pool) : Nat := p.foldl (fun m e => max m e.label) 0

/-- ROOT after BUILD (R174, R175): the leaf alone, or the slot of the last merge. -/
def builtRoot : Pool → Ref
  | [] => .leaf 0
  | [e] => e.ref
  | p => .int (slotOf (p.length - 2))

/-- BUILD (R174): EMPTY_FREQ on an empty table; RESULT0 = m, RESULT1 = m - 1. -/
def execBuild (s : State) : Host.Outcome State Fault Refusal :=
  finish s <| do
    let p := initialPool s.freq
    raiseIf p.isEmpty .emptyFreq
    let nodes := mergeLoop s.params.select (maxLabel p) (p.length - 1) 0 p
    .ok (s.installTree (arenaOf nodes) (builtRoot p), toWord p.length, toWord (p.length - 1))

end Sys2Proof.Machine
end

