-- ==== Sys2Proof/Machine/Codes.lean ====
section
/-! DEFINITION. GENCODES, the code table generator (42_code_table.md R190 to R197). -/

namespace Sys2Proof.Machine

/-- `|T|`: the number of symbols given a code (R193). -/
def codeCount (c : CodeTable) : Nat := (c.toList.filter Option.isSome).length

/-- `max { len(T[s]) : s in T }` (R193). -/
def longestCode (c : CodeTable) : Nat := c.toList.foldl (fun m e => max m ((e.map List.length).getD 0)) 0

/-- GENCODES (R193): NO_TREE; RESULT0 = |T|, RESULT1 = the longest code's length. -/
def execGenCodes (s : State) : Host.Outcome State Fault Refusal :=
  finish s <| do
    raiseIf (!s.status.treeValid) .noTree
    let t ← s.theTree
    let c := t.codeTable
    .ok ({ s with code := c, status := { s.status with codesValid := true } }, toWord (codeCount c), toWord (longestCode c))

end Sys2Proof.Machine
end

