-- ==== Sys2Proof/Machine/Operands.lean ====
section
/-! DEFINITION. The operand forms (30_encoding.md R124, R125): each operand is one ARG register as latched at acceptance, an
unsigned 32-bit integer, neither extended nor scaled. -/

namespace Sys2Proof.Machine

/-- Latched ARG0 as an integer. -/
def State.opArg0 (s : State) : Nat := s.latch.arg0.toNat

/-- Latched ARG1 as an integer. -/
def State.opArg1 (s : State) : Nat := s.latch.arg1.toNat

/-- Latched ARG2 as an integer. -/
def State.opArg2 (s : State) : Nat := s.latch.arg2.toNat

/-- Operands of DESER_GENERAL and DESER_POSTORDER: the IN offset of the header, the bytes available there, root_index. -/
structure HeaderArgs where
  src : Nat
  len : Nat
  root : Nat
  deriving DecidableEq, Repr

/-- Operands of PACK and UNPACK: an IN offset, a length there, an OUT offset. -/
structure StreamArgs where
  src : Nat
  len : Nat
  dst : Nat
  deriving DecidableEq, Repr

/-- SERIALIZE reads ARG0 = dst and ignores ARG1 and ARG2. -/
def State.headerDst (s : State) : Nat := s.opArg0

def State.headerArgs (s : State) : HeaderArgs := { src := s.opArg0, len := s.opArg1, root := s.opArg2 }

def State.streamArgs (s : State) : StreamArgs := { src := s.opArg0, len := s.opArg1, dst := s.opArg2 }

/-- A node record, four bytes in this order (30_encoding.md R128). -/
structure NodeRec where
  lType : Byte
  lData : Byte
  rType : Byte
  rData : Byte
  deriving DecidableEq, Repr

/-- The four bytes of a record. -/
def NodeRec.bytes (r : NodeRec) : List Byte := [r.lType, r.lData, r.rType, r.rData]

/-- A type byte is legal iff it is 0 or 1 (30_encoding.md R129). -/
def typeLegal (t : Byte) : Bool := t = 0 ∨ t = 1

/-- Decode a type and data pair (44_tree_serdes.md R230): `ref(0, d) = Leaf(d)`, `ref(1, d) = Int(d)`. -/
def refOf (t d : Byte) : Ref := if t = 1 then .int (slotOf d.toNat) else .leaf d

/-- Encode a reference, given the numbers (44_tree_serdes.md R230); an internal node needs a number. -/
def encRef (nodes : Arena) : Ref → Option (Byte × Byte)
  | .leaf s => some (0, s)
  | .int i => nodes[i].num.map fun k => (1, BitVec.ofNat 8 k.val)

end Sys2Proof.Machine
end

