-- ==== Sys2Proof/Machine/Control.lean ====
section
/-! DEFINITION. The commands that compute nothing: NOP (40_control.md R155) and an illegal word (R156). -/

namespace Sys2Proof.Machine

/-- NOP (R155): `return success(S)`, RESULT0 = RESULT1 = 0. -/
def execNop (s : State) : Host.Outcome State Fault Refusal := finish s (.ok (s, 0, 0))

/-- An accepted word that selects no command (R122, R156): `raise Error(ILLEGAL)`. -/
def execIllegal (s : State) : Host.Outcome State Fault Refusal := finish s (raise .illegal)

end Sys2Proof.Machine
end

