-- ==== Sys2Proof/Machine/Number.lean ====
section
/-! DEFINITION. NUMBER, the tree numberer (43_tree_numberer.md R210 to R215). -/

namespace Sys2Proof.Machine

/-- `for i in [0, 254]: NODE[i].num <- None`. -/
def clearNumbers (nodes : Arena) : Arena := nodes.map fun n => { n with num := none }

/-- `NODE[i].num <- j`. -/
def setNumber (nodes : Arena) (i : Fin 255) (j : Nat) : Arena := nodes.set i { nodes[i] with num := some (slotOf j) }

/-- `for j: NODE[L[j]].num <- j`, for the list `l` of slots whose first has number `j`. -/
def numberFrom : Arena → Nat → List (Fin 255) → Arena
  | nodes, _, [] => nodes
  | nodes, j, i :: l => numberFrom (setNumber nodes i j) (j + 1) l

/-- NUMBER (R212): NO_TREE; RESULT0 = k, RESULT1 = 0. A leaf root gives k = 0 (R214). -/
def execNumber (s : State) : Host.Outcome State Fault Refusal :=
  finish s <| do
    raiseIf (!s.status.treeValid) .noTree
    let t ← s.theTree
    let l := t.postorder
    .ok ({ s with nodes := numberFrom (clearNumbers s.nodes) 0 l, status := { s.status with numbered := true } },
      toWord l.length, 0)

end Sys2Proof.Machine
end

