-- ==== Sys2Proof/Machine/Serdes.lean ====
section
/-! DEFINITION. SERIALIZE, DESER_GENERAL and DESER_POSTORDER (44_tree_serdes.md R230 to R257). -/

namespace Sys2Proof.Machine

/-! ### SERIALIZE -/

/-- `rec(i) = enc(NODE[i].left) ++ enc(NODE[i].right)` (R230). -/
def slotRecord (nodes : Arena) (i : Fin 255) : Option NodeRec :=
  match encRef nodes nodes[i].left, encRef nodes nodes[i].right with
  | some (lt, ld), some (rt, rd) => some { lType := lt, lData := ld, rType := rt, rData := rd }
  | _, _ => none

/-- The records of a list of slots, in order. -/
def slotRecords (nodes : Arena) : List (Fin 255) → Option (List NodeRec)
  | [] => some []
  | i :: l =>
    match slotRecord nodes i, slotRecords nodes l with
    | some r, some rs => some (r :: rs)
    | _, _ => none

/-- The records of a tree (R235): in postorder; for a leaf root the one record `(0, s, 0, s)` (R238). -/
def treeRecords (nodes : Arena) : SlotTree → Option (List NodeRec)
  | .leaf s => some [{ lType := 0, lData := s, rType := 0, rData := s }]
  | .node i l r => slotRecords nodes (SlotTree.node i l r).postorder

/-- The header of a list of records: node_count, then the records (30_encoding.md R130). -/
def headerBytes (recs : List NodeRec) : List Byte :=
  BitVec.ofNat 8 recs.length :: recs.flatMap NodeRec.bytes

/-- SERIALIZE (R235): NO_TREE, NOT_NUMBERED, RANGE, in that order; RESULT0 = 1 + 4n, RESULT1 = n. -/
def execSerialize (s : State) : Host.Outcome State Fault Refusal :=
  finish s <| do
    raiseIf (!s.status.treeValid) .noTree
    raiseIf (!s.status.numbered) .notNumbered
    let t ← s.theTree
    let recs ← orStop .numberMissing (treeRecords s.nodes t)
    let dst := s.headerDst
    let n := recs.length
    raiseIf (!inRange dst (1 + 4 * n) s.params.outBytes) .range
    .ok (s.outWrite dst (headerBytes recs), toWord (1 + 4 * n), toWord n)

/-! ### Header parsing, shared by both deserializers -/

/-- One field of a record: its type byte, then its data byte. With `index` false the data byte of a `type=1` field is not read
(R251, 30_encoding.md R128; log 20) and 0 stands in its place, which nothing looks at. -/
def readField (s : State) (index : Bool) (a : Nat) : Engine (Byte × Byte) := do
  let t ← s.inByte a
  if t = 1 ∧ index = false then .ok (t, 0)
  else do
    let d ← s.inByte (a + 1)
    .ok (t, d)

/-- `n` records of IN from offset `a` on, read in order (R240). -/
def readRecords (s : State) (index : Bool) : (n a : Nat) → Engine (List NodeRec)
  | 0, _ => .ok []
  | n + 1, a => do
    let l ← readField s index a
    let r ← readField s index (a + 2)
    let rs ← readRecords s index n (a + 4)
    .ok ({ lType := l.1, lData := l.2, rType := r.1, rData := r.2 } :: rs)

/-- check_types (R241): every record's type bytes are 0 or 1. -/
def typesLegal (recs : List NodeRec) : Bool := recs.all fun r => typeLegal r.lType && typeLegal r.rType

/-- parse_header (R240 to R242), with the data bytes of `type=1` fields, list indices, or without them. -/
def parseHeader (s : State) (index : Bool) (a : HeaderArgs) : Engine (List NodeRec) := do
  raiseIf (!inRange a.src a.len s.params.inBytes) .range
  raiseIf (a.len < 1) .malformed
  let count ← s.inByte a.src
  let n := count.toNat
  raiseIf (n = 0) .malformed
  raiseIf (a.len < 1 + 4 * n) .malformed
  let recs ← readRecords s index n (a.src + 1)
  raiseIf (!typesLegal recs) .malformed
  raiseIf (a.root ≥ n) .dangling
  .ok recs

/-! ### DESER_GENERAL -/

/-- Every `type=1` value of every record is a position of the list (R245). -/
def indicesInRange (recs : List NodeRec) : Bool :=
  recs.all fun r => (r.lType ≠ 1 ∨ r.lData.toNat < recs.length) ∧ (r.rType ≠ 1 ∨ r.rData.toNat < recs.length)

/-- `visit` of check_shape (R246): the set `seen` grows with every visit, so that no path is longer than the list, and `fuel`
past its length never runs out (log 18). -/
def visit (recs : List NodeRec) : (fuel j : Nat) → (seen : List Nat) → Engine (List Nat)
  | 0, _, _ => raise .shape
  | fuel + 1, j, seen =>
    if j ∈ seen then raise .shape
    else
      match recs[j]? with
      | none => raise .dangling
      | some r => do
        let seen ← (if r.lType = 1 then visit recs fuel r.lData.toNat (j :: seen) else .ok (j :: seen) : Engine (List Nat))
        if r.rType = 1 then visit recs fuel r.rData.toNat seen else .ok seen

/-- check_shape (R246). -/
def checkShape (recs : List NodeRec) (root : Nat) : Engine (List Nat) := visit recs (recs.length + 1) root []

/-- The node of a record, its `type=1` values resolved to slots of the same number (R245, R247). -/
def recNode (r : NodeRec) : Node := { left := refOf r.lType r.lData, right := refOf r.rType r.rData, num := none }

/-- DESER_GENERAL (R245): RANGE, MALFORMED, DANGLING, SHAPE, in the order of the checks; RESULT0 = 1 + 4n, RESULT1 = n. -/
def execDeserGeneral (s : State) : Host.Outcome State Fault Refusal :=
  finish s <| do
    let a := s.headerArgs
    let recs ← parseHeader s true a
    raiseIf (!indicesInRange recs) .dangling
    let _ ← checkShape recs a.root
    .ok (s.installTree (arenaOf (recs.map recNode)) (.int (slotOf a.root)),
      toWord (1 + 4 * recs.length), toWord recs.length)

/-! ### DESER_POSTORDER -/

/-- One field of a record (R252): a `type=1` field pops the stack, whatever its data byte (R251); a leaf leaves it alone. -/
def popRef (t d : Byte) (stack : List Nat) : Engine (Ref × List Nat) :=
  if t = 1 then
    match stack with
    | [] => raise .dangling
    | top :: rest => .ok (.int (slotOf top), rest)
  else .ok (.leaf d, stack)

/-- The loop of R252 over the records still to build, the first of them being record `j`: the right child is popped first
(R250); the top of the stack is its head. -/
def buildPostorder : (j : Nat) → (stack : List Nat) → List NodeRec → Engine (List Node)
  | _, _, [] => .ok []
  | j, stack, r :: rs => do
    let (right, stack) ← popRef r.rType r.rData stack
    let (left, stack) ← popRef r.lType r.lData stack
    let nodes ← buildPostorder (j + 1) (j :: stack) rs
    .ok ({ left := left, right := right, num := none } :: nodes)

/-- DESER_POSTORDER (R252): RANGE, MALFORMED, DANGLING, in the order of the checks; records 0 to root_index are built (R253). -/
def execDeserPostorder (s : State) : Host.Outcome State Fault Refusal :=
  finish s <| do
    let a := s.headerArgs
    let recs ← parseHeader s false a
    let nodes ← buildPostorder 0 [] (recs.take (a.root + 1))
    .ok (s.installTree (arenaOf nodes) (.int (slotOf a.root)), toWord (1 + 4 * recs.length), toWord recs.length)

end Sys2Proof.Machine
end

