-- ==== Sys2Proof/Machine/Stream.lean ====
section
/-! DEFINITION. PACK and UNPACK, the stream packer and unpacker (45_stream_packer.md R270 to R291). -/

namespace Sys2Proof.Machine

/-! ### PACK -/

/-- The code stream of the `n` symbols of IN from offset `a` on (R271, R275): NO_CODE at the first symbol without a code. -/
def codeStream (s : State) : (n a : Nat) → Engine BitStr
  | 0, _ => .ok []
  | n + 1, a => do
    let x ← s.inByte a
    match s.code[x.toNat]'x.isLt with
    | none => raise .noCode
    | some bits => do
      let rest ← codeStream s n (a + 1)
      .ok (bits ++ rest)

/-- The byte whose bit 7 - p is bit `8q + p` of the stream, with zeros past its end (R272; 20_memory.md R94, R95). -/
def payloadByte (bits : BitStr) (q : Nat) : Byte :=
  BitVec.ofNat 8 ((List.range 8).foldl (fun acc p => 2 * acc + (bits.getD (8 * q + p) false).toNat) 0)

/-- `payload(S)` (R272): ceil_div(B, 8) bytes. -/
def payloadBytes (bits : BitStr) : List Byte := (List.range (ceilDiv bits.length 8)).map (payloadByte bits)

/-- The sized payload (R273): the size field, little-endian (20_memory.md R91), then the payload. -/
def sizedPayload (size : Nat) (bits : BitStr) : List Byte := wordBytes (toWord size) ++ payloadBytes bits

/-- PACK (R275): RANGE, NO_CODE, RANGE, in that order; RESULT0 = 4 + nb, RESULT1 = B. -/
def execPack (s : State) : Host.Outcome State Fault Refusal :=
  finish s <| do
    let a := s.streamArgs
    raiseIf (!inRange a.src a.len s.params.inBytes) .range
    let bits ← codeStream s a.len a.src
    let nb := ceilDiv bits.length 8
    raiseIf (!inRange a.dst (4 + nb) s.params.outBytes) .range
    .ok (s.outWrite a.dst (sizedPayload a.len bits), toWord (4 + nb), toWord bits.length)

/-! ### UNPACK -/

/-- `bit(t)` of the payload that starts at IN offset `base` (R285; 20_memory.md R94). -/
def payloadBit (s : State) (base t : Nat) : Engine Bool := do
  let b ← s.inByte (base + t / 8)
  .ok (b.getLsbD (7 - t % 8))

/-- The walk of R280 and R285 from a reference, with `left` payload bits left and the next one at `t`: 0 goes left, 1 goes
right; TRUNCATED when a bit is needed and none is left (R287). -/
def walkBits (s : State) (base : Nat) : (left : Nat) → Ref → (t : Nat) → Engine (Byte × Nat)
  | _, .leaf x, t => .ok (x, t)
  | 0, .int _, _ => raise .truncated
  | left + 1, .int i, t => do
    let b ← payloadBit s base t
    walkBits s base left (if b then s.nodes[i].right else s.nodes[i].left) (t + 1)

/-- One symbol (R280, R285): a leaf root takes one bit whose value is not read (R286). -/
def decodeOne (s : State) (base avail t : Nat) : Engine (Byte × Nat) :=
  match s.root with
  | .leaf x => if t ≥ avail then raise .truncated else .ok (x, t + 1)
  | .int i => walkBits s base (avail - t) (.int i) t

/-- `n` symbols from bit `t` on, and the next bit (R285). -/
def decodeSymbols (s : State) (base avail : Nat) : (n t : Nat) → Engine (List Byte × Nat)
  | 0, t => .ok ([], t)
  | n + 1, t => do
    let (x, t) ← decodeOne s base avail t
    let (xs, t) ← decodeSymbols s base avail n t
    .ok (x :: xs, t)

/-- UNPACK (R285): RANGE, MALFORMED, then success if size = 0 (R289), NO_TREE, RANGE, TRUNCATED, in that order;
RESULT0 = size, RESULT1 = the payload bits consumed. -/
def execUnpack (s : State) : Host.Outcome State Fault Refusal :=
  finish s <| do
    let a := s.streamArgs
    raiseIf (!inRange a.src a.len s.params.inBytes) .range
    raiseIf (a.len < 4) .malformed
    let field ← s.inRead a.src 4
    let size := bytesToNat field
    if size = 0 then .ok (s, 0, 0)
    else do
      raiseIf (!s.status.treeValid) .noTree
      raiseIf (!inRange a.dst size s.params.outBytes) .range
      let (out, t) ← decodeSymbols s (a.src + 4) (8 * (a.len - 4)) size 0
      .ok (s.outWrite a.dst out, toWord size, toWord t)

end Sys2Proof.Machine
end

