-- ==== Sys2Proof/Machine/Dispatch.lean ====
section
/-! DEFINITION. The meaning of each command: the function `exec(w, args, S)` of 40_control.md R151 with its completion (R152),
on the state at acceptance, whose latch holds the arguments. -/

namespace Sys2Proof.Machine

def exec (i : Instr) (s : State) : Host.Outcome State Fault Refusal :=
  match i with
  | .nop => Sys2Proof.Machine.execNop s
  | .build => Sys2Proof.Machine.execBuild s
  | .number => Sys2Proof.Machine.execNumber s
  | .genCodes => Sys2Proof.Machine.execGenCodes s
  | .serialize => Sys2Proof.Machine.execSerialize s
  | .deserGeneral => Sys2Proof.Machine.execDeserGeneral s
  | .deserPostorder => Sys2Proof.Machine.execDeserPostorder s
  | .pack => Sys2Proof.Machine.execPack s
  | .unpack => Sys2Proof.Machine.execUnpack s

end Sys2Proof.Machine
end

