-- ==== Sys2Proof/Machine/Flags.lean ====
section
/-! DEFINITION. The STATUS word (10_state.md R36), the ROOT word (R40) and the error codes (60_exceptions.md R300) as the host
reads them, and WR_IGNORED. -/

namespace Sys2Proof.Machine

/-- STATUS.ERRCODE (60_exceptions.md R300). -/
def ErrCode.toByte : ErrCode → Byte
  | .none => 0x00
  | .illegal => 0x01
  | .emptyFreq => 0x02
  | .noTree => 0x03
  | .notNumbered => 0x04
  | .malformed => 0x05
  | .dangling => 0x06
  | .truncated => 0x07
  | .noCode => 0x08
  | .range => 0x09
  | .shape => 0x0A

/-- A one-bit field at bit `pos` of a host word. -/
def flagAt (b : Bool) (pos : Nat) : Word := if b then BitVec.ofNat 32 (2 ^ pos) else 0

/-- A byte field whose low bit is bit `pos` of a host word. -/
def byteAt (b : Byte) (pos : Nat) : Word := b.setWidth 32 <<< pos

/-- The word a host reads from STATUS (R36): bits 7 and 31:24 read 0. -/
def State.statusWord (s : State) : Word :=
  flagAt s.busy 0 ||| flagAt s.status.done 1 ||| flagAt s.status.err 2 ||| flagAt s.status.wrIgnored 3 |||
  flagAt s.status.treeValid 4 ||| flagAt s.status.numbered 5 ||| flagAt s.status.codesValid 6 |||
  byteAt s.status.errCode.toByte 8 ||| byteAt s.status.lastOp 16

/-- A reference in its 9-bit encoding, type in bit 8, value in bits 7:0 (00_scope.md R19). -/
def Ref.toWord : Ref → Word
  | .leaf s => s.setWidth 32
  | .int i => 0x100 ||| BitVec.ofNat 32 i.val

/-- The word a host reads from ROOT (R40): 0 when TREE_VALID = 0. -/
def State.rootWord (s : State) : Word :=
  if s.status.treeValid then flagAt true 31 ||| Ref.toWord s.root else 0

/-- A host write while BUSY = 1 sets WR_IGNORED and does nothing else (20_memory.md R85). -/
def State.ignoreWrite (s : State) : State := { s with status := { s.status with wrIgnored := true } }

end Sys2Proof.Machine
end

