-- ==== Sys2Proof/Machine/HostMap.lean ====
section
/-! DEFINITION. The aperture as the host sees it: the address map (20_memory.md R81), word reads (R82 to R84) and word writes
(R82, R83, R85). -/

namespace Sys2Proof.Machine

/-- What a word offset names (R81). Indexes are those of the windows' own rules. -/
inductive HostReg where
  | id
  | version
  | cfgInBytes
  | cfgOutBytes
  | cmd
  | status
  | arg0
  | arg1
  | arg2
  | result0
  | result1
  | root
  | freqPresent (j : Fin 8)
  | freqCount (s : Fin 256)
  | nodeChild (i : Fin 255)
  | nodeNum (i : Fin 255)
  | codeMeta (s : Fin 256)
  | codeBits (s : Fin 256) (j : Fin 8)
  /-- The word of IN whose first byte has this offset in IN. -/
  | inWord (a : Nat)
  /-- The word of OUT whose first byte has this offset in OUT. -/
  | outWord (a : Nat)
  | reserved
  deriving DecidableEq, Repr

/-- ID (10_state.md R32). -/
def idWord : Word := 0x48554646

/-- VERSION (10_state.md R33). -/
def versionWord : Word := 0x00000001

/-- The offset of the word an access acts on: bits [1:0] are ignored (R82). -/
def wordOffset (off : Offset) : Nat := off.toNat - off.toNat % 4

/-- The control registers at 0x000 to 0x02F, by word (10_state.md R32 to R40); 0x030 to 0x0FF are reserved. -/
def controlReg (word : Nat) : HostReg :=
  match word with
  | 0 => .id
  | 1 => .version
  | 2 => .cfgInBytes
  | 3 => .cfgOutBytes
  | 4 => .cmd
  | 5 => .status
  | 6 => .arg0
  | 7 => .arg1
  | 8 => .arg2
  | 9 => .result0
  | 10 => .result1
  | 11 => .root
  | _ => .reserved

/-- The frequency windows at 0x100 to 0x7FF (10_state.md R46). -/
def freqReg (a : Nat) : HostReg :=
  if a < 0x120 then .freqPresent (Fin.ofNat 8 ((a - 0x100) / 4))
  else if a < 0x400 then .reserved
  else .freqCount (Fin.ofNat 256 ((a - 0x400) / 4))

/-- The arena window at 0x800 to 0xFFF (10_state.md R51). -/
def nodeReg (a : Nat) : HostReg :=
  if a < 0xFF8 then
    if (a - 0x800) % 8 = 0 then .nodeChild (slotOf ((a - 0x800) / 8)) else .nodeNum (slotOf ((a - 0x800) / 8))
  else .reserved

/-- The code windows at 0x1000 to 0x3FFF (10_state.md R61). -/
def codeReg (a : Nat) : HostReg :=
  if a < 0x1400 then .codeMeta (Fin.ofNat 256 ((a - 0x1000) / 4))
  else if a < 0x2000 then .reserved
  else .codeBits (Fin.ofNat 256 ((a - 0x2000) / 32)) (Fin.ofNat 8 ((a - 0x2000) % 32 / 4))

/-- The buffer windows, each as long as its buffer (10_state.md R65, R66). -/
def bufferReg (p : Params) (a : Nat) : HostReg :=
  if a < 0x1000000 then .reserved
  else if a < 0x2000000 then
    if a - 0x1000000 < p.inBytes then .inWord (a - 0x1000000) else .reserved
  else if a - 0x2000000 < p.outBytes then .outWord (a - 0x2000000)
  else .reserved

/-- The address map (R81) at a multiple of 4. -/
def regAt (p : Params) (a : Nat) : HostReg :=
  if a < 0x100 then controlReg (a / 4)
  else if a < 0x800 then freqReg a
  else if a < 0x1000 then nodeReg a
  else if a < 0x4000 then codeReg a
  else bufferReg p a

/-- What an offset names (R81, R82). -/
def regOf (p : Params) (off : Offset) : HostReg := regAt p (wordOffset off)

/-! ### Reads -/

/-- The word whose bit `b` is `f b`, for b in [0, 31]. -/
def wordOfBits (f : Nat → Bool) : Word :=
  BitVec.ofNat 32 ((List.range 32).foldl (fun acc b => acc + (f b).toNat * 2 ^ b) 0)

/-- FREQ_PRESENT[j] (10_state.md R46): bit b is FREQ.present[32j + b]. -/
def freqPresentWord (freq : FreqTable) (j : Fin 8) : Word :=
  wordOfBits fun b => (freq.toList[32 * j.val + b]?.map FreqEntry.present).getD false

/-- NODE_CHILD[i] (R51). -/
def nodeChildWord (n : Node) : Word := Ref.toWord n.left ||| Ref.toWord n.right <<< 16

/-- NODE_NUM[i] (R51). -/
def nodeNumWord (n : Node) : Word :=
  match n.num with
  | none => 0
  | some k => flagAt true 31 ||| BitVec.ofNat 32 k.val

/-- CODE_META[s] (R61): an invalid entry reads 0. -/
def codeMetaWord (c : Option BitStr) : Word :=
  match c with
  | none => 0
  | some bits => flagAt true 31 ||| byteAt (BitVec.ofNat 8 bits.length) 0

/-- CODE_BITS[s][j] (R61): code bit t is bit 31 - (t mod 32) of word t div 32. -/
def codeBitsWord (c : Option BitStr) (j : Fin 8) : Word :=
  wordOfBits fun b => (c.getD []).getD (32 * j.val + (31 - b)) false

/-- An IN byte as the host reads it: the byte last written, or any value if none was written since reset (10_state.md R67,
92_eei_decisions.md D36; log 6, log 7). -/
def State.hostInByte (s : State) (a : Nat) : Byte :=
  (s.inBuf.read a).getD (Config.unwrittenIn s.garbage a (s.inAtReset.read a))

/-- An OUT byte as the host reads it: the same rule. -/
def State.hostOutByte (s : State) (a : Nat) : Byte :=
  (s.outBuf.read a).getD (Config.unwrittenOut s.garbage a (s.outAtReset.read a))

/-- The host word of four consecutive bytes, little-endian (20_memory.md R87). -/
def laneWord (f : Nat → Byte) (a : Nat) : Word := f (a + 3) ++ f (a + 2) ++ f (a + 1) ++ f a

/-- What a register or window holds, as a host read returns it while BUSY = 0. -/
def State.regValue (s : State) : HostReg → Word
  | .id => idWord
  | .version => versionWord
  | .cfgInBytes => toWord s.params.inBytes
  | .cfgOutBytes => toWord s.params.outBytes
  | .cmd => 0
  | .status => s.statusWord
  | .arg0 => s.arg0
  | .arg1 => s.arg1
  | .arg2 => s.arg2
  | .result0 => s.result0
  | .result1 => s.result1
  | .root => s.rootWord
  | .freqPresent j => freqPresentWord s.freq j
  | .freqCount i => s.freq[i].count
  | .nodeChild i => nodeChildWord s.nodes[i]
  | .nodeNum i => nodeNumWord s.nodes[i]
  | .codeMeta i => codeMetaWord s.code[i]
  | .codeBits i j => codeBitsWord s.code[i] j
  | .inWord a => laneWord s.hostInByte a
  | .outWord a => laneWord s.hostOutByte a
  | .reserved => 0

/-- The registers that stay readable while BUSY = 1 (20_memory.md R84). -/
def HostReg.busyReadable : HostReg → Bool
  | .id | .version | .cfgInBytes | .cfgOutBytes | .status => true
  | _ => false

/-- A host read (R82 to R84): it changes nothing, and while BUSY = 1 all but five registers read 0. -/
def State.hostRead (off : Offset) (s : State) : Word :=
  let r := regOf s.params off
  if s.busy && !r.busyReadable then 0 else s.regValue r

/-! ### Writes -/

/-- A write of FREQ_PRESENT[j] (10_state.md R46). -/
def writePresent (freq : FreqTable) (j : Fin 8) (v : Word) : FreqTable :=
  tabulate fun i => if i.val / 32 = j.val then { freq[i] with present := v.getLsbD (i.val % 32) } else freq[i]

/-- A write of FREQ_COUNT[s] (R46). -/
def writeCount (freq : FreqTable) (i : Fin 256) (v : Word) : FreqTable := freq.set i { freq[i] with count := v }

/-- A host write of an IN word. -/
def State.writeInWord (a : Nat) (v : Word) (s : State) : State := { s with inBuf := s.inBuf.writeBytes a (wordBytes v) }

/-- A host write of an OUT word. -/
def State.writeOutWord (a : Nat) (v : Word) (s : State) : State := { s with outBuf := s.outBuf.writeBytes a (wordBytes v) }

/-- What a host write does while BUSY = 0: CMD accepts a command (40_control.md R150), the RW registers and windows store, all
else ignores the write (20_memory.md R83). -/
def State.regWrite (s : State) (v : Word) : HostReg → State
  | .cmd => s.accept v
  | .arg0 => { s with arg0 := v }
  | .arg1 => { s with arg1 := v }
  | .arg2 => { s with arg2 := v }
  | .freqPresent j => { s with freq := writePresent s.freq j v }
  | .freqCount i => { s with freq := writeCount s.freq i v }
  | .inWord a => s.writeInWord a v
  | .outWord a => s.writeOutWord a v
  | .id | .version | .cfgInBytes | .cfgOutBytes | .status | .result0 | .result1 | .root | .nodeChild _ | .nodeNum _
  | .codeMeta _ | .codeBits _ _ | .reserved => s

/-- A host write (R82, R83, R85). -/
def State.hostWrite (off : Offset) (v : Word) (s : State) : State :=
  if s.busy then s.ignoreWrite else s.regWrite v (regOf s.params off)

end Sys2Proof.Machine
end

