-- ==== Sys2Proof/Machine/HostPort.lean ====
section
/-! DEFINITION. Reset, loss of power and the INIT sequence (70_reset_and_hazards.md R340 to R344, 60_exceptions.md R318), and one
operation of the host or the platform (40_control.md R157). -/

namespace Sys2Proof.Machine

/-- Reset is asserted (R340, R343): INIT from whatever phase, an executing command abandoned with nothing written. WR_IGNORED
starts again (10_state.md R36). IN and OUT keep their bytes (R341), but none of them counts as written since reset any more
(10_state.md R67; log 7, log 10). An assertion while reset is already asserted does the same again (log 14). -/
def State.enterReset (s : State) : State :=
  { s with
    phase := .init .held
    status := { s.status with wrIgnored := false }
    inBuf := []
    inAtReset := s.inBuf.over s.inAtReset
    outBuf := []
    outAtReset := s.outBuf.over s.outAtReset
    garbage := s.garbage + 1 }

/-- Power is removed and comes back (60_exceptions.md R318): all state is lost, and a reset follows, asserted at power-up (R340).
What STATUS then shows before the INIT sequence is the model's choice (log 19); the last six fields are the model's own and go
on. -/
def State.powerCycle (s : State) : State :=
  { State.resetOf s.params with
    phase := .init .held
    busyLeft := s.busyLeft
    schedule := s.schedule
    draws := s.draws
    garbage := s.garbage + 1
    host := s.host
    reads := s.reads }

/-- Reset is released (R341): the INIT sequence runs after a free time. No effect while reset is not asserted. -/
def State.leaveReset (s : State) : State :=
  if s.phase = .init .held then { s with phase := .init .pending }.drawBusy else s

/-- The INIT sequence (R341): every piece of state takes its reset value but IN, OUT and WR_IGNORED. -/
def State.initSequence (s : State) : State :=
  { s with
    status := { Status.reset with wrIgnored := s.status.wrIgnored }
    arg0 := 0
    arg1 := 0
    arg2 := 0
    result0 := 0
    result1 := 0
    freq := Vector.replicate 256 { present := false, count := 0 }
    nodes := Vector.replicate 255 .cleared
    root := .leaf 0
    code := Vector.replicate 256 none
    phase := .init .set
    latch := { word := 0, arg0 := 0, arg1 := 0, arg2 := 0 } }

/-- INIT ends (R341, R344). -/
def State.endInit (s : State) : State := { s with phase := .idle }

/-- The word the host read last, 0 if it has read none (log 12). -/
def State.lastRead (s : State) : Word :=
  match s.reads with
  | [] => 0
  | r :: _ => r.val

/-- A host read that the host keeps: the word joins the observation of the run (00_scope.md R23). -/
def State.recordRead (off : Offset) (s : State) : State :=
  { s with reads := { off := off, val := s.hostRead off } :: s.reads }

/-- The effect of one operation. `WAIT` reads STATUS once, at 0x014 (30_encoding.md R135). -/
def State.doHostOp (s : State) : HostOp → State
  | .wr off v => s.hostWrite off v
  | .rd off => s.recordRead off
  | .wrOr off m => s.hostWrite off (s.lastRead ||| m)
  | .wait => s.recordRead 0x014
  | .assertReset => s.enterReset
  | .releaseReset => s.leaveReset
  | .powerCycle => s.powerCycle

/-- The host and the platform take their next operation; a `WAIT` that reads BUSY = 1 stays and polls again (R135). With no
operation left nothing happens (log 16). -/
def State.hostStep (s : State) : State :=
  match s.host with
  | [] => s
  | op :: rest => if op = .wait ∧ s.busy = true then s.doHostOp .wait else { s with host := rest }.doHostOp op

end Sys2Proof.Machine
end

