-- ==== Sys2Proof/Machine/Step.lean ====
section
/-! DEFINITION. One step of the machine: either the next operation of the host or the platform, or the engine's next event (INIT
sequence, end of INIT, completion of a command; 40_control.md R150 to R152, 70_reset_and_hazards.md R341). -/

namespace Sys2Proof.Machine

/-- The latched word runs: the command it decodes to, or ILLEGAL (30_encoding.md R121, R122). -/
def runLatched (s : State) : Host.Outcome State Fault Refusal :=
  match decode s.latch.word with
  | .ok i => exec i s
  | .error _ => execIllegal s

/-- A host operation lands while the engine is busy: one fewer is left before the engine's event (log 3). -/
def State.busyTick (s : State) : State := { s with busyLeft := s.busyLeft - 1 }.hostStep

def step (s : State) : Host.Outcome State Fault Refusal :=
  match s.phase with
  | .idle => .next s.hostStep
  | .init .held => .next s.hostStep
  | .init .pending => if s.busyLeft = 0 then .next s.initSequence.drawBusy else .next s.busyTick
  | .init .set => if s.busyLeft = 0 then .next s.endInit else .next s.busyTick
  | .exec => if s.busyLeft = 0 then runLatched s else .next s.busyTick

/-- The state in which a command word has just been accepted and its completion is the very next step (log 15). -/
def State.withFetchWord (s : State) (nbits w : Nat) : State :=
  { s.latchCommand (tableWord nbits w) with busyLeft := 0 }

end Sys2Proof.Machine
end

