-- ==== Sys2Proof/WellFormed.lean ====
section
/-! DEFINITION. Which terms the spec admits: command words, instances and host-program lines. A constructor of `Instr` carries
no field, so every one of them is well formed; the checks with something to refuse are those on words, parameters and macros. -/

namespace Sys2Proof

/-- Every command is well formed: it has no operand field that could be out of range (30_encoding.md R120, R126). -/
def Instr.wellFormed : Instr → Bool
  | .nop | .build | .number | .genCodes | .serialize | .deserGeneral | .deserPostorder | .pack | .unpack => true

/-- A word selects a command iff its bits 31:8 are 0 and its opcode is at most 0x08 (30_encoding.md R121, R122). -/
def commandWordWellFormed (w : Word) : Bool :=
  w.extractLsb' 8 24 = 0 ∧ (w.extractLsb' 0 8).toNat ≤ 8

/-- A buffer size is a multiple of 4 in [4, 2^24] (00_scope.md R12). -/
def bufferSizeWellFormed (n : Nat) : Bool :=
  n % 4 = 0 ∧ 4 ≤ n ∧ n ≤ 2 ^ 24

/-- An instance's buffer sizes are both legal; every `Select` conforms to R172 by construction. -/
def Params.wellFormed (p : Params) : Bool :=
  bufferSizeWellFormed p.inBytes && bufferSizeWellFormed p.outBytes

/-- `INB` starts at a multiple of 4 (30_encoding.md R138), and both buffer macros stay in their 16 MiB windows. -/
def Machine.HostMacro.wellFormed : Machine.HostMacro → Bool
  | .inb off bytes => off % 4 = 0 ∧ off + bytes.length ≤ 2 ^ 24
  | .outb off n => off + n ≤ 2 ^ 24
  | _ => true

end Sys2Proof
end

