-- ==== Sys2Proof/Safety.lean ====
section
/-! DEFINITION. The invariants of the machine (10_state.md R54, R55, R62 and the canonical form of the buffers), and the terms
the statements are written in. -/

namespace Sys2Proof.Machine

/-! ### Invariants -/

/-- Every byte listed lies in a buffer of the given size. -/
def Memory.Within (m : Memory) (size : Nat) : Prop := ∀ c ∈ m, c.1 < size

/-- The instance is legal, and the buffers, with what they held at the latest reset, are canonical and in range. -/
structure State.BuffersOk (s : State) : Prop where
  params : s.params.wellFormed = true
  inWf : s.inBuf.wf = true
  inAtResetWf : s.inAtReset.wf = true
  outWf : s.outBuf.wf = true
  outAtResetWf : s.outAtReset.wf = true
  inWithin : s.inBuf.Within s.params.inBytes
  inAtResetWithin : s.inAtReset.Within s.params.inBytes
  outWithin : s.outBuf.Within s.params.outBytes
  outAtResetWithin : s.outAtReset.Within s.params.outBytes

/-- 10_state.md R54: while TREE_VALID = 1 the references from ROOT form a strict binary tree, no slot reached twice. -/
def State.TreeOk (s : State) : Prop :=
  s.status.treeValid = true → ∃ t, s.tree = some t ∧ t.postorder.Nodup

/-- 10_state.md R55: while NUMBERED = 1 the reachable slots carry 0 to k - 1 in postorder and every other slot None; while
NUMBERED = 0 every slot carries None. -/
def State.NumbersOk (s : State) : Prop :=
  (s.status.numbered = false → ∀ i : Fin 255, s.nodes[i].num = none) ∧
  (s.status.numbered = true → s.status.treeValid = true ∧
    ∃ t, s.tree = some t ∧ ∀ i : Fin 255, s.nodes[i].num = (t.postorder.idxOf? i).map slotOf)

/-- 10_state.md R62: while CODES_VALID = 1 CODE is the table of the current tree; while CODES_VALID = 0 no entry is valid. -/
def State.CodesOk (s : State) : Prop :=
  (s.status.codesValid = false → ∀ i : Fin 256, s.code[i] = none) ∧
  (s.status.codesValid = true → s.status.treeValid = true ∧
    ∃ t, s.tree = some t ∧ ∀ i : Fin 256, s.code[i] = t.codeOf (symbolOf i))

/-- ERR = 1 iff ERRCODE is not NONE (60_exceptions.md R300, R302), and while a command executes DONE = ERR = 0 and LAST_OP is the
latched word's low byte (40_control.md R150). -/
def State.StatusOk (s : State) : Prop :=
  (s.status.err = true ↔ s.status.errCode ≠ .none) ∧
  (s.phase = .exec → s.status.done = false ∧ s.status.err = false ∧ s.status.lastOp = s.latch.word.extractLsb' 0 8)

/-- All of them. -/
structure State.Inv (s : State) : Prop where
  buffers : s.BuffersOk
  tree : s.TreeOk
  numbers : s.NumbersOk
  codes : s.CodesOk
  status : s.StatusOk

/-- Every IN byte has been written since reset: then no engine read faults (92_eei_decisions.md D36). -/
def State.InWritten (s : State) : Prop := ∀ a, a < s.params.inBytes → s.inBuf.read a ≠ none

/-! ### Terms of the statements -/

/-- It is the host's turn: the engine is idle, held in reset, or busy with host operations still to land before its event. -/
def State.HostTurn (s : State) : Prop := s.phase = .idle ∨ s.phase = .init .held ∨ 0 < s.busyLeft

/-- The state after a completion with error `c` (40_control.md R152, 60_exceptions.md R303). -/
def State.failedWith (c : ErrCode) (s : State) : State :=
  { s with
    result0 := 0, result1 := 0, phase := .idle
    status := { s.status with done := true, err := true, errCode := c } }

/-- A byte list stands in a buffer from an offset on. -/
def Memory.Holds (m : Memory) (a : Nat) (bs : List Byte) : Prop :=
  ∀ j, j < bs.length → m.read (a + j) = bs[j]?

/-- A buffer after a store: the bytes stored read as stored, every other byte as before. -/
def Memory.StoredAt (before after : Memory) (a : Nat) (bs : List Byte) : Prop :=
  ∀ x, after.read x = if a ≤ x ∧ x < a + bs.length then bs[x - a]? else before.read x

/-- A bit string stands in a buffer from byte `base` on, most significant bit first (20_memory.md R94). -/
def Memory.HoldsBits (m : Memory) (base : Nat) (bits : BitStr) : Prop :=
  ∀ t, t < bits.length → ∃ b : Byte, m.read (base + t / 8) = some b ∧ some (b.getLsbD (7 - t % 8)) = bits[t]?

/-- The present symbols, in rising order (10_state.md R45). -/
def presentSymbols (freq : FreqTable) : List Byte :=
  ((List.finRange 256).filter fun i => freq[i].present).map symbolOf

/-- The leaf symbols of an abstract tree, left to right. -/
def AbsTree.leaves : AbsTree → List Byte
  | .leaf s => [s]
  | .node l r => l.leaves ++ r.leaves

/-- FREQ.count of a symbol. -/
def countOf (freq : FreqTable) (s : Byte) : Nat := (freq[s.toNat]'s.isLt).count.toNat

/-- The weighted path length of a tree whose root stands at a given depth (41_tree_builder.md R179). -/
def AbsTree.pathLength (freq : FreqTable) : AbsTree → (depth : Nat) → Nat
  | .leaf s, d => d * countOf freq s
  | .node l r, d => l.pathLength freq (d + 1) + r.pathLength freq (d + 1)

/-- The bytes of a list of records stand in a buffer from an offset on, as far as a deserializer reads them: with `index` false the
place of the data byte of a `type=1` field may hold anything, or nothing (44_tree_serdes.md R251). -/
def Memory.HoldsRecords (m : Memory) (index : Bool) (a : Nat) (recs : List NodeRec) : Prop :=
  ∀ (j : Nat) (r : NodeRec), recs[j]? = some r →
    m.read (a + 4 * j) = some r.lType ∧ (index = true ∨ r.lType ≠ 1 → m.read (a + 4 * j + 1) = some r.lData) ∧
    m.read (a + 4 * j + 2) = some r.rType ∧ (index = true ∨ r.rType ≠ 1 → m.read (a + 4 * j + 3) = some r.rData)

/-- The operands and IN bytes of a deserializer are in order (44_tree_serdes.md R240 to R242): the bytes at src are the header
of `recs`, within the `len` bytes given, with legal type bytes, and root_index is a position of the list. `index` is true for
DESER_GENERAL and false for DESER_POSTORDER. -/
structure State.HeaderReady (s : State) (index : Bool) (recs : List NodeRec) : Prop where
  range : s.opArg0 + s.opArg1 ≤ s.params.inBytes
  fits : 1 + 4 * recs.length ≤ s.opArg1
  least : 1 ≤ recs.length
  most : recs.length ≤ 255
  count : s.inBuf.read s.opArg0 = some (BitVec.ofNat 8 recs.length)
  bytes : s.inBuf.HoldsRecords index (s.opArg0 + 1) recs
  types : ∀ r ∈ recs, (r.lType = 0 ∨ r.lType = 1) ∧ (r.rType = 0 ∨ r.rType = 1)
  root : s.opArg2 < recs.length

/-- How many children of a record are internal. -/
def NodeRec.internals (r : NodeRec) : Nat := (if r.lType = 1 then 1 else 0) + (if r.rType = 1 then 1 else 0)

/-- Record `j` finds its internal children on the postorder stack (44_tree_serdes.md R252): each record before it has pushed one
subtree and popped its internal children. -/
def StackSuffices (recs : List NodeRec) (j : Nat) : Prop :=
  ((recs.take (j + 1)).map NodeRec.internals).sum ≤ j

/-- The postorder stack, top first, before record `j` is built (44_tree_serdes.md R250, R252): each record before it has popped
its internal children and pushed its own position. -/
def postorderStack (recs : List NodeRec) : (j : Nat) → List Nat
  | 0 => []
  | j + 1 => j :: (postorderStack recs j).drop ((recs[j]?.map NodeRec.internals).getD 0)

/-- The offsets of 20_memory.md R81 that are reserved. -/
def ReservedOffset (p : Params) (a : Nat) : Prop :=
  (0x030 ≤ a ∧ a < 0x100) ∨ (0x120 ≤ a ∧ a < 0x400) ∨ (0xFF8 ≤ a ∧ a < 0x1000) ∨ (0x1400 ≤ a ∧ a < 0x2000) ∨
  (0x4000 ≤ a ∧ a < 0x1000000) ∨ (0x1000000 + p.inBytes ≤ a ∧ a < 0x2000000) ∨
  (0x2000000 + p.outBytes ≤ a ∧ a < 0x4000000)

/-- The offsets of 20_memory.md R81 that are read-only: ID, VERSION, CFG_IN_BYTES, CFG_OUT_BYTES, STATUS, RESULT0, RESULT1, ROOT
and the arena and code windows. -/
def ReadOnlyOffset (a : Nat) : Prop :=
  a < 0x010 ∨ (0x014 ≤ a ∧ a < 0x018) ∨ (0x024 ≤ a ∧ a < 0x030) ∨ (0x800 ≤ a ∧ a < 0xFF8) ∨ (0x1000 ≤ a ∧ a < 0x1400) ∨
  (0x2000 ≤ a ∧ a < 0x4000)

end Sys2Proof.Machine
end

