-- ==== Sys2Proof/Certificates/Slice0/Obligations.lean ====
section
/-! DEFINITION. The statements about HUFFCORE, file by file of spec/. A statement about every state holds in states no run
reaches; where it needs the tree, numbering or code table invariant, that invariant is a premise and is stated by itself at the
end. -/

open Sys2Proof Sys2Proof.Machine

/-! ### Encoding -/

/-- 30_encoding.md R121: a command word selects a command iff its bits 31:8 are 0 and its low byte is in the opcode map. -/
def Obligations.WordSelectsCommandIffInOpcodeMap : Prop :=
  ∀ (w : Word) (i : Instr), decode w = .ok i ↔
    w.extractLsb' 8 24 = 0 ∧
    (w.extractLsb' 0 8, i) ∈
      ([(0x00, .nop), (0x01, .build), (0x02, .number), (0x03, .genCodes), (0x04, .serialize), (0x05, .deserGeneral),
        (0x06, .deserPostorder), (0x07, .pack), (0x08, .unpack)] : List (Byte × Instr))

/-- 30_encoding.md section 1: every command's word decodes to it, and no other word does. -/
def Obligations.EncodeInvertsDecode : Prop :=
  ∀ (w : Word) (i : Instr), i.wellFormed = true → (decode w = .ok i ↔ w = encode i)

/-- 95_test_vectors.md V68 to V70, and the opcode map's first and last rows: a few words and what they are. -/
def Obligations.SampleWordsDecode : Prop :=
  decode 0x00000000 = .ok .nop ∧ decode 0x00000001 = .ok .build ∧ decode 0x00000008 = .ok .unpack ∧
  decode 0x00000101 = .error .reservedBits ∧ decode 0x00000009 = .error .reservedOpcode ∧
  decode 0x000000FF = .error .reservedOpcode

/-! ### The step and the lifecycle of a command -/

/-- 40_control.md R151: when an executing command's time is up, a step runs the instruction the latched word decodes to. -/
def Obligations.StepRunsLatchedInstruction : Prop :=
  ∀ (s : State) (i : Instr), s.phase = .exec → s.busyLeft = 0 → decode s.latch.word = .ok i → step s = exec i s

/-- 40_control.md R150: a CMD write while IDLE is accepted, with these effects and no others (the last three fields are the
model's free time, log 3); a CMD write while INIT or EXEC is not. -/
def Obligations.CommandWriteIsAcceptedWhenIdle : Prop :=
  ∀ (s : State) (off : Offset) (w : Word) (rest : List HostOp),
    s.host = .wr off w :: rest → off.toNat / 4 = 0x010 / 4 →
    (s.phase = .idle → ∃ b sch d, step s = .next { s with
      host := rest
      latch := { word := w, arg0 := s.arg0, arg1 := s.arg1, arg2 := s.arg2 }
      phase := .exec
      status := { s.status with
        done := false, err := false, wrIgnored := false, errCode := .none, lastOp := w.extractLsb' 0 8 }
      busyLeft := b, schedule := sch, draws := d }) ∧
    (s.phase ≠ .idle → s.HostTurn → ∃ t, step s = .next t ∧ t.phase = s.phase ∧ t.latch = s.latch ∧
      t.status = { s.status with wrIgnored := true })

/-- 40_control.md R156: an accepted word outside the opcode map completes with ILLEGAL: DONE, ERR, ERRCODE 0x01, LAST_OP = w[7:0],
RESULT0 = RESULT1 = 0, nothing else. -/
def Obligations.IllegalWordCompletesWithIllegal : Prop :=
  ∀ (s : State) (w : Word), (w.extractLsb' 8 24 ≠ 0 ∨ 9 ≤ (w.extractLsb' 0 8).toNat) →
    step { s.latchCommand w with busyLeft := 0 } = .next { s with
      latch := { word := w, arg0 := s.arg0, arg1 := s.arg1, arg2 := s.arg2 }
      busyLeft := 0, result0 := 0, result1 := 0, phase := .idle
      status := { s.status with
        done := true, err := true, wrIgnored := false, errCode := .illegal, lastOp := w.extractLsb' 0 8 } }

/-- The frame of every command, from 40_control.md R152, 20_memory.md R88, 10_state.md R38 and R47: whatever a completed command
computed, the phase is IDLE, DONE = 1, LAST_OP and WR_IGNORED keep their values, and the parameters, the ARG registers, FREQ, IN and
what the buffers held at the latest reset (log 7) are unchanged. That the latch keeps its values too is the model's choice (log 9);
`busyLeft`, `schedule` and `draws` (log 3), `garbage` (log 6), `host` and `reads` (log 12) are the model's own fields. -/
def Obligations.CompletionFrame : Prop :=
  ∀ (i : Instr) (s t : State), exec i s = .next t →
    t.phase = .idle ∧ t.status.done = true ∧ t.status.lastOp = s.status.lastOp ∧ t.status.wrIgnored = s.status.wrIgnored ∧
    t.params = s.params ∧ t.arg0 = s.arg0 ∧ t.arg1 = s.arg1 ∧ t.arg2 = s.arg2 ∧ t.freq = s.freq ∧ t.inBuf = s.inBuf ∧
    t.inAtReset = s.inAtReset ∧ t.outAtReset = s.outAtReset ∧ t.latch = s.latch ∧ t.busyLeft = s.busyLeft ∧
    t.schedule = s.schedule ∧ t.draws = s.draws ∧ t.garbage = s.garbage ∧ t.host = s.host ∧ t.reads = s.reads

/-- 60_exceptions.md R303: a command that completes with ERR = 1 has changed nothing but ERR, ERRCODE, DONE, BUSY and the RESULT
registers, both 0; one that completes with ERR = 0 reports ERRCODE 0. -/
def Obligations.FailingCommandChangesNothingElse : Prop :=
  ∀ (i : Instr) (s t : State), exec i s = .next t →
    (t.status.err = true → ∃ c, c ≠ .none ∧ t = s.failedWith c) ∧ (t.status.err = false → t.status.errCode = .none)

/-- 60_exceptions.md R304: issuing the same command again on the state a failure left raises the same code. -/
def Obligations.RetryRaisesSameCode : Prop :=
  ∀ (i : Instr) (s t : State), exec i s = .next t → t.status.err = true → exec i t = .next t

/-- The frame over the tree, the codes and OUT: which commands leave them alone (40_control.md R155, 41_tree_builder.md R174,
42_code_table.md R193, 43_tree_numberer.md R212, 44_tree_serdes.md R235, R245, R252, 45_stream_packer.md R275, R285; for OUT
10_state.md R66 names the commands that write it, and 20_memory.md R88 the accesses to the buffers). -/
def Obligations.TreeCodeAndOutFrame : Prop :=
  ∀ (i : Instr) (s t : State), exec i s = .next t →
    (i ∈ [.nop, .serialize, .pack, .unpack] →
      t.nodes = s.nodes ∧ t.root = s.root ∧ t.code = s.code ∧ t.status.treeValid = s.status.treeValid ∧
      t.status.numbered = s.status.numbered ∧ t.status.codesValid = s.status.codesValid) ∧
    (i = .number → t.root = s.root ∧ t.code = s.code ∧ t.status.treeValid = s.status.treeValid ∧
      t.status.codesValid = s.status.codesValid ∧
      ∀ j : Fin 255, t.nodes[j].left = s.nodes[j].left ∧ t.nodes[j].right = s.nodes[j].right) ∧
    (i = .genCodes → t.nodes = s.nodes ∧ t.root = s.root ∧ t.status.treeValid = s.status.treeValid ∧
      t.status.numbered = s.status.numbered) ∧
    (i ∈ [.nop, .build, .number, .genCodes, .deserGeneral, .deserPostorder] → ∀ a, t.outBuf.read a = s.outBuf.read a)

/-! ### Busy, host accesses, reset -/

/-- 20_memory.md R85: a host write while BUSY = 1 only sets WR_IGNORED (`busyLeft` is the model's free time, log 3). -/
def Obligations.BusyWriteOnlySetsWrIgnored : Prop :=
  ∀ (s : State) (off : Offset) (v : Word) (rest : List HostOp),
    s.phase ≠ .idle → s.HostTurn → s.host = .wr off v :: rest ∨ s.host = .wrOr off v :: rest →
    ∃ b, step s = .next { s with host := rest, busyLeft := b, status := { s.status with wrIgnored := true } }

/-- 20_memory.md R84: a host read while BUSY = 1 returns the value of ID, VERSION, CFG_IN_BYTES, CFG_OUT_BYTES or STATUS, and 0 at
any other offset; it changes nothing. 30_encoding.md R135 with 00_scope.md R23: a WAIT that finds BUSY = 1 reads STATUS once, at 0x014,
and stays to poll again (the host's lists are log 12, `busyLeft` is the model's free time, log 3). -/
def Obligations.BusyReadIsMasked : Prop :=
  ∀ (s : State) (off : Offset) (rest : List HostOp), s.phase ≠ .idle → s.HostTurn →
    (s.host = .wait :: rest →
      ∃ b, step s = .next { s with busyLeft := b, reads := { off := 0x014, val := s.statusWord } :: s.reads }) ∧
    (s.host = .rd off :: rest → ∃ b v, step s = .next { s with host := rest, busyLeft := b, reads := { off := off, val := v } :: s.reads } ∧
      (off.toNat / 4 = 0 → v = 0x48554646) ∧ (off.toNat / 4 = 1 → v = 0x00000001) ∧
      (off.toNat / 4 = 2 → v = BitVec.ofNat 32 s.params.inBytes) ∧
      (off.toNat / 4 = 3 → v = BitVec.ofNat 32 s.params.outBytes) ∧
      (off.toNat / 4 = 5 → v = s.statusWord) ∧
      (off.toNat / 4 ≠ 0 → off.toNat / 4 ≠ 1 → off.toNat / 4 ≠ 2 → off.toNat / 4 ≠ 3 → off.toNat / 4 ≠ 5 → v = 0))

/-- 20_memory.md R82: address bits [1:0] of a host access are ignored. -/
def Obligations.AddressLowBitsAreIgnored : Prop :=
  ∀ (s : State) (off off' : Offset) (v : Word), off.toNat / 4 = off'.toNat / 4 →
    s.hostRead off = s.hostRead off' ∧ s.hostWrite off v = s.hostWrite off' v

/-- 40_control.md R157 while IDLE, with 20_memory.md R81 and R83. A host read changes nothing but the list of words read, to which it
adds the word `State.hostRead` gives, 0 at a reserved offset; WAIT reads STATUS and ends. A host write, one that depends on the word
read last included (`lastRead`, log 12), does what `State.hostWrite` says, which at a reserved or read-only offset is nothing. -/
def Obligations.ReservedAndReadOnlyOffsets : Prop :=
  ∀ (s : State) (off : Offset) (v : Word) (rest : List HostOp), s.phase = .idle → s.params.wellFormed = true →
    (s.host = .rd off :: rest →
      step s = .next { s with host := rest, reads := { off := off, val := s.hostRead off } :: s.reads }) ∧
    (ReservedOffset s.params off.toNat → s.hostRead off = 0) ∧
    (s.host = .wait :: rest →
      step s = .next { s with host := rest, reads := { off := 0x014, val := s.statusWord } :: s.reads }) ∧
    (s.host = .wr off v :: rest → step s = .next (State.hostWrite off v { s with host := rest })) ∧
    (s.host = .wrOr off v :: rest → step s = .next (State.hostWrite off (s.lastRead ||| v) { s with host := rest })) ∧
    (ReservedOffset s.params off.toNat ∨ ReadOnlyOffset off.toNat → s.hostWrite off v = s ∧
      (s.host = .wr off v :: rest ∨ s.host = .wrOr off v :: rest → step s = .next { s with host := rest }))

/-- The control registers while IDLE. 10_state.md R38: ARG0, ARG1 and ARG2 read back what was last written, all 32 bits, each by
itself. R39: 0x024 and 0x028 read RESULT0 and RESULT1. R35: CMD reads 0. R32 to R34: ID, VERSION, CFG_IN_BYTES, CFG_OUT_BYTES. -/
def Obligations.ArgRegistersReadBack : Prop :=
  ∀ (s : State) (v : Word), s.phase = .idle →
    (s.hostWrite 0x018 v = { s with arg0 := v } ∧ (s.hostWrite 0x018 v).hostRead 0x018 = v) ∧
    (s.hostWrite 0x01C v = { s with arg1 := v } ∧ (s.hostWrite 0x01C v).hostRead 0x01C = v) ∧
    (s.hostWrite 0x020 v = { s with arg2 := v } ∧ (s.hostWrite 0x020 v).hostRead 0x020 = v) ∧
    s.hostRead 0x024 = s.result0 ∧ s.hostRead 0x028 = s.result1 ∧ s.hostRead 0x010 = 0 ∧
    s.hostRead 0x000 = 0x48554646 ∧ s.hostRead 0x004 = 0x00000001 ∧
    s.hostRead 0x008 = BitVec.ofNat 32 s.params.inBytes ∧ s.hostRead 0x00C = BitVec.ofNat 32 s.params.outBytes

/-- 10_state.md R46: the FREQ windows. Word j of FREQ_PRESENT holds present bits 32j to 32j + 31, FREQ_COUNT[s] the count; a write
changes those and nothing else, and a read returns them. -/
def Obligations.FreqWindowsReadAndWrite : Prop :=
  ∀ (s : State) (v : Word), s.phase = .idle →
    (∀ j : Fin 8, ∃ f : FreqTable, s.hostWrite (BitVec.ofNat 26 (0x100 + 4 * j.val)) v = { s with freq := f } ∧
      (∀ i : Fin 256, f[i].count = s.freq[i].count ∧
        f[i].present = if i.val / 32 = j.val then v.getLsbD (i.val % 32) else s.freq[i].present) ∧
      ∀ i : Fin 256, i.val / 32 = j.val →
        (s.hostRead (BitVec.ofNat 26 (0x100 + 4 * j.val))).getLsbD (i.val % 32) = s.freq[i].present) ∧
    (∀ i : Fin 256, ∃ f : FreqTable, s.hostWrite (BitVec.ofNat 26 (0x400 + 4 * i.val)) v = { s with freq := f } ∧
      (∀ k : Fin 256, f[k].present = s.freq[k].present ∧ f[k].count = if k = i then v else s.freq[k].count) ∧
      s.hostRead (BitVec.ofNat 26 (0x400 + 4 * i.val)) = s.freq[i].count)

/-- 20_memory.md R87 with R83 and 10_state.md R67: the byte lanes of the IN and OUT windows are little-endian. A write of word k
stores its four bytes at 4k to 4k + 3; no other byte of the buffers changes, and none reads otherwise to the host; a read returns the
four bytes, as the host sees each (the byte written, or a free value where none was written since reset), in the same lanes. That a
byte never written since reset reads the same before and after the write is the model's choice (log 6): R67 and 92_eei_decisions.md
D36 leave what it reads open. -/
def Obligations.BufferWindowsAreLittleEndian : Prop :=
  ∀ (s : State) (k : Nat) (v : Word), s.phase = .idle → s.params.wellFormed = true →
    let lanes : List Byte := [v.extractLsb' 0 8, v.extractLsb' 8 8, v.extractLsb' 16 8, v.extractLsb' 24 8]
    (4 * k < s.params.inBytes → let off := BitVec.ofNat 26 (0x1000000 + 4 * k)
      (∃ m, s.hostWrite off v = { s with inBuf := m } ∧ s.inBuf.StoredAt m (4 * k) lanes) ∧
      (∀ x, (s.hostWrite off v).hostInByte x =
        if 4 * k ≤ x ∧ x < 4 * k + 4 then lanes.getD (x - 4 * k) 0 else s.hostInByte x) ∧
      (∀ j, j < 4 → (s.hostRead off).extractLsb' (8 * j) 8 = s.hostInByte (4 * k + j)) ∧
      ∀ x b, s.inBuf.read x = some b → s.hostInByte x = b) ∧
    (4 * k < s.params.outBytes → let off := BitVec.ofNat 26 (0x2000000 + 4 * k)
      (∃ m, s.hostWrite off v = { s with outBuf := m } ∧ s.outBuf.StoredAt m (4 * k) lanes) ∧
      (∀ x, (s.hostWrite off v).hostOutByte x =
        if 4 * k ≤ x ∧ x < 4 * k + 4 then lanes.getD (x - 4 * k) 0 else s.hostOutByte x) ∧
      (∀ j, j < 4 → (s.hostRead off).extractLsb' (8 * j) 8 = s.hostOutByte (4 * k + j)) ∧
      ∀ x b, s.outBuf.read x = some b → s.hostOutByte x = b)

/-- 10_state.md R36: the bits of the word a STATUS read returns, in every phase, with the numbers of 60_exceptions.md R300. -/
def Obligations.StatusWordLayout : Prop :=
  ∀ s : State, let w := s.hostRead 0x014
    w.getLsbD 0 = decide (s.phase ≠ .idle) ∧ w.getLsbD 1 = s.status.done ∧ w.getLsbD 2 = s.status.err ∧
    w.getLsbD 3 = s.status.wrIgnored ∧ w.getLsbD 4 = s.status.treeValid ∧ w.getLsbD 5 = s.status.numbered ∧
    w.getLsbD 6 = s.status.codesValid ∧ w.getLsbD 7 = false ∧ w.extractLsb' 16 8 = s.status.lastOp ∧
    w.extractLsb' 24 8 = 0 ∧ w.extractLsb' 8 8 = match s.status.errCode with
      | .none => 0x00
      | .illegal => 0x01
      | .emptyFreq => 0x02
      | .noTree => 0x03
      | .notNumbered => 0x04
      | .malformed => 0x05
      | .dangling => 0x06
      | .truncated => 0x07
      | .noCode => 0x08
      | .range => 0x09
      | .shape => 0x0A

/-- 10_state.md R40: the ROOT register. -/
def Obligations.RootRegisterLayout : Prop :=
  ∀ s : State, s.phase = .idle →
    (s.status.treeValid = false → s.hostRead 0x02C = 0) ∧
    (s.status.treeValid = true → let w := s.hostRead 0x02C
      w.getLsbD 31 = true ∧ w.extractLsb' 9 22 = 0 ∧
      (∀ x, s.root = .leaf x → w.getLsbD 8 = false ∧ w.extractLsb' 0 8 = x) ∧
      (∀ i, s.root = .int i → w.getLsbD 8 = true ∧ (w.extractLsb' 0 8).toNat = i.val))

/-- 10_state.md R51: the NODE_CHILD and NODE_NUM words of a slot. -/
def Obligations.NodeWindowLayout : Prop :=
  ∀ (s : State) (i : Fin 255), s.phase = .idle →
    let c := s.hostRead (BitVec.ofNat 26 (0x800 + 8 * i.val))
    let n := s.hostRead (BitVec.ofNat 26 (0x804 + 8 * i.val))
    c.extractLsb' 9 7 = 0 ∧ c.extractLsb' 25 7 = 0 ∧
    (∀ x, s.nodes[i].left = .leaf x → c.getLsbD 8 = false ∧ c.extractLsb' 0 8 = x) ∧
    (∀ k, s.nodes[i].left = .int k → c.getLsbD 8 = true ∧ (c.extractLsb' 0 8).toNat = k.val) ∧
    (∀ x, s.nodes[i].right = .leaf x → c.getLsbD 24 = false ∧ c.extractLsb' 16 8 = x) ∧
    (∀ k, s.nodes[i].right = .int k → c.getLsbD 24 = true ∧ (c.extractLsb' 16 8).toNat = k.val) ∧
    (s.nodes[i].num = none → n = 0) ∧
    (∀ k, s.nodes[i].num = some k → n.getLsbD 31 = true ∧ n.extractLsb' 8 23 = 0 ∧ (n.extractLsb' 0 8).toNat = k.val)

/-- 10_state.md R61: the CODE_META and CODE_BITS words of a symbol whose code, if any, is at most 255 bits long. -/
def Obligations.CodeWindowLayout : Prop :=
  ∀ (s : State) (i : Fin 256), s.phase = .idle → (∀ bits, s.code[i] = some bits → bits.length ≤ 255) →
    let m := s.hostRead (BitVec.ofNat 26 (0x1000 + 4 * i.val))
    (s.code[i] = none → m = 0 ∧ ∀ j : Fin 8, s.hostRead (BitVec.ofNat 26 (0x2000 + 32 * i.val + 4 * j.val)) = 0) ∧
    (∀ bits, s.code[i] = some bits →
      m.getLsbD 31 = true ∧ m.extractLsb' 8 23 = 0 ∧ (m.extractLsb' 0 8).toNat = bits.length ∧
      ∀ t, t < 256 →
        (s.hostRead (BitVec.ofNat 26 (0x2000 + 32 * i.val + 4 * (t / 32)))).getLsbD (31 - t % 32) = bits.getD t false)

/-- 10_state.md R71: while a command executes, a host operation other than reset or loss of power leaves every input of the command,
its latched word and operands and all it could have written unchanged; of STATUS only WR_IGNORED may change. The model's choices: one operation takes one unit of
`busyLeft`, the free time (log 3), and a release of a reset that is not asserted does nothing (log 14). -/
def Obligations.ExecutingCommandIsUndisturbed : Prop :=
  ∀ (s : State), s.phase = .exec → 0 < s.busyLeft → s.host.head? ≠ some .assertReset → s.host.head? ≠ some .powerCycle →
    ∃ t, step s = .next t ∧ t.phase = .exec ∧ t.busyLeft = s.busyLeft - 1 ∧ t.latch = s.latch ∧ t.arg0 = s.arg0 ∧
      t.arg1 = s.arg1 ∧ t.arg2 = s.arg2 ∧ t.freq = s.freq ∧ t.nodes = s.nodes ∧ t.root = s.root ∧ t.code = s.code ∧
      t.inBuf = s.inBuf ∧ t.outBuf = s.outBuf ∧ t.result0 = s.result0 ∧ t.result1 = s.result1 ∧ t.params = s.params ∧
      t.status = { s.status with wrIgnored := t.status.wrIgnored }

/-- 40_control.md R153, with the invariant and every IN byte written: an executing command completes after a finite number of
steps, unless reset is asserted or power is removed. -/
def Obligations.ExecutingCommandCompletes : Prop :=
  ∀ s : State, s.Inv → s.InWritten → s.phase = .exec → .assertReset ∉ s.host → .powerCycle ∉ s.host →
    ∃ n t, Host.Core.run Sys2Proof.core n s = .next t ∧ t.phase = .idle ∧ t.status.done = true

/-- 70_reset_and_hazards.md R340 and R343, and 60_exceptions.md R318. Asserting reset, in any phase, enters INIT and abandons an
executing command, of which nothing takes effect; IN and OUT keep their bytes. Removing power, in any phase, loses all state, and a
reset follows. The model's choices: the bytes kept move to lists of their own, because none counts as written since reset (log 7);
all else keeps its value until the INIT sequence, but WR_IGNORED is cleared (log 10); an assertion while reset is asserted already
does the same again (log 14); before the INIT sequence after loss of power
the registers and tables have their reset values (log 19); `busyLeft` and `garbage` are the model's own (log 3, log 6). -/
def Obligations.ResetAbandonsAndKeepsBuffers : Prop :=
  ∀ (s : State) (rest : List HostOp), s.HostTurn → s.inBuf.wf = true → s.outBuf.wf = true →
    (s.host = .assertReset :: rest → ∃ b g inBytes outBytes,
      step s = .next { s with
        host := rest, phase := .init .held, status := { s.status with wrIgnored := false }
        inBuf := [], inAtReset := inBytes, outBuf := [], outAtReset := outBytes, busyLeft := b, garbage := g } ∧
      ∀ a, inBytes.read a = (s.inBuf.read a <|> s.inAtReset.read a) ∧
        outBytes.read a = (s.outBuf.read a <|> s.outAtReset.read a)) ∧
    (s.host = .powerCycle :: rest → ∃ b g,
      step s = .next { State.resetOf s.params with
        host := rest, phase := .init .held, reads := s.reads, schedule := s.schedule, draws := s.draws
        busyLeft := b, garbage := g })

/-- 70_reset_and_hazards.md R341: the INIT sequence gives every register, table and flag its reset value, keeps IN, OUT and
WR_IGNORED, and stays in INIT (the stage and the latch's zeros are the model's choice, log 9 and log 10; the last three fields
are its free time, log 3). -/
def Obligations.InitSequenceSetsResetValues : Prop :=
  ∀ s : State, s.phase = .init .pending → s.busyLeft = 0 →
    ∃ b sch d, step s = .next { s with
      status := { done := false, err := false, wrIgnored := s.status.wrIgnored, treeValid := false, numbered := false,
                  codesValid := false, errCode := .none, lastOp := 0 }
      arg0 := 0, arg1 := 0, arg2 := 0, result0 := 0, result1 := 0
      freq := Vector.replicate 256 { present := false, count := 0 }
      nodes := Vector.replicate 255 { left := .leaf 0, right := .leaf 0, num := none }
      root := .leaf 0, code := Vector.replicate 256 none
      phase := .init .set, latch := { word := 0, arg0 := 0, arg1 := 0, arg2 := 0 }
      busyLeft := b, schedule := sch, draws := d }

/-- 70_reset_and_hazards.md R340 and R341: while reset is asserted the phase stays INIT; a release leads to the INIT sequence and changes
nothing else (the stages are the model's, log 10; the three fields of its free time, log 3). Once reset is released INIT ends after a finite number of steps. STATUS then reads 0x00000008 if a
host write was ignored, one before this state (WR_IGNORED already set) or one of the operations that landed since, and 0x00000000
if none was. -/
def Obligations.InitEndsWithStatusZeroOrEight : Prop :=
  (∀ (s : State) (rest : List HostOp), s.phase = .init .held →
    (s.host = .releaseReset :: rest → ∃ b sch d,
      step s = .next { s with host := rest, phase := .init .pending, busyLeft := b, schedule := sch, draws := d }) ∧
    (s.host.head? ≠ some .releaseReset → ∃ t, step s = .next t ∧ t.phase = .init .held)) ∧
  ∀ s : State, s.phase = .init .pending → .assertReset ∉ s.host → .powerCycle ∉ s.host →
    ∃ n t landed, Host.Core.run Sys2Proof.core n s = .next t ∧ t.phase = .idle ∧ s.host = landed ++ t.host ∧
      (∀ k u, k < n → Host.Core.run Sys2Proof.core k s = .next u → u.phase ≠ .idle) ∧
      let ignored : Prop := s.status.wrIgnored = true ∨ ∃ off v, .wr off v ∈ landed ∨ .wrOr off v ∈ landed
      (ignored → t.statusWord = 0x00000008) ∧ (¬ ignored → t.statusWord = 0x00000000)

/-- 10_state.md R75: the reset values of every piece of state, for every instance. (The latch and the model's own fields are not
among them.) -/
def Obligations.ResetValues : Prop :=
  ∀ p : Params, let s := State.resetOf p
    s.hostRead 0x000 = 0x48554646 ∧ s.hostRead 0x004 = 0x00000001 ∧ s.hostRead 0x008 = BitVec.ofNat 32 p.inBytes ∧
    s.hostRead 0x00C = BitVec.ofNat 32 p.outBytes ∧ s.hostRead 0x014 = 0x00000001 ∧
    s.endInit.hostRead 0x014 = 0x00000000 ∧ s.endInit.hostRead 0x02C = 0 ∧
    s.arg0 = 0 ∧ s.arg1 = 0 ∧ s.arg2 = 0 ∧ s.result0 = 0 ∧ s.result1 = 0 ∧
    (∀ i : Fin 256, s.freq[i].present = false ∧ s.freq[i].count = 0) ∧
    (∀ i : Fin 255, s.nodes[i].left = .leaf 0 ∧ s.nodes[i].right = .leaf 0 ∧ s.nodes[i].num = none) ∧
    s.root = .leaf 0 ∧ (∀ i : Fin 256, s.code[i] = none) ∧
    s.status.treeValid = false ∧ s.status.numbered = false ∧ s.status.codesValid = false ∧ s.busy = true ∧
    (∀ a, s.inBuf.read a = none) ∧ (∀ a, s.outBuf.read a = none)

/-! ### NOP -/

/-- 40_control.md R155: NOP succeeds in every state and changes nothing but STATUS and the RESULT registers; issued by the host it
clears an earlier ERR and WR_IGNORED. -/
def Obligations.NopCompletes : Prop :=
  ∀ s : State, exec .nop s = .next { s with
    result0 := 0, result1 := 0, phase := .idle
    status := { s.status with done := true, err := false, errCode := .none } } ∧
  ∃ t, step { s.latchCommand 0x00000000 with busyLeft := 0 } = .next t ∧ t.phase = .idle ∧ t.result0 = 0 ∧ t.result1 = 0 ∧
    t.status = { s.status with done := true, err := false, wrIgnored := false, errCode := .none, lastOp := 0x00 }

/-! ### BUILD -/

/-- 41_tree_builder.md R172: for every instance, SELECT returns two distinct entries of a pool of at least two, the first of least
weight and the second of least weight among the rest. -/
def Obligations.SelectReturnsLightestPair : Prop :=
  ∀ (sel : Select) (p : Pool), (p.map PoolEntry.label).Nodup → 2 ≤ p.length →
    ∃ a b, selectPair sel p = some (a, b) ∧ a ∈ p ∧ b ∈ p ∧ a ≠ b ∧ (∀ e ∈ p, a.w ≤ e.w) ∧ ∀ e ∈ p, e ≠ a → b.w ≤ e.w

/-- 41_tree_builder.md R173: SELECT_REF takes the entry of least weight and, among those, least label, and then the least of the
rest in the same order. -/
def Obligations.SelectRefTakesLeastWeightThenLabel : Prop :=
  ∀ p : Pool, (p.map PoolEntry.label).Nodup → 2 ≤ p.length → ∃ a b, selectPair .ref p = some (a, b) ∧
    a ∈ p ∧ (∀ e ∈ p, e ≠ a → a.w < e.w ∨ (a.w = e.w ∧ a.label < e.label)) ∧
    b ∈ p ∧ b ≠ a ∧ ∀ e ∈ p, e ≠ a → e ≠ b → b.w < e.w ∨ (b.w = e.w ∧ b.label < e.label)

/-- 41_tree_builder.md R174: with no symbol present BUILD raises EMPTY_FREQ, else it succeeds. Slot k holds the pair that SELECT takes from pool k, left and
right in that order; the merged entry goes back with the sum of the weights and label M + 1 + k; ROOT is the leaf alone or
the last merge; every other slot and every code is cleared; RESULT0 = m, RESULT1 = m - 1. -/
def Obligations.BuildMergesGreedily : Prop :=
  ∀ s : State, let m := (presentSymbols s.freq).length
    (m = 0 → exec .build s = .next (s.failedWith .emptyFreq)) ∧
    (1 ≤ m → ∃ (nodes : Arena) (root : Ref) (pools : Nat → Pool) (top : Byte),
      exec .build s = .next { s with
        nodes := nodes, root := root, code := Vector.replicate 256 none
        result0 := BitVec.ofNat 32 m, result1 := BitVec.ofNat 32 (m - 1), phase := .idle
        status := { s.status with
          done := true, err := false, errCode := .none, treeValid := true, numbered := false, codesValid := false } } ∧
      pools 0 = (presentSymbols s.freq).map (fun x => { ref := .leaf x, w := countOf s.freq x, label := x.toNat }) ∧
      top ∈ presentSymbols s.freq ∧ (∀ x ∈ presentSymbols s.freq, x.toNat ≤ top.toNat) ∧
      (∀ k : Fin 255, k.val < m - 1 → ∃ a b, selectPair s.params.select (pools k) = some (a, b) ∧
        nodes[k] = { left := a.ref, right := b.ref, num := none } ∧
        pools (k.val + 1) = (pools k).filter (fun e => e.label ≠ a.label ∧ e.label ≠ b.label) ++
          [{ ref := .int k, w := a.w + b.w, label := top.toNat + 1 + k.val }]) ∧
      (∀ k : Fin 255, m - 1 ≤ k.val → nodes[k] = { left := .leaf 0, right := .leaf 0, num := none }) ∧
      (m = 1 → root = .leaf top) ∧ (2 ≤ m → root = .int (slotOf (m - 2))))

/-- 41_tree_builder.md R176: a tree built from m ≥ 2 symbols has ROOT = Int(m - 2), uses exactly the slots 0 to m - 2, each once,
and has each present symbol on exactly one leaf; the other slots are cleared. -/
def Obligations.BuiltTreeShape : Prop :=
  ∀ s t : State, 2 ≤ (presentSymbols s.freq).length → exec .build s = .next t →
    let m := (presentSymbols s.freq).length
    t.root = .int (slotOf (m - 2)) ∧
    (∃ tr, t.tree = some tr ∧ tr.postorder.Nodup ∧ (∀ k : Fin 255, k ∈ tr.postorder ↔ k.val < m - 1) ∧
      tr.leaves.Perm (presentSymbols s.freq)) ∧
    ∀ k : Fin 255, m - 1 ≤ k.val → t.nodes[k] = { left := .leaf 0, right := .leaf 0, num := none }

/-- 41_tree_builder.md R178: the weights of the initial pool sum to at most 256 · (2^32 - 1) < 2^40, and a merge keeps the sum. -/
def Obligations.WeightsFitFortyBits : Prop :=
  (∀ freq : FreqTable, ((initialPool freq).map PoolEntry.w).sum ≤ 256 * (2 ^ 32 - 1) ∧ 256 * (2 ^ 32 - 1) < 2 ^ 40) ∧
  ∀ (sel : Select) (p : Pool) (a b : PoolEntry) (top k : Nat), (p.map PoolEntry.label).Nodup →
    selectPair sel p = some (a, b) →
    ((dropLabel b.label (dropLabel a.label p) ++ [mergedEntry top k a b]).map PoolEntry.w).sum = (p.map PoolEntry.w).sum

/-- 41_tree_builder.md R182: BUILD's tree depends on FREQ and SELECT alone. -/
def Obligations.BuildDependsOnFreqAndSelectOnly : Prop :=
  ∀ s s' t t' : State, s.freq = s'.freq → s.params.select = s'.params.select → exec .build s = .next t →
    exec .build s' = .next t' →
    t.status.err = t'.status.err ∧ t.result0 = t'.result0 ∧ t.result1 = t'.result1 ∧
    (t.status.err = false → t.nodes = t'.nodes ∧ t.root = t'.root ∧ t.code = t'.code)

/-- 41_tree_builder.md R179: for every SELECT, the built tree has the least weighted path length of all binary trees whose leaves
are the present symbols, each once. -/
def Obligations.BuiltTreeIsOptimal : Prop :=
  ∀ s t : State, exec .build s = .next t → t.status.err = false →
    ∃ tr, t.tree = some tr ∧ ∀ other : AbsTree, other.leaves.Perm (presentSymbols s.freq) →
      tr.abs.pathLength s.freq 0 ≤ other.pathLength s.freq 0

/-! ### NUMBER -/

/-- 43_tree_numberer.md R212: NUMBER gives the slots of the tree their postorder positions and every other slot None; NO_TREE
without a tree. -/
def Obligations.NumberAssignsPostorder : Prop :=
  ∀ s : State,
    (s.status.treeValid = false → exec .number s = .next (s.failedWith .noTree)) ∧
    (s.status.treeValid = true → ∀ tr, s.tree = some tr → tr.postorder.Nodup →
      ∃ nodes : Arena, exec .number s = .next { s with
          nodes := nodes, result0 := BitVec.ofNat 32 tr.postorder.length, result1 := 0, phase := .idle
          status := { s.status with done := true, err := false, errCode := .none, numbered := true } } ∧
        ∀ i : Fin 255, nodes[i].left = s.nodes[i].left ∧ nodes[i].right = s.nodes[i].right ∧
          nodes[i].num = (tr.postorder.idxOf? i).map slotOf)

/-- 43_tree_numberer.md R213: after NUMBER on a tree with k internal nodes each reachable slot has its own number in [0, k - 1],
and an internal root has k - 1. -/
def Obligations.NumbersAreDistinctAndRootIsLast : Prop :=
  ∀ s t : State, s.TreeOk → exec .number s = .next t → t.status.err = false →
    ∃ tr, t.tree = some tr ∧
      (∀ i ∈ tr.postorder, ∃ k : Fin 255, t.nodes[i].num = some k ∧ k.val < tr.postorder.length) ∧
      (∀ i ∈ tr.postorder, ∀ j ∈ tr.postorder, t.nodes[i].num = t.nodes[j].num → i = j) ∧
      ∀ i, t.root = .int i → t.nodes[i].num = some (slotOf (tr.postorder.length - 1))

/-! ### GENCODES -/

/-- 42_code_table.md R193 with R192: GENCODES gives each symbol the path of its first leaf in walk order (a leaf root the code
"0"), RESULT0 the number of coded symbols, RESULT1 the longest length; NO_TREE without a tree. -/
def Obligations.GencodesFillsCodeTable : Prop :=
  ∀ s : State,
    (s.status.treeValid = false → exec .genCodes s = .next (s.failedWith .noTree)) ∧
    (s.status.treeValid = true → ∀ tr, s.tree = some tr →
      ∃ (code : CodeTable) (longest : Nat), exec .genCodes s = .next { s with
          code := code
          result0 := BitVec.ofNat 32 ((List.finRange 256).filter fun i => code[i].isSome).length
          result1 := BitVec.ofNat 32 longest, phase := .idle
          status := { s.status with done := true, err := false, errCode := .none, codesValid := true } } ∧
        (∀ x, tr = .leaf x → ∀ i : Fin 256, code[i] = if symbolOf i = x then some [false] else none) ∧
        (∀ k l r, tr = .node k l r → ∀ i : Fin 256,
          (symbolOf i ∉ tr.leaves → code[i] = none) ∧
          ∀ pre post path, tr.leafPaths [] = pre ++ (symbolOf i, path) :: post → (∀ q ∈ pre, q.1 ≠ symbolOf i) →
            code[i] = some path) ∧
        (∃ i : Fin 256, ∃ bits, code[i] = some bits ∧ bits.length = longest) ∧
        ∀ (i : Fin 256) (bits : BitStr), code[i] = some bits → bits.length ≤ longest)

/-- 42_code_table.md R196: the codes are prefix-free. -/
def Obligations.CodesArePrefixFree : Prop :=
  ∀ s : State, s.CodesOk → s.status.codesValid = true →
    ∀ (i j : Fin 256) (a b : BitStr), i ≠ j → s.code[i] = some a → s.code[j] = some b → ¬ a <+: b

/-- 42_code_table.md R190: every code has 1 to 255 bits. -/
def Obligations.CodeLengthsFitTheirField : Prop :=
  ∀ s : State, s.CodesOk → ∀ (i : Fin 256) (bits : BitStr), s.code[i] = some bits →
    1 ≤ bits.length ∧ bits.length ≤ 255

/-! ### SERIALIZE -/

/-- 44_tree_serdes.md R235: SERIALIZE of a numbered tree with an internal root writes node_count and the records in postorder, a
type=1 value being the child's postorder position; a leaf root s writes `01 00 s 00 s`; only those OUT bytes change; NO_TREE,
NOT_NUMBERED and RANGE, in that order. -/
def Obligations.SerializeWritesHeader : Prop :=
  ∀ s : State,
    (s.status.treeValid = false → exec .serialize s = .next (s.failedWith .noTree)) ∧
    (s.status.treeValid = true → s.status.numbered = false → exec .serialize s = .next (s.failedWith .notNumbered)) ∧
    (s.status.treeValid = true → s.status.numbered = true → s.TreeOk → s.NumbersOk → ∀ tr, s.tree = some tr →
      let l := tr.postorder
      let child : Ref → List Byte := fun
        | .leaf x => [0, x]
        | .int i => [1, BitVec.ofNat 8 (l.idxOf i)]
      let header : List Byte := match tr with
        | .leaf x => [1, 0, x, 0, x]
        | .node _ _ _ => BitVec.ofNat 8 l.length :: l.flatMap fun i => child s.nodes[i].left ++ child s.nodes[i].right
      (s.params.outBytes < s.opArg0 + header.length → exec .serialize s = .next (s.failedWith .range)) ∧
      (s.opArg0 + header.length ≤ s.params.outBytes →
        ∃ out, s.outBuf.StoredAt out s.opArg0 header ∧ exec .serialize s = .next { s with
          outBuf := out, result0 := BitVec.ofNat 32 header.length
          result1 := BitVec.ofNat 32 ((header.length - 1) / 4), phase := .idle
          status := { s.status with done := true, err := false, errCode := .none } }))

/-! ### The deserializers -/

/-- 44_tree_serdes.md R240 to R242 with 60_exceptions.md R306: the checks both deserializers begin with, in their order. For
DESER_POSTORDER the place of the data byte of a type=1 field may hold anything, or nothing (R251; log 20). -/
def Obligations.HeaderChecksInOrder : Prop :=
  ∀ (i : Instr) (s : State), i = .deserGeneral ∨ i = .deserPostorder →
    (s.params.inBytes < s.opArg0 + s.opArg1 → exec i s = .next (s.failedWith .range)) ∧
    (s.opArg0 + s.opArg1 ≤ s.params.inBytes →
      (s.opArg1 = 0 → exec i s = .next (s.failedWith .malformed)) ∧
      (1 ≤ s.opArg1 → ∀ n : Byte, s.inBuf.read s.opArg0 = some n →
        (n = 0 → exec i s = .next (s.failedWith .malformed)) ∧
        (n ≠ 0 → s.opArg1 < 1 + 4 * n.toNat → exec i s = .next (s.failedWith .malformed)) ∧
        ∀ recs : List NodeRec, n ≠ 0 → 1 + 4 * n.toNat ≤ s.opArg1 → recs.length = n.toNat →
          s.inBuf.HoldsRecords (i = .deserGeneral) (s.opArg0 + 1) recs →
          ((∃ r ∈ recs, (r.lType ≠ 0 ∧ r.lType ≠ 1) ∨ (r.rType ≠ 0 ∧ r.rType ≠ 1)) →
            exec i s = .next (s.failedWith .malformed)) ∧
          ((∀ r ∈ recs, (r.lType = 0 ∨ r.lType = 1) ∧ (r.rType = 0 ∨ r.rType = 1)) → n.toNat ≤ s.opArg2 →
            exec i s = .next (s.failedWith .dangling))))

/-- 44_tree_serdes.md R245 with R246 and R247: DESER_GENERAL on a checked header. A type=1 value past the list raises DANGLING;
otherwise, if the records reachable from root_index form a tree, slot j takes record j with its type=1 values as slots, ROOT is
Int(root_index), codes and numbers are cleared; if they form none, SHAPE. -/
def Obligations.DeserGeneralBuildsOrRejects : Prop :=
  ∀ (s : State) (recs : List NodeRec), s.HeaderReady true recs →
    ((∃ r ∈ recs, (r.lType = 1 ∧ recs.length ≤ r.lData.toNat) ∨ (r.rType = 1 ∧ recs.length ≤ r.rData.toNat)) →
      exec .deserGeneral s = .next (s.failedWith .dangling)) ∧
    ((∀ r ∈ recs, (r.lType = 1 → r.lData.toNat < recs.length) ∧ (r.rType = 1 → r.rData.toNat < recs.length)) →
      let child : Byte → Byte → Ref := fun t d => if t = 1 then .int (slotOf d.toNat) else .leaf d
      let nodes : Arena := arenaOf (recs.map fun r =>
        { left := child r.lType r.lData, right := child r.rType r.rData, num := none })
      let root : Ref := .int (slotOf s.opArg2)
      ((∃ tr, readTree nodes 255 root = some tr ∧ tr.postorder.Nodup) →
        exec .deserGeneral s = .next { s with
          nodes := nodes, root := root, code := Vector.replicate 256 none
          result0 := BitVec.ofNat 32 (1 + 4 * recs.length), result1 := BitVec.ofNat 32 recs.length, phase := .idle
          status := { s.status with
            done := true, err := false, errCode := .none, treeValid := true, numbered := false, codesValid := false } }) ∧
      ((¬ ∃ tr, readTree nodes 255 root = some tr ∧ tr.postorder.Nodup) →
        exec .deserGeneral s = .next (s.failedWith .shape)))

/-- 44_tree_serdes.md R252 with R250, R251 and R253: DESER_POSTORDER on a checked header, of which the data bytes of type=1 fields
need not have been written (log 20). If each record up to root_index finds its
internal children on the stack it succeeds: a leaf field is its data; an internal right child is the top of the stack, the record
just before; an internal left child is the top of what is then left; records past root_index are not built; otherwise DANGLING. -/
def Obligations.DeserPostorderBuildsOrRejects : Prop :=
  ∀ (s : State) (recs : List NodeRec), s.HeaderReady false recs →
    ((∀ j, j ≤ s.opArg2 → StackSuffices recs j) → ∃ nodes : Arena,
      exec .deserPostorder s = .next { s with
        nodes := nodes, root := .int (slotOf s.opArg2), code := Vector.replicate 256 none
        result0 := BitVec.ofNat 32 (1 + 4 * recs.length), result1 := BitVec.ofNat 32 recs.length, phase := .idle
        status := { s.status with
          done := true, err := false, errCode := .none, treeValid := true, numbered := false, codesValid := false } } ∧
      (∀ (j : Fin 255) (r : NodeRec), j.val ≤ s.opArg2 → recs[j.val]? = some r →
        nodes[j].num = none ∧ (r.lType = 0 → nodes[j].left = .leaf r.lData) ∧ (r.rType = 0 → nodes[j].right = .leaf r.rData) ∧
        (r.rType = 1 → nodes[j].right = .int (slotOf (j.val - 1)) ∧ (postorderStack recs j.val)[0]? = some (j.val - 1)) ∧
        (r.lType = 1 → ∃ k : Fin 255, nodes[j].left = .int k ∧
          (postorderStack recs j.val)[if r.rType = 1 then 1 else 0]? = some k.val ∧
          (r.rType = 0 → k.val + 1 = j.val) ∧ (r.rType = 1 → k.val + 1 < j.val))) ∧
      ∀ j : Fin 255, s.opArg2 < j.val → nodes[j] = { left := .leaf 0, right := .leaf 0, num := none }) ∧
    ((∃ j, j ≤ s.opArg2 ∧ ¬ StackSuffices recs j) → exec .deserPostorder s = .next (s.failedWith .dangling))

/-- 44_tree_serdes.md R254: what DESER_POSTORDER builds is a tree, whatever the list. -/
def Obligations.DeserPostorderMakesTree : Prop :=
  ∀ s t : State, exec .deserPostorder s = .next t → t.status.err = false →
    t.status.treeValid = true ∧ ∃ tr, t.tree = some tr ∧ tr.postorder.Nodup

/-- 44_tree_serdes.md R256: both deserializers read back the header SERIALIZE wrote for a numbered tree with an internal root:
the same arena, the same ROOT, and the abstract tree of the original. -/
def Obligations.SerializeRoundTrip : Prop :=
  ∀ (s t s' : State) (i : Fin 255), s.TreeOk → s.NumbersOk → s.root = .int i → exec .serialize s = .next t →
    t.status.err = false → s'.opArg0 + s'.opArg1 ≤ s'.params.inBytes → t.result0.toNat ≤ s'.opArg1 →
    s'.opArg2 = t.result1.toNat - 1 →
    (∀ j, j < t.result0.toNat → s'.inBuf.read (s'.opArg0 + j) = t.outBuf.read (s.opArg0 + j)) →
    ∃ u v, exec .deserGeneral s' = .next u ∧ exec .deserPostorder s' = .next v ∧ u.status.err = false ∧
      v.status.err = false ∧ u.nodes = v.nodes ∧ u.root = v.root ∧
      ∃ a b, s.tree = some a ∧ u.tree = some b ∧ a.abs = b.abs

/-! ### PACK and UNPACK -/

/-- 45_stream_packer.md R275 with R271 to R273: PACK writes the size field, little-endian, and the code stream of the input
symbols, first bit in the most significant place (R94, log 17), zeros on the right; only those OUT bytes change. -/
def Obligations.PackWritesSizedPayload : Prop :=
  ∀ (s : State) (codes : List BitStr),
    s.opArg0 + s.opArg1 ≤ s.params.inBytes → codes.length = s.opArg1 →
    (∀ j, j < s.opArg1 → ∃ x : Byte, s.inBuf.read (s.opArg0 + j) = some x ∧ s.code[x.toNat]'x.isLt = codes[j]?) →
    let bits := codes.flatten
    let nb := (bits.length + 7) / 8
    (s.params.outBytes < s.opArg2 + 4 + nb → exec .pack s = .next (s.failedWith .range)) ∧
    (s.opArg2 + 4 + nb ≤ s.params.outBytes → ∃ (out : Memory) (payload : List Byte),
      exec .pack s = .next { s with
        outBuf := out, result0 := BitVec.ofNat 32 (4 + nb), result1 := BitVec.ofNat 32 bits.length, phase := .idle
        status := { s.status with done := true, err := false, errCode := .none } } ∧
      payload.length = nb ∧
      s.outBuf.StoredAt out s.opArg2
        ([BitVec.ofNat 8 (s.opArg1 % 256), BitVec.ofNat 8 (s.opArg1 / 256 % 256), BitVec.ofNat 8 (s.opArg1 / 65536 % 256),
          BitVec.ofNat 8 (s.opArg1 / 16777216)] ++ payload) ∧
      ∀ t, t < 8 * nb → ∃ b : Byte, payload[t / 8]? = some b ∧ b.getLsbD (7 - t % 8) = bits.getD t false)

/-- 45_stream_packer.md R275 and R276: PACK's failures before the output range: an input range outside IN raises RANGE; otherwise
the first input symbol without a code raises NO_CODE, whatever the output range. -/
def Obligations.PackRejectsRangeThenMissingCode : Prop :=
  ∀ s : State,
    (s.params.inBytes < s.opArg0 + s.opArg1 → exec .pack s = .next (s.failedWith .range)) ∧
    (s.opArg0 + s.opArg1 ≤ s.params.inBytes → ∀ (j : Nat) (x : Byte), j < s.opArg1 →
      (∀ k, k < j → ∃ y : Byte, s.inBuf.read (s.opArg0 + k) = some y ∧ s.code[y.toNat]'y.isLt ≠ none) →
      s.inBuf.read (s.opArg0 + j) = some x → s.code[x.toNat]'x.isLt = none →
      exec .pack s = .next (s.failedWith .noCode))

/-- 45_stream_packer.md R285 and 60_exceptions.md R306: UNPACK's checks before the payload, in their order, and R289: a size field
of 0 succeeds at once in every state. -/
def Obligations.UnpackChecksInOrder : Prop :=
  ∀ s : State,
    (s.params.inBytes < s.opArg0 + s.opArg1 → exec .unpack s = .next (s.failedWith .range)) ∧
    (s.opArg0 + s.opArg1 ≤ s.params.inBytes →
      (s.opArg1 < 4 → exec .unpack s = .next (s.failedWith .malformed)) ∧
      (4 ≤ s.opArg1 → ∀ size : Word, s.inBuf.Holds s.opArg0
          [size.extractLsb' 0 8, size.extractLsb' 8 8, size.extractLsb' 16 8, size.extractLsb' 24 8] →
        (size = 0 → exec .unpack s = .next { s with
          result0 := 0, result1 := 0, phase := .idle
          status := { s.status with done := true, err := false, errCode := .none } }) ∧
        (size ≠ 0 → s.status.treeValid = false → exec .unpack s = .next (s.failedWith .noTree)) ∧
        (size ≠ 0 → s.status.treeValid = true → s.params.outBytes < s.opArg2 + size.toNat →
          exec .unpack s = .next (s.failedWith .range))))

/-- 45_stream_packer.md R285 with R280 and R288: with an internal root, a payload whose first bits are the paths of `size` leaves
decodes to their symbols (bit order: R94, log 17); what follows those bits is not looked at; only those OUT bytes change;
RESULT1 is the bits used. -/
def Obligations.UnpackDecodesLeafPaths : Prop :=
  ∀ (s : State) (tr : SlotTree) (i : Fin 255) (l : List (Byte × BitStr)),
    s.status.treeValid = true → s.tree = some tr → s.root = .int i → l ≠ [] → l.length < 2 ^ 32 →
    (∀ q ∈ l, q ∈ tr.leafPaths []) →
    s.opArg0 + s.opArg1 ≤ s.params.inBytes → 4 ≤ s.opArg1 →
    s.inBuf.Holds s.opArg0 [BitVec.ofNat 8 (l.length % 256), BitVec.ofNat 8 (l.length / 256 % 256),
      BitVec.ofNat 8 (l.length / 65536 % 256), BitVec.ofNat 8 (l.length / 16777216)] →
    let bits := l.flatMap Prod.snd
    bits.length ≤ 8 * (s.opArg1 - 4) → s.inBuf.HoldsBits (s.opArg0 + 4) bits →
    s.opArg2 + l.length ≤ s.params.outBytes →
    ∃ out, s.outBuf.StoredAt out s.opArg2 (l.map Prod.fst) ∧ exec .unpack s = .next { s with
      outBuf := out, result0 := BitVec.ofNat 32 l.length, result1 := BitVec.ofNat 32 bits.length, phase := .idle
      status := { s.status with done := true, err := false, errCode := .none } }

/-- 45_stream_packer.md R286: with a leaf root UNPACK emits the symbol once per payload bit, whatever the bits, and raises
TRUNCATED when there are fewer payload bits than symbols. -/
def Obligations.UnpackOfLeafRoot : Prop :=
  ∀ (s : State) (x : Byte) (size : Word),
    s.status.treeValid = true → s.root = .leaf x → s.opArg0 + s.opArg1 ≤ s.params.inBytes → 4 ≤ s.opArg1 →
    s.inBuf.Holds s.opArg0
      [size.extractLsb' 0 8, size.extractLsb' 8 8, size.extractLsb' 16 8, size.extractLsb' 24 8] →
    size ≠ 0 → s.opArg2 + size.toNat ≤ s.params.outBytes →
    (size.toNat ≤ 8 * (s.opArg1 - 4) →
      ∃ out, s.outBuf.StoredAt out s.opArg2 (List.replicate size.toNat x) ∧ exec .unpack s = .next { s with
        outBuf := out, result0 := size, result1 := size, phase := .idle
        status := { s.status with done := true, err := false, errCode := .none } }) ∧
    (8 * (s.opArg1 - 4) < size.toNat → exec .unpack s = .next (s.failedWith .truncated))

/-- 45_stream_packer.md R287: with an internal root, payload bits that run out in the middle of a symbol's path, or before it,
raise TRUNCATED, and nothing is written. -/
def Obligations.UnpackOfShortPayloadIsTruncated : Prop :=
  ∀ (s : State) (tr : SlotTree) (i : Fin 255) (l : List (Byte × BitStr)) (cut : BitStr) (q : Byte × BitStr) (size : Word),
    s.status.treeValid = true → s.tree = some tr → s.root = .int i → (∀ p ∈ l, p ∈ tr.leafPaths []) →
    q ∈ tr.leafPaths [] → cut <+: q.2 → cut.length < q.2.length → l.length < size.toNat →
    s.opArg0 + s.opArg1 ≤ s.params.inBytes → 4 ≤ s.opArg1 →
    s.inBuf.Holds s.opArg0
      [size.extractLsb' 0 8, size.extractLsb' 8 8, size.extractLsb' 16 8, size.extractLsb' 24 8] →
    (l.flatMap Prod.snd ++ cut).length = 8 * (s.opArg1 - 4) →
    s.inBuf.HoldsBits (s.opArg0 + 4) (l.flatMap Prod.snd ++ cut) →
    s.opArg2 + size.toNat ≤ s.params.outBytes → exec .unpack s = .next (s.failedWith .truncated)

/-- 45_stream_packer.md R290: what PACK wrote, copied to IN, UNPACK turns back into the input symbols, with the same bit count,
as long as the tree is the one the codes were made from: a NUMBER in between, for one, is no matter. -/
def Obligations.PackUnpackRoundTrip : Prop :=
  ∀ s t s' : State, s.CodesOk → s.params.wellFormed = true → s.status.codesValid = true →
    exec .pack s = .next t → t.status.err = false →
    (∀ k : Fin 255, s'.nodes[k].left = s.nodes[k].left ∧ s'.nodes[k].right = s.nodes[k].right) → s'.root = s.root →
    s'.status.treeValid = true →
    s'.opArg0 + s'.opArg1 ≤ s'.params.inBytes → s'.opArg1 = t.result0.toNat →
    (∀ j, j < t.result0.toNat → s'.inBuf.read (s'.opArg0 + j) = t.outBuf.read (s.opArg2 + j)) →
    s'.opArg2 + s.opArg1 ≤ s'.params.outBytes →
    ∃ u, exec .unpack s' = .next u ∧ u.status.err = false ∧ u.result0.toNat = s.opArg1 ∧ u.result1 = t.result1 ∧
      ∀ j, j < s.opArg1 → u.outBuf.read (s'.opArg2 + j) = s.inBuf.read (s.opArg0 + j)

/-! ### Stops, and the invariants -/

/-- 92_eei_decisions.md D36: in a state that meets the invariant a command stops the model only if it is one of the four that read
IN and a byte of its input range, ARG0 to ARG0 + ARG1 - 1, has not been written since reset; with every IN byte written every
command completes. -/
def Obligations.CommandsStopOnlyOnUnwrittenInput : Prop :=
  ∀ (i : Instr) (s : State), s.Inv →
    (∀ f, exec i s = .fault f → f = .unwrittenIn ∧ i ∈ [.deserGeneral, .deserPostorder, .pack, .unpack] ∧
      ∃ a, s.opArg0 ≤ a ∧ a < s.opArg0 + s.opArg1 ∧ a < s.params.inBytes ∧ s.inBuf.read a = none) ∧
    (∀ r, exec i s ≠ .refused r) ∧ (s.InWritten → ∃ t, exec i s = .next t)

/-- The invariant holds right after reset, for every legal instance (10_state.md R75). -/
def Obligations.ResetMeetsInvariant : Prop :=
  ∀ p : Params, p.wellFormed = true → (State.resetOf p).Inv

/-- Every step keeps the buffers canonical and inside their sizes (20_memory.md R88, R90), and with them what they held at the latest
reset (the model's own lists, log 7). -/
def Obligations.StepKeepsBuffers : Prop :=
  ∀ s t : State, s.BuffersOk → step s = .next t → t.BuffersOk

/-- 10_state.md R54: every step keeps the tree invariant. -/
def Obligations.StepKeepsTree : Prop :=
  ∀ s t : State, s.TreeOk → step s = .next t → t.TreeOk

/-- 10_state.md R55: every step keeps the numbering invariant. -/
def Obligations.StepKeepsNumbers : Prop :=
  ∀ s t : State, s.TreeOk → s.NumbersOk → step s = .next t → t.NumbersOk

/-- 10_state.md R62: every step keeps the code table invariant. -/
def Obligations.StepKeepsCodes : Prop :=
  ∀ s t : State, s.CodesOk → step s = .next t → t.CodesOk

/-- 10_state.md R36 and R37: every step keeps ERR and ERRCODE in agreement, and DONE, ERR and LAST_OP as acceptance set them. -/
def Obligations.StepKeepsStatus : Prop :=
  ∀ s t : State, s.StatusOk → step s = .next t → t.StatusOk
end

