-- ==== Sys2Proof/Laws/Engine.lean ====
section
/-! SUPPORT. What a computation of the engine and the completion of a command can answer, said once. -/

namespace Sys2Proof.Machine

/-! ### Computations -/

theorem engine_bind_ok {α β : Type} {x : Engine α} {f : α → Engine β} {b : β} :
    (x >>= f) = .ok b ↔ ∃ a, x = .ok a ∧ f a = .ok b := by
  cases x <;> simp [bind, Except.bind]

theorem engine_bind_error {α β : Type} {x : Engine α} {f : α → Engine β} {e : Abort} :
    (x >>= f) = .error e ↔ x = .error e ∨ ∃ a, x = .ok a ∧ f a = .error e := by
  cases x <;> simp [bind, Except.bind]

@[simp] theorem engine_ok_bind {α β : Type} (a : α) (f : α → Engine β) : ((Except.ok a : Engine α) >>= f) = f a := rfl

@[simp] theorem engine_error_bind {α β : Type} (e : Abort) (f : α → Engine β) :
    ((Except.error e : Engine α) >>= f) = .error e := rfl

@[simp] theorem raise_bind {α β : Type} (c : ErrCode) (f : α → Engine β) : ((raise c : Engine α) >>= f) = raise c := rfl

@[simp] theorem raise_eq {α : Type} (c : ErrCode) : (raise c : Engine α) = .error (.raise c) := rfl

@[simp] theorem stopWith_eq {α : Type} (f : Fault) : (stopWith f : Engine α) = .error (.stop f) := rfl

@[simp] theorem raiseIf_true (c : ErrCode) : raiseIf true c = .error (.raise c) := rfl

@[simp] theorem raiseIf_false (c : ErrCode) : raiseIf false c = .ok () := rfl

theorem raiseIf_ok {b : Bool} {c : ErrCode} {u : Unit} : raiseIf b c = .ok u ↔ b = false := by
  cases b <;> simp

theorem raiseIf_error {b : Bool} {c : ErrCode} {e : Abort} : raiseIf b c = .error e ↔ b = true ∧ e = .raise c := by
  cases b <;> simp [eq_comm]

@[simp] theorem orStop_some {α : Type} (f : Fault) (x : α) : orStop f (some x) = .ok x := rfl

@[simp] theorem orStop_none {α : Type} (f : Fault) : (orStop f none : Engine α) = .error (.stop f) := rfl

theorem orStop_ok {α : Type} {f : Fault} {o : Option α} {x : α} : orStop f o = .ok x ↔ o = some x := by
  cases o <;> simp

theorem orStop_error {α : Type} {f : Fault} {o : Option α} {e : Abort} :
    orStop f o = .error e ↔ o = none ∧ e = .stop f := by
  cases o <;> simp [eq_comm]

theorem inByte_ok {s : State} {a : Nat} {b : Byte} : s.inByte a = .ok b ↔ s.inBuf.read a = some b := orStop_ok

/-- An engine read of IN never raises an error code: it yields the byte, or stops the model. -/
theorem inByte_error {s : State} {a : Nat} {e : Abort} :
    s.inByte a = .error e ↔ s.inBuf.read a = none ∧ e = .stop .unwrittenIn := orStop_error

/-! ### Completion -/

@[simp] theorem finish_ok (s t : State) (r0 r1 : Word) : finish s (.ok (t, r0, r1)) = .next (t.completeOk r0 r1) := rfl

@[simp] theorem finish_raise (s : State) (c : ErrCode) : finish s (.error (.raise c)) = .next (s.completeErr c) := rfl

@[simp] theorem finish_stop (s : State) (f : Fault) : finish s (.error (.stop f)) = .fault f := rfl

/-- All the ways a command completes. -/
theorem finish_next {s u : State} {r : Engine (State × Word × Word)} :
    finish s r = .next u ↔
      (∃ t r0 r1, r = .ok (t, r0, r1) ∧ u = t.completeOk r0 r1) ∨ (∃ c, r = .error (.raise c) ∧ u = s.completeErr c) := by
  rcases r with (c | f) | ⟨t, r0, r1⟩
  · simp [eq_comm]
  · simp
  · constructor
    · intro h
      exact .inl ⟨t, r0, r1, rfl, by simpa [eq_comm] using h⟩
    · rintro (⟨t', r0', r1', h, rfl⟩ | ⟨c, h, -⟩)
      · cases h
        rfl
      · cases h

/-- A completion stops only where the computation stopped the model. -/
theorem finish_fault {s : State} {r : Engine (State × Word × Word)} {f : Fault} :
    finish s r = .fault f ↔ r = .error (.stop f) := by
  rcases r with (c | g) | ⟨t, r0, r1⟩ <;> simp

theorem finish_never_refuses (s : State) (r : Engine (State × Word × Word)) (x : Refusal) : finish s r ≠ .refused x := by
  rcases r with (c | g) | ⟨t, r0, r1⟩ <;> simp

end Sys2Proof.Machine
end

