-- ==== Sys2Proof/Laws/State.lean ====
section
/-! SUPPORT. What each named update of the state does to each field, by unfolding it once. -/

namespace Sys2Proof.Machine

variable (s : State)

/-! ### latchCommand -/

@[simp] theorem latchCommand_params (w : Word) : (s.latchCommand w).params = s.params := rfl
@[simp] theorem latchCommand_status (w : Word) : (s.latchCommand w).status = { s.status with done := false, err := false, wrIgnored := false, errCode := ErrCode.none, lastOp := wordByte w 0 } := rfl
@[simp] theorem latchCommand_arg0 (w : Word) : (s.latchCommand w).arg0 = s.arg0 := rfl
@[simp] theorem latchCommand_arg1 (w : Word) : (s.latchCommand w).arg1 = s.arg1 := rfl
@[simp] theorem latchCommand_arg2 (w : Word) : (s.latchCommand w).arg2 = s.arg2 := rfl
@[simp] theorem latchCommand_result0 (w : Word) : (s.latchCommand w).result0 = s.result0 := rfl
@[simp] theorem latchCommand_result1 (w : Word) : (s.latchCommand w).result1 = s.result1 := rfl
@[simp] theorem latchCommand_freq (w : Word) : (s.latchCommand w).freq = s.freq := rfl
@[simp] theorem latchCommand_nodes (w : Word) : (s.latchCommand w).nodes = s.nodes := rfl
@[simp] theorem latchCommand_root (w : Word) : (s.latchCommand w).root = s.root := rfl
@[simp] theorem latchCommand_code (w : Word) : (s.latchCommand w).code = s.code := rfl
@[simp] theorem latchCommand_inBuf (w : Word) : (s.latchCommand w).inBuf = s.inBuf := rfl
@[simp] theorem latchCommand_inAtReset (w : Word) : (s.latchCommand w).inAtReset = s.inAtReset := rfl
@[simp] theorem latchCommand_outBuf (w : Word) : (s.latchCommand w).outBuf = s.outBuf := rfl
@[simp] theorem latchCommand_outAtReset (w : Word) : (s.latchCommand w).outAtReset = s.outAtReset := rfl
@[simp] theorem latchCommand_phase (w : Word) : (s.latchCommand w).phase = Phase.exec := rfl
@[simp] theorem latchCommand_latch (w : Word) : (s.latchCommand w).latch = { word := w, arg0 := s.arg0, arg1 := s.arg1, arg2 := s.arg2 } := rfl
@[simp] theorem latchCommand_busyLeft (w : Word) : (s.latchCommand w).busyLeft = s.busyLeft := rfl
@[simp] theorem latchCommand_schedule (w : Word) : (s.latchCommand w).schedule = s.schedule := rfl
@[simp] theorem latchCommand_draws (w : Word) : (s.latchCommand w).draws = s.draws := rfl
@[simp] theorem latchCommand_garbage (w : Word) : (s.latchCommand w).garbage = s.garbage := rfl
@[simp] theorem latchCommand_host (w : Word) : (s.latchCommand w).host = s.host := rfl
@[simp] theorem latchCommand_reads (w : Word) : (s.latchCommand w).reads = s.reads := rfl

/-! ### completeOk -/

@[simp] theorem completeOk_params (r0 r1 : Word) : (s.completeOk r0 r1).params = s.params := rfl
@[simp] theorem completeOk_status (r0 r1 : Word) : (s.completeOk r0 r1).status = { s.status with done := true, err := false, errCode := ErrCode.none } := rfl
@[simp] theorem completeOk_arg0 (r0 r1 : Word) : (s.completeOk r0 r1).arg0 = s.arg0 := rfl
@[simp] theorem completeOk_arg1 (r0 r1 : Word) : (s.completeOk r0 r1).arg1 = s.arg1 := rfl
@[simp] theorem completeOk_arg2 (r0 r1 : Word) : (s.completeOk r0 r1).arg2 = s.arg2 := rfl
@[simp] theorem completeOk_result0 (r0 r1 : Word) : (s.completeOk r0 r1).result0 = r0 := rfl
@[simp] theorem completeOk_result1 (r0 r1 : Word) : (s.completeOk r0 r1).result1 = r1 := rfl
@[simp] theorem completeOk_freq (r0 r1 : Word) : (s.completeOk r0 r1).freq = s.freq := rfl
@[simp] theorem completeOk_nodes (r0 r1 : Word) : (s.completeOk r0 r1).nodes = s.nodes := rfl
@[simp] theorem completeOk_root (r0 r1 : Word) : (s.completeOk r0 r1).root = s.root := rfl
@[simp] theorem completeOk_code (r0 r1 : Word) : (s.completeOk r0 r1).code = s.code := rfl
@[simp] theorem completeOk_inBuf (r0 r1 : Word) : (s.completeOk r0 r1).inBuf = s.inBuf := rfl
@[simp] theorem completeOk_inAtReset (r0 r1 : Word) : (s.completeOk r0 r1).inAtReset = s.inAtReset := rfl
@[simp] theorem completeOk_outBuf (r0 r1 : Word) : (s.completeOk r0 r1).outBuf = s.outBuf := rfl
@[simp] theorem completeOk_outAtReset (r0 r1 : Word) : (s.completeOk r0 r1).outAtReset = s.outAtReset := rfl
@[simp] theorem completeOk_phase (r0 r1 : Word) : (s.completeOk r0 r1).phase = Phase.idle := rfl
@[simp] theorem completeOk_latch (r0 r1 : Word) : (s.completeOk r0 r1).latch = s.latch := rfl
@[simp] theorem completeOk_busyLeft (r0 r1 : Word) : (s.completeOk r0 r1).busyLeft = s.busyLeft := rfl
@[simp] theorem completeOk_schedule (r0 r1 : Word) : (s.completeOk r0 r1).schedule = s.schedule := rfl
@[simp] theorem completeOk_draws (r0 r1 : Word) : (s.completeOk r0 r1).draws = s.draws := rfl
@[simp] theorem completeOk_garbage (r0 r1 : Word) : (s.completeOk r0 r1).garbage = s.garbage := rfl
@[simp] theorem completeOk_host (r0 r1 : Word) : (s.completeOk r0 r1).host = s.host := rfl
@[simp] theorem completeOk_reads (r0 r1 : Word) : (s.completeOk r0 r1).reads = s.reads := rfl

/-! ### completeErr -/

@[simp] theorem completeErr_params (c : ErrCode) : (s.completeErr c).params = s.params := rfl
@[simp] theorem completeErr_status (c : ErrCode) : (s.completeErr c).status = { s.status with done := true, err := true, errCode := c } := rfl
@[simp] theorem completeErr_arg0 (c : ErrCode) : (s.completeErr c).arg0 = s.arg0 := rfl
@[simp] theorem completeErr_arg1 (c : ErrCode) : (s.completeErr c).arg1 = s.arg1 := rfl
@[simp] theorem completeErr_arg2 (c : ErrCode) : (s.completeErr c).arg2 = s.arg2 := rfl
@[simp] theorem completeErr_result0 (c : ErrCode) : (s.completeErr c).result0 = 0 := rfl
@[simp] theorem completeErr_result1 (c : ErrCode) : (s.completeErr c).result1 = 0 := rfl
@[simp] theorem completeErr_freq (c : ErrCode) : (s.completeErr c).freq = s.freq := rfl
@[simp] theorem completeErr_nodes (c : ErrCode) : (s.completeErr c).nodes = s.nodes := rfl
@[simp] theorem completeErr_root (c : ErrCode) : (s.completeErr c).root = s.root := rfl
@[simp] theorem completeErr_code (c : ErrCode) : (s.completeErr c).code = s.code := rfl
@[simp] theorem completeErr_inBuf (c : ErrCode) : (s.completeErr c).inBuf = s.inBuf := rfl
@[simp] theorem completeErr_inAtReset (c : ErrCode) : (s.completeErr c).inAtReset = s.inAtReset := rfl
@[simp] theorem completeErr_outBuf (c : ErrCode) : (s.completeErr c).outBuf = s.outBuf := rfl
@[simp] theorem completeErr_outAtReset (c : ErrCode) : (s.completeErr c).outAtReset = s.outAtReset := rfl
@[simp] theorem completeErr_phase (c : ErrCode) : (s.completeErr c).phase = Phase.idle := rfl
@[simp] theorem completeErr_latch (c : ErrCode) : (s.completeErr c).latch = s.latch := rfl
@[simp] theorem completeErr_busyLeft (c : ErrCode) : (s.completeErr c).busyLeft = s.busyLeft := rfl
@[simp] theorem completeErr_schedule (c : ErrCode) : (s.completeErr c).schedule = s.schedule := rfl
@[simp] theorem completeErr_draws (c : ErrCode) : (s.completeErr c).draws = s.draws := rfl
@[simp] theorem completeErr_garbage (c : ErrCode) : (s.completeErr c).garbage = s.garbage := rfl
@[simp] theorem completeErr_host (c : ErrCode) : (s.completeErr c).host = s.host := rfl
@[simp] theorem completeErr_reads (c : ErrCode) : (s.completeErr c).reads = s.reads := rfl

/-! ### outWrite -/

@[simp] theorem outWrite_params (a : Nat) (bs : List Byte) : (s.outWrite a bs).params = s.params := rfl
@[simp] theorem outWrite_status (a : Nat) (bs : List Byte) : (s.outWrite a bs).status = s.status := rfl
@[simp] theorem outWrite_arg0 (a : Nat) (bs : List Byte) : (s.outWrite a bs).arg0 = s.arg0 := rfl
@[simp] theorem outWrite_arg1 (a : Nat) (bs : List Byte) : (s.outWrite a bs).arg1 = s.arg1 := rfl
@[simp] theorem outWrite_arg2 (a : Nat) (bs : List Byte) : (s.outWrite a bs).arg2 = s.arg2 := rfl
@[simp] theorem outWrite_result0 (a : Nat) (bs : List Byte) : (s.outWrite a bs).result0 = s.result0 := rfl
@[simp] theorem outWrite_result1 (a : Nat) (bs : List Byte) : (s.outWrite a bs).result1 = s.result1 := rfl
@[simp] theorem outWrite_freq (a : Nat) (bs : List Byte) : (s.outWrite a bs).freq = s.freq := rfl
@[simp] theorem outWrite_nodes (a : Nat) (bs : List Byte) : (s.outWrite a bs).nodes = s.nodes := rfl
@[simp] theorem outWrite_root (a : Nat) (bs : List Byte) : (s.outWrite a bs).root = s.root := rfl
@[simp] theorem outWrite_code (a : Nat) (bs : List Byte) : (s.outWrite a bs).code = s.code := rfl
@[simp] theorem outWrite_inBuf (a : Nat) (bs : List Byte) : (s.outWrite a bs).inBuf = s.inBuf := rfl
@[simp] theorem outWrite_inAtReset (a : Nat) (bs : List Byte) : (s.outWrite a bs).inAtReset = s.inAtReset := rfl
@[simp] theorem outWrite_outBuf (a : Nat) (bs : List Byte) : (s.outWrite a bs).outBuf = s.outBuf.writeBytes a bs := rfl
@[simp] theorem outWrite_outAtReset (a : Nat) (bs : List Byte) : (s.outWrite a bs).outAtReset = s.outAtReset := rfl
@[simp] theorem outWrite_phase (a : Nat) (bs : List Byte) : (s.outWrite a bs).phase = s.phase := rfl
@[simp] theorem outWrite_latch (a : Nat) (bs : List Byte) : (s.outWrite a bs).latch = s.latch := rfl
@[simp] theorem outWrite_busyLeft (a : Nat) (bs : List Byte) : (s.outWrite a bs).busyLeft = s.busyLeft := rfl
@[simp] theorem outWrite_schedule (a : Nat) (bs : List Byte) : (s.outWrite a bs).schedule = s.schedule := rfl
@[simp] theorem outWrite_draws (a : Nat) (bs : List Byte) : (s.outWrite a bs).draws = s.draws := rfl
@[simp] theorem outWrite_garbage (a : Nat) (bs : List Byte) : (s.outWrite a bs).garbage = s.garbage := rfl
@[simp] theorem outWrite_host (a : Nat) (bs : List Byte) : (s.outWrite a bs).host = s.host := rfl
@[simp] theorem outWrite_reads (a : Nat) (bs : List Byte) : (s.outWrite a bs).reads = s.reads := rfl

/-! ### installTree -/

@[simp] theorem installTree_params (n : Arena) (r : Ref) : (s.installTree n r).params = s.params := rfl
@[simp] theorem installTree_status (n : Arena) (r : Ref) : (s.installTree n r).status = { s.status with treeValid := true, numbered := false, codesValid := false } := rfl
@[simp] theorem installTree_arg0 (n : Arena) (r : Ref) : (s.installTree n r).arg0 = s.arg0 := rfl
@[simp] theorem installTree_arg1 (n : Arena) (r : Ref) : (s.installTree n r).arg1 = s.arg1 := rfl
@[simp] theorem installTree_arg2 (n : Arena) (r : Ref) : (s.installTree n r).arg2 = s.arg2 := rfl
@[simp] theorem installTree_result0 (n : Arena) (r : Ref) : (s.installTree n r).result0 = s.result0 := rfl
@[simp] theorem installTree_result1 (n : Arena) (r : Ref) : (s.installTree n r).result1 = s.result1 := rfl
@[simp] theorem installTree_freq (n : Arena) (r : Ref) : (s.installTree n r).freq = s.freq := rfl
@[simp] theorem installTree_nodes (n : Arena) (r : Ref) : (s.installTree n r).nodes = n := rfl
@[simp] theorem installTree_root (n : Arena) (r : Ref) : (s.installTree n r).root = r := rfl
@[simp] theorem installTree_code (n : Arena) (r : Ref) : (s.installTree n r).code = Vector.replicate 256 none := rfl
@[simp] theorem installTree_inBuf (n : Arena) (r : Ref) : (s.installTree n r).inBuf = s.inBuf := rfl
@[simp] theorem installTree_inAtReset (n : Arena) (r : Ref) : (s.installTree n r).inAtReset = s.inAtReset := rfl
@[simp] theorem installTree_outBuf (n : Arena) (r : Ref) : (s.installTree n r).outBuf = s.outBuf := rfl
@[simp] theorem installTree_outAtReset (n : Arena) (r : Ref) : (s.installTree n r).outAtReset = s.outAtReset := rfl
@[simp] theorem installTree_phase (n : Arena) (r : Ref) : (s.installTree n r).phase = s.phase := rfl
@[simp] theorem installTree_latch (n : Arena) (r : Ref) : (s.installTree n r).latch = s.latch := rfl
@[simp] theorem installTree_busyLeft (n : Arena) (r : Ref) : (s.installTree n r).busyLeft = s.busyLeft := rfl
@[simp] theorem installTree_schedule (n : Arena) (r : Ref) : (s.installTree n r).schedule = s.schedule := rfl
@[simp] theorem installTree_draws (n : Arena) (r : Ref) : (s.installTree n r).draws = s.draws := rfl
@[simp] theorem installTree_garbage (n : Arena) (r : Ref) : (s.installTree n r).garbage = s.garbage := rfl
@[simp] theorem installTree_host (n : Arena) (r : Ref) : (s.installTree n r).host = s.host := rfl
@[simp] theorem installTree_reads (n : Arena) (r : Ref) : (s.installTree n r).reads = s.reads := rfl

/-! ### ignoreWrite -/

@[simp] theorem ignoreWrite_params : (s.ignoreWrite).params = s.params := rfl
@[simp] theorem ignoreWrite_status : (s.ignoreWrite).status = { s.status with wrIgnored := true } := rfl
@[simp] theorem ignoreWrite_arg0 : (s.ignoreWrite).arg0 = s.arg0 := rfl
@[simp] theorem ignoreWrite_arg1 : (s.ignoreWrite).arg1 = s.arg1 := rfl
@[simp] theorem ignoreWrite_arg2 : (s.ignoreWrite).arg2 = s.arg2 := rfl
@[simp] theorem ignoreWrite_result0 : (s.ignoreWrite).result0 = s.result0 := rfl
@[simp] theorem ignoreWrite_result1 : (s.ignoreWrite).result1 = s.result1 := rfl
@[simp] theorem ignoreWrite_freq : (s.ignoreWrite).freq = s.freq := rfl
@[simp] theorem ignoreWrite_nodes : (s.ignoreWrite).nodes = s.nodes := rfl
@[simp] theorem ignoreWrite_root : (s.ignoreWrite).root = s.root := rfl
@[simp] theorem ignoreWrite_code : (s.ignoreWrite).code = s.code := rfl
@[simp] theorem ignoreWrite_inBuf : (s.ignoreWrite).inBuf = s.inBuf := rfl
@[simp] theorem ignoreWrite_inAtReset : (s.ignoreWrite).inAtReset = s.inAtReset := rfl
@[simp] theorem ignoreWrite_outBuf : (s.ignoreWrite).outBuf = s.outBuf := rfl
@[simp] theorem ignoreWrite_outAtReset : (s.ignoreWrite).outAtReset = s.outAtReset := rfl
@[simp] theorem ignoreWrite_phase : (s.ignoreWrite).phase = s.phase := rfl
@[simp] theorem ignoreWrite_latch : (s.ignoreWrite).latch = s.latch := rfl
@[simp] theorem ignoreWrite_busyLeft : (s.ignoreWrite).busyLeft = s.busyLeft := rfl
@[simp] theorem ignoreWrite_schedule : (s.ignoreWrite).schedule = s.schedule := rfl
@[simp] theorem ignoreWrite_draws : (s.ignoreWrite).draws = s.draws := rfl
@[simp] theorem ignoreWrite_garbage : (s.ignoreWrite).garbage = s.garbage := rfl
@[simp] theorem ignoreWrite_host : (s.ignoreWrite).host = s.host := rfl
@[simp] theorem ignoreWrite_reads : (s.ignoreWrite).reads = s.reads := rfl

/-! ### writeInWord -/

@[simp] theorem writeInWord_params (a : Nat) (v : Word) : (s.writeInWord a v).params = s.params := rfl
@[simp] theorem writeInWord_status (a : Nat) (v : Word) : (s.writeInWord a v).status = s.status := rfl
@[simp] theorem writeInWord_arg0 (a : Nat) (v : Word) : (s.writeInWord a v).arg0 = s.arg0 := rfl
@[simp] theorem writeInWord_arg1 (a : Nat) (v : Word) : (s.writeInWord a v).arg1 = s.arg1 := rfl
@[simp] theorem writeInWord_arg2 (a : Nat) (v : Word) : (s.writeInWord a v).arg2 = s.arg2 := rfl
@[simp] theorem writeInWord_result0 (a : Nat) (v : Word) : (s.writeInWord a v).result0 = s.result0 := rfl
@[simp] theorem writeInWord_result1 (a : Nat) (v : Word) : (s.writeInWord a v).result1 = s.result1 := rfl
@[simp] theorem writeInWord_freq (a : Nat) (v : Word) : (s.writeInWord a v).freq = s.freq := rfl
@[simp] theorem writeInWord_nodes (a : Nat) (v : Word) : (s.writeInWord a v).nodes = s.nodes := rfl
@[simp] theorem writeInWord_root (a : Nat) (v : Word) : (s.writeInWord a v).root = s.root := rfl
@[simp] theorem writeInWord_code (a : Nat) (v : Word) : (s.writeInWord a v).code = s.code := rfl
@[simp] theorem writeInWord_inBuf (a : Nat) (v : Word) : (s.writeInWord a v).inBuf = s.inBuf.writeBytes a (wordBytes v) := rfl
@[simp] theorem writeInWord_inAtReset (a : Nat) (v : Word) : (s.writeInWord a v).inAtReset = s.inAtReset := rfl
@[simp] theorem writeInWord_outBuf (a : Nat) (v : Word) : (s.writeInWord a v).outBuf = s.outBuf := rfl
@[simp] theorem writeInWord_outAtReset (a : Nat) (v : Word) : (s.writeInWord a v).outAtReset = s.outAtReset := rfl
@[simp] theorem writeInWord_phase (a : Nat) (v : Word) : (s.writeInWord a v).phase = s.phase := rfl
@[simp] theorem writeInWord_latch (a : Nat) (v : Word) : (s.writeInWord a v).latch = s.latch := rfl
@[simp] theorem writeInWord_busyLeft (a : Nat) (v : Word) : (s.writeInWord a v).busyLeft = s.busyLeft := rfl
@[simp] theorem writeInWord_schedule (a : Nat) (v : Word) : (s.writeInWord a v).schedule = s.schedule := rfl
@[simp] theorem writeInWord_draws (a : Nat) (v : Word) : (s.writeInWord a v).draws = s.draws := rfl
@[simp] theorem writeInWord_garbage (a : Nat) (v : Word) : (s.writeInWord a v).garbage = s.garbage := rfl
@[simp] theorem writeInWord_host (a : Nat) (v : Word) : (s.writeInWord a v).host = s.host := rfl
@[simp] theorem writeInWord_reads (a : Nat) (v : Word) : (s.writeInWord a v).reads = s.reads := rfl

/-! ### writeOutWord -/

@[simp] theorem writeOutWord_params (a : Nat) (v : Word) : (s.writeOutWord a v).params = s.params := rfl
@[simp] theorem writeOutWord_status (a : Nat) (v : Word) : (s.writeOutWord a v).status = s.status := rfl
@[simp] theorem writeOutWord_arg0 (a : Nat) (v : Word) : (s.writeOutWord a v).arg0 = s.arg0 := rfl
@[simp] theorem writeOutWord_arg1 (a : Nat) (v : Word) : (s.writeOutWord a v).arg1 = s.arg1 := rfl
@[simp] theorem writeOutWord_arg2 (a : Nat) (v : Word) : (s.writeOutWord a v).arg2 = s.arg2 := rfl
@[simp] theorem writeOutWord_result0 (a : Nat) (v : Word) : (s.writeOutWord a v).result0 = s.result0 := rfl
@[simp] theorem writeOutWord_result1 (a : Nat) (v : Word) : (s.writeOutWord a v).result1 = s.result1 := rfl
@[simp] theorem writeOutWord_freq (a : Nat) (v : Word) : (s.writeOutWord a v).freq = s.freq := rfl
@[simp] theorem writeOutWord_nodes (a : Nat) (v : Word) : (s.writeOutWord a v).nodes = s.nodes := rfl
@[simp] theorem writeOutWord_root (a : Nat) (v : Word) : (s.writeOutWord a v).root = s.root := rfl
@[simp] theorem writeOutWord_code (a : Nat) (v : Word) : (s.writeOutWord a v).code = s.code := rfl
@[simp] theorem writeOutWord_inBuf (a : Nat) (v : Word) : (s.writeOutWord a v).inBuf = s.inBuf := rfl
@[simp] theorem writeOutWord_inAtReset (a : Nat) (v : Word) : (s.writeOutWord a v).inAtReset = s.inAtReset := rfl
@[simp] theorem writeOutWord_outBuf (a : Nat) (v : Word) : (s.writeOutWord a v).outBuf = s.outBuf.writeBytes a (wordBytes v) := rfl
@[simp] theorem writeOutWord_outAtReset (a : Nat) (v : Word) : (s.writeOutWord a v).outAtReset = s.outAtReset := rfl
@[simp] theorem writeOutWord_phase (a : Nat) (v : Word) : (s.writeOutWord a v).phase = s.phase := rfl
@[simp] theorem writeOutWord_latch (a : Nat) (v : Word) : (s.writeOutWord a v).latch = s.latch := rfl
@[simp] theorem writeOutWord_busyLeft (a : Nat) (v : Word) : (s.writeOutWord a v).busyLeft = s.busyLeft := rfl
@[simp] theorem writeOutWord_schedule (a : Nat) (v : Word) : (s.writeOutWord a v).schedule = s.schedule := rfl
@[simp] theorem writeOutWord_draws (a : Nat) (v : Word) : (s.writeOutWord a v).draws = s.draws := rfl
@[simp] theorem writeOutWord_garbage (a : Nat) (v : Word) : (s.writeOutWord a v).garbage = s.garbage := rfl
@[simp] theorem writeOutWord_host (a : Nat) (v : Word) : (s.writeOutWord a v).host = s.host := rfl
@[simp] theorem writeOutWord_reads (a : Nat) (v : Word) : (s.writeOutWord a v).reads = s.reads := rfl

/-! ### enterReset -/

@[simp] theorem enterReset_params : (s.enterReset).params = s.params := rfl
@[simp] theorem enterReset_status : (s.enterReset).status = { s.status with wrIgnored := false } := rfl
@[simp] theorem enterReset_arg0 : (s.enterReset).arg0 = s.arg0 := rfl
@[simp] theorem enterReset_arg1 : (s.enterReset).arg1 = s.arg1 := rfl
@[simp] theorem enterReset_arg2 : (s.enterReset).arg2 = s.arg2 := rfl
@[simp] theorem enterReset_result0 : (s.enterReset).result0 = s.result0 := rfl
@[simp] theorem enterReset_result1 : (s.enterReset).result1 = s.result1 := rfl
@[simp] theorem enterReset_freq : (s.enterReset).freq = s.freq := rfl
@[simp] theorem enterReset_nodes : (s.enterReset).nodes = s.nodes := rfl
@[simp] theorem enterReset_root : (s.enterReset).root = s.root := rfl
@[simp] theorem enterReset_code : (s.enterReset).code = s.code := rfl
@[simp] theorem enterReset_inBuf : (s.enterReset).inBuf = [] := rfl
@[simp] theorem enterReset_inAtReset : (s.enterReset).inAtReset = s.inBuf.over s.inAtReset := rfl
@[simp] theorem enterReset_outBuf : (s.enterReset).outBuf = [] := rfl
@[simp] theorem enterReset_outAtReset : (s.enterReset).outAtReset = s.outBuf.over s.outAtReset := rfl
@[simp] theorem enterReset_phase : (s.enterReset).phase = Phase.init .held := rfl
@[simp] theorem enterReset_latch : (s.enterReset).latch = s.latch := rfl
@[simp] theorem enterReset_busyLeft : (s.enterReset).busyLeft = s.busyLeft := rfl
@[simp] theorem enterReset_schedule : (s.enterReset).schedule = s.schedule := rfl
@[simp] theorem enterReset_draws : (s.enterReset).draws = s.draws := rfl
@[simp] theorem enterReset_garbage : (s.enterReset).garbage = s.garbage + 1 := rfl
@[simp] theorem enterReset_host : (s.enterReset).host = s.host := rfl
@[simp] theorem enterReset_reads : (s.enterReset).reads = s.reads := rfl

/-! ### powerCycle -/

@[simp] theorem powerCycle_params : (s.powerCycle).params = s.params := rfl
@[simp] theorem powerCycle_status : (s.powerCycle).status = Status.reset := rfl
@[simp] theorem powerCycle_arg0 : (s.powerCycle).arg0 = 0 := rfl
@[simp] theorem powerCycle_arg1 : (s.powerCycle).arg1 = 0 := rfl
@[simp] theorem powerCycle_arg2 : (s.powerCycle).arg2 = 0 := rfl
@[simp] theorem powerCycle_result0 : (s.powerCycle).result0 = 0 := rfl
@[simp] theorem powerCycle_result1 : (s.powerCycle).result1 = 0 := rfl
@[simp] theorem powerCycle_freq : (s.powerCycle).freq = Vector.replicate 256 { present := false, count := 0 } := rfl
@[simp] theorem powerCycle_nodes : (s.powerCycle).nodes = Vector.replicate 255 Node.cleared := rfl
@[simp] theorem powerCycle_root : (s.powerCycle).root = Ref.leaf 0 := rfl
@[simp] theorem powerCycle_code : (s.powerCycle).code = Vector.replicate 256 none := rfl
@[simp] theorem powerCycle_inBuf : (s.powerCycle).inBuf = [] := rfl
@[simp] theorem powerCycle_inAtReset : (s.powerCycle).inAtReset = [] := rfl
@[simp] theorem powerCycle_outBuf : (s.powerCycle).outBuf = [] := rfl
@[simp] theorem powerCycle_outAtReset : (s.powerCycle).outAtReset = [] := rfl
@[simp] theorem powerCycle_phase : (s.powerCycle).phase = Phase.init .held := rfl
@[simp] theorem powerCycle_latch : (s.powerCycle).latch = { word := 0, arg0 := 0, arg1 := 0, arg2 := 0 } := rfl
@[simp] theorem powerCycle_busyLeft : (s.powerCycle).busyLeft = s.busyLeft := rfl
@[simp] theorem powerCycle_schedule : (s.powerCycle).schedule = s.schedule := rfl
@[simp] theorem powerCycle_draws : (s.powerCycle).draws = s.draws := rfl
@[simp] theorem powerCycle_garbage : (s.powerCycle).garbage = s.garbage + 1 := rfl
@[simp] theorem powerCycle_host : (s.powerCycle).host = s.host := rfl
@[simp] theorem powerCycle_reads : (s.powerCycle).reads = s.reads := rfl

/-! ### recordRead -/

@[simp] theorem recordRead_params (off : Offset) : (s.recordRead off).params = s.params := rfl
@[simp] theorem recordRead_status (off : Offset) : (s.recordRead off).status = s.status := rfl
@[simp] theorem recordRead_arg0 (off : Offset) : (s.recordRead off).arg0 = s.arg0 := rfl
@[simp] theorem recordRead_arg1 (off : Offset) : (s.recordRead off).arg1 = s.arg1 := rfl
@[simp] theorem recordRead_arg2 (off : Offset) : (s.recordRead off).arg2 = s.arg2 := rfl
@[simp] theorem recordRead_result0 (off : Offset) : (s.recordRead off).result0 = s.result0 := rfl
@[simp] theorem recordRead_result1 (off : Offset) : (s.recordRead off).result1 = s.result1 := rfl
@[simp] theorem recordRead_freq (off : Offset) : (s.recordRead off).freq = s.freq := rfl
@[simp] theorem recordRead_nodes (off : Offset) : (s.recordRead off).nodes = s.nodes := rfl
@[simp] theorem recordRead_root (off : Offset) : (s.recordRead off).root = s.root := rfl
@[simp] theorem recordRead_code (off : Offset) : (s.recordRead off).code = s.code := rfl
@[simp] theorem recordRead_inBuf (off : Offset) : (s.recordRead off).inBuf = s.inBuf := rfl
@[simp] theorem recordRead_inAtReset (off : Offset) : (s.recordRead off).inAtReset = s.inAtReset := rfl
@[simp] theorem recordRead_outBuf (off : Offset) : (s.recordRead off).outBuf = s.outBuf := rfl
@[simp] theorem recordRead_outAtReset (off : Offset) : (s.recordRead off).outAtReset = s.outAtReset := rfl
@[simp] theorem recordRead_phase (off : Offset) : (s.recordRead off).phase = s.phase := rfl
@[simp] theorem recordRead_latch (off : Offset) : (s.recordRead off).latch = s.latch := rfl
@[simp] theorem recordRead_busyLeft (off : Offset) : (s.recordRead off).busyLeft = s.busyLeft := rfl
@[simp] theorem recordRead_schedule (off : Offset) : (s.recordRead off).schedule = s.schedule := rfl
@[simp] theorem recordRead_draws (off : Offset) : (s.recordRead off).draws = s.draws := rfl
@[simp] theorem recordRead_garbage (off : Offset) : (s.recordRead off).garbage = s.garbage := rfl
@[simp] theorem recordRead_host (off : Offset) : (s.recordRead off).host = s.host := rfl
@[simp] theorem recordRead_reads (off : Offset) : (s.recordRead off).reads = { off := off, val := s.hostRead off } :: s.reads := rfl

/-! ### initSequence -/

@[simp] theorem initSequence_params : (s.initSequence).params = s.params := rfl
@[simp] theorem initSequence_status : (s.initSequence).status = { Status.reset with wrIgnored := s.status.wrIgnored } := rfl
@[simp] theorem initSequence_arg0 : (s.initSequence).arg0 = 0 := rfl
@[simp] theorem initSequence_arg1 : (s.initSequence).arg1 = 0 := rfl
@[simp] theorem initSequence_arg2 : (s.initSequence).arg2 = 0 := rfl
@[simp] theorem initSequence_result0 : (s.initSequence).result0 = 0 := rfl
@[simp] theorem initSequence_result1 : (s.initSequence).result1 = 0 := rfl
@[simp] theorem initSequence_freq : (s.initSequence).freq = Vector.replicate 256 { present := false, count := 0 } := rfl
@[simp] theorem initSequence_nodes : (s.initSequence).nodes = Vector.replicate 255 Node.cleared := rfl
@[simp] theorem initSequence_root : (s.initSequence).root = Ref.leaf 0 := rfl
@[simp] theorem initSequence_code : (s.initSequence).code = Vector.replicate 256 none := rfl
@[simp] theorem initSequence_inBuf : (s.initSequence).inBuf = s.inBuf := rfl
@[simp] theorem initSequence_inAtReset : (s.initSequence).inAtReset = s.inAtReset := rfl
@[simp] theorem initSequence_outBuf : (s.initSequence).outBuf = s.outBuf := rfl
@[simp] theorem initSequence_outAtReset : (s.initSequence).outAtReset = s.outAtReset := rfl
@[simp] theorem initSequence_phase : (s.initSequence).phase = Phase.init .set := rfl
@[simp] theorem initSequence_latch : (s.initSequence).latch = { word := 0, arg0 := 0, arg1 := 0, arg2 := 0 } := rfl
@[simp] theorem initSequence_busyLeft : (s.initSequence).busyLeft = s.busyLeft := rfl
@[simp] theorem initSequence_schedule : (s.initSequence).schedule = s.schedule := rfl
@[simp] theorem initSequence_draws : (s.initSequence).draws = s.draws := rfl
@[simp] theorem initSequence_garbage : (s.initSequence).garbage = s.garbage := rfl
@[simp] theorem initSequence_host : (s.initSequence).host = s.host := rfl
@[simp] theorem initSequence_reads : (s.initSequence).reads = s.reads := rfl

/-! ### endInit -/

@[simp] theorem endInit_params : (s.endInit).params = s.params := rfl
@[simp] theorem endInit_status : (s.endInit).status = s.status := rfl
@[simp] theorem endInit_arg0 : (s.endInit).arg0 = s.arg0 := rfl
@[simp] theorem endInit_arg1 : (s.endInit).arg1 = s.arg1 := rfl
@[simp] theorem endInit_arg2 : (s.endInit).arg2 = s.arg2 := rfl
@[simp] theorem endInit_result0 : (s.endInit).result0 = s.result0 := rfl
@[simp] theorem endInit_result1 : (s.endInit).result1 = s.result1 := rfl
@[simp] theorem endInit_freq : (s.endInit).freq = s.freq := rfl
@[simp] theorem endInit_nodes : (s.endInit).nodes = s.nodes := rfl
@[simp] theorem endInit_root : (s.endInit).root = s.root := rfl
@[simp] theorem endInit_code : (s.endInit).code = s.code := rfl
@[simp] theorem endInit_inBuf : (s.endInit).inBuf = s.inBuf := rfl
@[simp] theorem endInit_inAtReset : (s.endInit).inAtReset = s.inAtReset := rfl
@[simp] theorem endInit_outBuf : (s.endInit).outBuf = s.outBuf := rfl
@[simp] theorem endInit_outAtReset : (s.endInit).outAtReset = s.outAtReset := rfl
@[simp] theorem endInit_phase : (s.endInit).phase = Phase.idle := rfl
@[simp] theorem endInit_latch : (s.endInit).latch = s.latch := rfl
@[simp] theorem endInit_busyLeft : (s.endInit).busyLeft = s.busyLeft := rfl
@[simp] theorem endInit_schedule : (s.endInit).schedule = s.schedule := rfl
@[simp] theorem endInit_draws : (s.endInit).draws = s.draws := rfl
@[simp] theorem endInit_garbage : (s.endInit).garbage = s.garbage := rfl
@[simp] theorem endInit_host : (s.endInit).host = s.host := rfl
@[simp] theorem endInit_reads : (s.endInit).reads = s.reads := rfl

/-! ### drawBusy: the time to the engine's next event, and the two fields it is drawn from -/

@[simp] theorem drawBusy_params : s.drawBusy.params = s.params := by unfold State.drawBusy; split <;> rfl
@[simp] theorem drawBusy_status : s.drawBusy.status = s.status := by unfold State.drawBusy; split <;> rfl
@[simp] theorem drawBusy_arg0 : s.drawBusy.arg0 = s.arg0 := by unfold State.drawBusy; split <;> rfl
@[simp] theorem drawBusy_arg1 : s.drawBusy.arg1 = s.arg1 := by unfold State.drawBusy; split <;> rfl
@[simp] theorem drawBusy_arg2 : s.drawBusy.arg2 = s.arg2 := by unfold State.drawBusy; split <;> rfl
@[simp] theorem drawBusy_result0 : s.drawBusy.result0 = s.result0 := by unfold State.drawBusy; split <;> rfl
@[simp] theorem drawBusy_result1 : s.drawBusy.result1 = s.result1 := by unfold State.drawBusy; split <;> rfl
@[simp] theorem drawBusy_freq : s.drawBusy.freq = s.freq := by unfold State.drawBusy; split <;> rfl
@[simp] theorem drawBusy_nodes : s.drawBusy.nodes = s.nodes := by unfold State.drawBusy; split <;> rfl
@[simp] theorem drawBusy_root : s.drawBusy.root = s.root := by unfold State.drawBusy; split <;> rfl
@[simp] theorem drawBusy_code : s.drawBusy.code = s.code := by unfold State.drawBusy; split <;> rfl
@[simp] theorem drawBusy_inBuf : s.drawBusy.inBuf = s.inBuf := by unfold State.drawBusy; split <;> rfl
@[simp] theorem drawBusy_inAtReset : s.drawBusy.inAtReset = s.inAtReset := by unfold State.drawBusy; split <;> rfl
@[simp] theorem drawBusy_outBuf : s.drawBusy.outBuf = s.outBuf := by unfold State.drawBusy; split <;> rfl
@[simp] theorem drawBusy_outAtReset : s.drawBusy.outAtReset = s.outAtReset := by unfold State.drawBusy; split <;> rfl
@[simp] theorem drawBusy_phase : s.drawBusy.phase = s.phase := by unfold State.drawBusy; split <;> rfl
@[simp] theorem drawBusy_latch : s.drawBusy.latch = s.latch := by unfold State.drawBusy; split <;> rfl
@[simp] theorem drawBusy_garbage : s.drawBusy.garbage = s.garbage := by unfold State.drawBusy; split <;> rfl
@[simp] theorem drawBusy_host : s.drawBusy.host = s.host := by unfold State.drawBusy; split <;> rfl
@[simp] theorem drawBusy_reads : s.drawBusy.reads = s.reads := by unfold State.drawBusy; split <;> rfl

/-! ### accept: latchCommand with a drawn time -/

@[simp] theorem accept_params (w : Word) : (s.accept w).params = s.params := by simp [State.accept]
@[simp] theorem accept_status (w : Word) : (s.accept w).status = { s.status with done := false, err := false, wrIgnored := false, errCode := ErrCode.none, lastOp := wordByte w 0 } := by simp [State.accept]
@[simp] theorem accept_arg0 (w : Word) : (s.accept w).arg0 = s.arg0 := by simp [State.accept]
@[simp] theorem accept_arg1 (w : Word) : (s.accept w).arg1 = s.arg1 := by simp [State.accept]
@[simp] theorem accept_arg2 (w : Word) : (s.accept w).arg2 = s.arg2 := by simp [State.accept]
@[simp] theorem accept_result0 (w : Word) : (s.accept w).result0 = s.result0 := by simp [State.accept]
@[simp] theorem accept_result1 (w : Word) : (s.accept w).result1 = s.result1 := by simp [State.accept]
@[simp] theorem accept_freq (w : Word) : (s.accept w).freq = s.freq := by simp [State.accept]
@[simp] theorem accept_nodes (w : Word) : (s.accept w).nodes = s.nodes := by simp [State.accept]
@[simp] theorem accept_root (w : Word) : (s.accept w).root = s.root := by simp [State.accept]
@[simp] theorem accept_code (w : Word) : (s.accept w).code = s.code := by simp [State.accept]
@[simp] theorem accept_inBuf (w : Word) : (s.accept w).inBuf = s.inBuf := by simp [State.accept]
@[simp] theorem accept_inAtReset (w : Word) : (s.accept w).inAtReset = s.inAtReset := by simp [State.accept]
@[simp] theorem accept_outBuf (w : Word) : (s.accept w).outBuf = s.outBuf := by simp [State.accept]
@[simp] theorem accept_outAtReset (w : Word) : (s.accept w).outAtReset = s.outAtReset := by simp [State.accept]
@[simp] theorem accept_phase (w : Word) : (s.accept w).phase = Phase.exec := by simp [State.accept]
@[simp] theorem accept_latch (w : Word) : (s.accept w).latch = { word := w, arg0 := s.arg0, arg1 := s.arg1, arg2 := s.arg2 } := by simp [State.accept]
@[simp] theorem accept_garbage (w : Word) : (s.accept w).garbage = s.garbage := by simp [State.accept]
@[simp] theorem accept_host (w : Word) : (s.accept w).host = s.host := by simp [State.accept]
@[simp] theorem accept_reads (w : Word) : (s.accept w).reads = s.reads := by simp [State.accept]

/-- A draw changes no field but the three of the free time. -/
theorem drawBusy_eq : ∃ b sch d, s.drawBusy = { s with busyLeft := b, schedule := sch, draws := d } := by
  unfold State.drawBusy
  split
  · exact ⟨_, _, s.draws, rfl⟩
  · exact ⟨_, s.schedule, _, rfl⟩

end Sys2Proof.Machine
end

