-- ==== Sys2Proof/Laws/Exec.lean ====
section
/-! SUPPORT. All that each command can answer, said once, and the frame that all of them share. -/

namespace Sys2Proof.Machine

/-! ### Command by command -/

/-- NOP has one outcome. -/
theorem execNop_eq (s : State) : execNop s = .next (s.completeOk 0 0) := rfl

/-- An illegal word has one outcome. -/
theorem execIllegal_eq (s : State) : execIllegal s = .next (s.completeErr .illegal) := rfl

/-- All that BUILD can do. -/
theorem execBuild_cases (s : State) :
    (initialPool s.freq = [] ∧ execBuild s = .next (s.completeErr .emptyFreq)) ∨
    (initialPool s.freq ≠ [] ∧
      execBuild s = .next
        ((s.installTree
          (arenaOf (mergeLoop s.params.select (maxLabel (initialPool s.freq)) ((initialPool s.freq).length - 1) 0
            (initialPool s.freq)))
          (builtRoot (initialPool s.freq))).completeOk
          (toWord (initialPool s.freq).length) (toWord ((initialPool s.freq).length - 1)))) := by
  unfold execBuild
  cases h : initialPool s.freq with
  | nil => left; simp
  | cons e p => right; simp

/-- All that NUMBER can do. -/
theorem execNumber_cases (s : State) :
    (s.status.treeValid = false ∧ execNumber s = .next (s.completeErr .noTree)) ∨
    (s.status.treeValid = true ∧ s.tree = none ∧ execNumber s = .fault .arenaNotATree) ∨
    ∃ t, s.status.treeValid = true ∧ s.tree = some t ∧
      execNumber s = .next
        ({ s with
            nodes := numberFrom (clearNumbers s.nodes) 0 t.postorder
            status := { s.status with numbered := true } }.completeOk (toWord t.postorder.length) 0) := by
  unfold execNumber State.theTree
  cases hv : s.status.treeValid <;> cases ht : s.tree <;> simp

/-- All that GENCODES can do. -/
theorem execGenCodes_cases (s : State) :
    (s.status.treeValid = false ∧ execGenCodes s = .next (s.completeErr .noTree)) ∨
    (s.status.treeValid = true ∧ s.tree = none ∧ execGenCodes s = .fault .arenaNotATree) ∨
    ∃ t, s.status.treeValid = true ∧ s.tree = some t ∧
      execGenCodes s = .next
        ({ s with code := t.codeTable, status := { s.status with codesValid := true } }.completeOk
          (toWord (codeCount t.codeTable)) (toWord (longestCode t.codeTable))) := by
  unfold execGenCodes State.theTree
  cases hv : s.status.treeValid <;> cases ht : s.tree <;> simp

/-- All that SERIALIZE can do. -/
theorem execSerialize_cases (s : State) :
    (s.status.treeValid = false ∧ execSerialize s = .next (s.completeErr .noTree)) ∨
    (s.status.treeValid = true ∧ s.status.numbered = false ∧ execSerialize s = .next (s.completeErr .notNumbered)) ∨
    (s.status.treeValid = true ∧ s.status.numbered = true ∧
      ((s.tree = none ∧ execSerialize s = .fault .arenaNotATree) ∨
      ∃ t, s.tree = some t ∧
        ((treeRecords s.nodes t = none ∧ execSerialize s = .fault .numberMissing) ∨
        ∃ recs, treeRecords s.nodes t = some recs ∧
          ((s.params.outBytes < s.opArg0 + (1 + 4 * recs.length) ∧ execSerialize s = .next (s.completeErr .range)) ∨
          (s.opArg0 + (1 + 4 * recs.length) ≤ s.params.outBytes ∧
            execSerialize s = .next ((s.outWrite s.opArg0 (headerBytes recs)).completeOk
              (toWord (1 + 4 * recs.length)) (toWord recs.length))))))) := by
  unfold execSerialize State.theTree
  cases hv : s.status.treeValid
  · simp
  cases hn : s.status.numbered
  · simp
  cases ht : s.tree with
  | none => simp
  | some t =>
    cases hr : treeRecords s.nodes t with
    | none => simp [hr]
    | some recs =>
      by_cases hb : s.opArg0 + (1 + 4 * recs.length) ≤ s.params.outBytes
      · simp [hr, inRange, State.headerDst, hb, Nat.not_lt.2 hb]
      · simp [hr, inRange, State.headerDst, hb, Nat.not_le.1 hb]

/-- All that DESER_GENERAL can do, once the header is read. -/
theorem execDeserGeneral_cases (s : State) :
    (∃ c, parseHeader s true s.headerArgs = .error (.raise c) ∧ execDeserGeneral s = .next (s.completeErr c)) ∨
    (∃ f, parseHeader s true s.headerArgs = .error (.stop f) ∧ execDeserGeneral s = .fault f) ∨
    ∃ recs, parseHeader s true s.headerArgs = .ok recs ∧
      ((indicesInRange recs = false ∧ execDeserGeneral s = .next (s.completeErr .dangling)) ∨
      (indicesInRange recs = true ∧
        ((∃ c, checkShape recs s.opArg2 = .error (.raise c) ∧ execDeserGeneral s = .next (s.completeErr c)) ∨
        (∃ f, checkShape recs s.opArg2 = .error (.stop f) ∧ execDeserGeneral s = .fault f) ∨
        ∃ seen, checkShape recs s.opArg2 = .ok seen ∧
          execDeserGeneral s = .next
            ((s.installTree (arenaOf (recs.map recNode)) (.int (slotOf s.opArg2))).completeOk
              (toWord (1 + 4 * recs.length)) (toWord recs.length))))) := by
  unfold execDeserGeneral
  have hroot : s.headerArgs.root = s.opArg2 := rfl
  rcases hp : parseHeader s true s.headerArgs with (c | f) | recs
  · simp [hp]
  · simp [hp]
  · cases hi : indicesInRange recs
    · simp [hp, hi]
    · rcases hc : checkShape recs s.opArg2 with (c | f) | seen <;> simp [hp, hi, hc, hroot]

/-- All that DESER_POSTORDER can do, once the header is read. -/
theorem execDeserPostorder_cases (s : State) :
    (∃ c, parseHeader s false s.headerArgs = .error (.raise c) ∧ execDeserPostorder s = .next (s.completeErr c)) ∨
    (∃ f, parseHeader s false s.headerArgs = .error (.stop f) ∧ execDeserPostorder s = .fault f) ∨
    ∃ recs, parseHeader s false s.headerArgs = .ok recs ∧
      ((∃ c, buildPostorder 0 [] (recs.take (s.opArg2 + 1)) = .error (.raise c) ∧
        execDeserPostorder s = .next (s.completeErr c)) ∨
      (∃ f, buildPostorder 0 [] (recs.take (s.opArg2 + 1)) = .error (.stop f) ∧ execDeserPostorder s = .fault f) ∨
      ∃ nodes, buildPostorder 0 [] (recs.take (s.opArg2 + 1)) = .ok nodes ∧
        execDeserPostorder s = .next
          ((s.installTree (arenaOf nodes) (.int (slotOf s.opArg2))).completeOk
            (toWord (1 + 4 * recs.length)) (toWord recs.length))) := by
  unfold execDeserPostorder
  have hroot : s.headerArgs.root = s.opArg2 := rfl
  rcases hp : parseHeader s false s.headerArgs with (c | f) | recs
  · simp [hp]
  · simp [hp]
  · rcases hc : buildPostorder 0 [] (recs.take (s.opArg2 + 1)) with (c | f) | nodes <;> simp [hp, hc, hroot]

/-- All that PACK can do. -/
theorem execPack_cases (s : State) :
    (s.params.inBytes < s.opArg0 + s.opArg1 ∧ execPack s = .next (s.completeErr .range)) ∨
    (s.opArg0 + s.opArg1 ≤ s.params.inBytes ∧
      ((∃ c, codeStream s s.opArg1 s.opArg0 = .error (.raise c) ∧ execPack s = .next (s.completeErr c)) ∨
      (∃ f, codeStream s s.opArg1 s.opArg0 = .error (.stop f) ∧ execPack s = .fault f) ∨
      ∃ bits, codeStream s s.opArg1 s.opArg0 = .ok bits ∧
        ((s.params.outBytes < s.opArg2 + (4 + ceilDiv bits.length 8) ∧ execPack s = .next (s.completeErr .range)) ∨
        (s.opArg2 + (4 + ceilDiv bits.length 8) ≤ s.params.outBytes ∧
          execPack s = .next ((s.outWrite s.opArg2 (sizedPayload s.opArg1 bits)).completeOk
            (toWord (4 + ceilDiv bits.length 8)) (toWord bits.length)))))) := by
  unfold execPack
  by_cases hr : s.opArg0 + s.opArg1 ≤ s.params.inBytes
  · rcases hc : codeStream s s.opArg1 s.opArg0 with (c | f) | bits
    · simp [State.streamArgs, inRange, hr, hc, Nat.not_lt.2 hr]
    · simp [State.streamArgs, inRange, hr, hc, Nat.not_lt.2 hr]
    · by_cases hb : s.opArg2 + (4 + ceilDiv bits.length 8) ≤ s.params.outBytes
      · simp [State.streamArgs, inRange, hr, hc, hb, Nat.not_lt.2 hr, Nat.not_lt.2 hb]
      · simp [State.streamArgs, inRange, hr, hc, hb, Nat.not_lt.2 hr, Nat.not_le.1 hb]
  · simp [State.streamArgs, inRange, hr, Nat.not_le.1 hr]

/-- All that UNPACK can do, once its operands are checked and its size field is read. -/
theorem execUnpack_cases (s : State) :
    (s.params.inBytes < s.opArg0 + s.opArg1 ∧ execUnpack s = .next (s.completeErr .range)) ∨
    (s.opArg0 + s.opArg1 ≤ s.params.inBytes ∧
      ((s.opArg1 < 4 ∧ execUnpack s = .next (s.completeErr .malformed)) ∨
      (4 ≤ s.opArg1 ∧
        ((∃ c, s.inRead s.opArg0 4 = .error (.raise c) ∧ execUnpack s = .next (s.completeErr c)) ∨
        (∃ f, s.inRead s.opArg0 4 = .error (.stop f) ∧ execUnpack s = .fault f) ∨
        ∃ field, s.inRead s.opArg0 4 = .ok field ∧
          ((bytesToNat field = 0 ∧ execUnpack s = .next (s.completeOk 0 0)) ∨
          (bytesToNat field ≠ 0 ∧
            ((s.status.treeValid = false ∧ execUnpack s = .next (s.completeErr .noTree)) ∨
            (s.status.treeValid = true ∧
              ((s.params.outBytes < s.opArg2 + bytesToNat field ∧ execUnpack s = .next (s.completeErr .range)) ∨
              (s.opArg2 + bytesToNat field ≤ s.params.outBytes ∧
                ((∃ c, decodeSymbols s (s.opArg0 + 4) (8 * (s.opArg1 - 4)) (bytesToNat field) 0 = .error (.raise c) ∧
                  execUnpack s = .next (s.completeErr c)) ∨
                (∃ f, decodeSymbols s (s.opArg0 + 4) (8 * (s.opArg1 - 4)) (bytesToNat field) 0 = .error (.stop f) ∧
                  execUnpack s = .fault f) ∨
                ∃ out t, decodeSymbols s (s.opArg0 + 4) (8 * (s.opArg1 - 4)) (bytesToNat field) 0 = .ok (out, t) ∧
                  execUnpack s = .next ((s.outWrite s.opArg2 out).completeOk (toWord (bytesToNat field)) (toWord t))))))))))))) := by
  unfold execUnpack
  by_cases hr : s.opArg0 + s.opArg1 ≤ s.params.inBytes
  swap
  · simp [State.streamArgs, inRange, hr, Nat.not_le.1 hr]
  by_cases h4 : s.opArg1 < 4
  · simp [State.streamArgs, inRange, hr, h4]
  have h4' : 4 ≤ s.opArg1 := Nat.not_lt.1 h4
  rcases hi : s.inRead s.opArg0 4 with (c | f) | field
  · simp [State.streamArgs, inRange, hr, h4, h4', hi]
  · simp [State.streamArgs, inRange, hr, h4, h4', hi]
  by_cases hz : bytesToNat field = 0
  · simp [State.streamArgs, inRange, hr, h4, h4', hi, hz]
  cases hv : s.status.treeValid
  · simp [State.streamArgs, inRange, hr, h4, h4', hi, hz]
  by_cases hb : s.opArg2 + bytesToNat field ≤ s.params.outBytes
  swap
  · simp [State.streamArgs, inRange, hr, h4, h4', hi, hz, hb, Nat.not_le.1 hb]
  rcases hd : decodeSymbols s (s.opArg0 + 4) (8 * (s.opArg1 - 4)) (bytesToNat field) 0 with (c | f) | ⟨out, t⟩ <;>
    simp [State.streamArgs, inRange, hr, h4, h4', hi, hz, hb, hd]

end Sys2Proof.Machine
end

