-- ==== Sys2Proof/Laws/Host.lean ====
section
/-! SUPPORT. Sizes of buffers, and what the address map gives for an offset. -/

namespace Sys2Proof.Machine

theorem bufferSizeWellFormed_iff (n : Nat) : bufferSizeWellFormed n = true ↔ n % 4 = 0 ∧ 4 ≤ n ∧ n ≤ 2 ^ 24 := by
  unfold bufferSizeWellFormed
  exact decide_eq_true_iff

theorem params_wellFormed_iff (p : Params) : p.wellFormed = true ↔
    (p.inBytes % 4 = 0 ∧ 4 ≤ p.inBytes ∧ p.inBytes ≤ 2 ^ 24) ∧
    (p.outBytes % 4 = 0 ∧ 4 ≤ p.outBytes ∧ p.outBytes ≤ 2 ^ 24) := by
  rw [Params.wellFormed, Bool.and_eq_true, bufferSizeWellFormed_iff, bufferSizeWellFormed_iff]

/-- An access acts on the word its offset lies in (20_memory.md R82). -/
theorem wordOffset_eq (off : Offset) : wordOffset off = 4 * (off.toNat / 4) := by
  unfold wordOffset
  omega

/-- Only the buffer windows name words of a buffer. -/
theorem regAt_buffer {p : Params} {w a : Nat} (h : regAt p w = .inWord a ∨ regAt p w = .outWord a) :
    regAt p w = bufferReg p w := by
  have control : ∀ k, controlReg k ≠ .inWord a ∧ controlReg k ≠ .outWord a := by
    intro k
    unfold controlReg
    split <;> simp
  have freq : freqReg w ≠ .inWord a ∧ freqReg w ≠ .outWord a := by
    unfold freqReg
    split_ifs <;> simp
  have node : nodeReg w ≠ .inWord a ∧ nodeReg w ≠ .outWord a := by
    unfold nodeReg
    split_ifs <;> simp
  have code : codeReg w ≠ .inWord a ∧ codeReg w ≠ .outWord a := by
    unfold codeReg
    split_ifs <;> simp
  unfold regAt at h ⊢
  split
  · rw [if_pos ‹_›] at h
    exact absurd h (not_or.2 (control _))
  rw [if_neg ‹_›] at h
  split
  · rw [if_pos ‹_›] at h
    exact absurd h (not_or.2 freq)
  rw [if_neg ‹_›] at h
  split
  · rw [if_pos ‹_›] at h
    exact absurd h (not_or.2 node)
  rw [if_neg ‹_›] at h
  split
  · rw [if_pos ‹_›] at h
    exact absurd h (not_or.2 code)
  · rfl

/-- Which offsets name a word of IN, and that the whole word lies in IN. -/
theorem regOf_inWord {p : Params} {off : Offset} {a : Nat} (hp : p.wellFormed = true) (h : regOf p off = .inWord a) :
    wordOffset off = 0x1000000 + a ∧ a % 4 = 0 ∧ a + 4 ≤ p.inBytes := by
  obtain ⟨⟨h4, _, hle⟩, -⟩ := (params_wellFormed_iff p).1 hp
  have hw := wordOffset_eq off
  unfold regOf at h
  rw [regAt_buffer (.inl h)] at h
  unfold bufferReg at h
  split_ifs at h
  simp only [HostReg.inWord.injEq] at h
  omega

/-- Which offsets name a word of OUT, and that the whole word lies in OUT. -/
theorem regOf_outWord {p : Params} {off : Offset} {a : Nat} (hp : p.wellFormed = true) (h : regOf p off = .outWord a) :
    wordOffset off = 0x2000000 + a ∧ a % 4 = 0 ∧ a + 4 ≤ p.outBytes := by
  obtain ⟨-, h4, _, hle⟩ := (params_wellFormed_iff p).1 hp
  have hw := wordOffset_eq off
  unfold regOf at h
  rw [regAt_buffer (.inr h)] at h
  unfold bufferReg at h
  split_ifs at h
  simp only [HostReg.outWord.injEq] at h
  omega

/-! ### The word each window's offset names -/

/-- An offset below 2^26 is itself, and names what its own word does. -/
theorem regOf_ofNat (p : Params) {n : Nat} (hn : n < 2 ^ 26) (h4 : n % 4 = 0) : regOf p (BitVec.ofNat 26 n) = regAt p n := by
  unfold regOf
  rw [wordOffset_eq, BitVec.toNat_ofNat, Nat.mod_eq_of_lt hn]
  congr 1
  omega

theorem regOf_freqPresent (p : Params) (j : Fin 8) : regOf p (BitVec.ofNat 26 (0x100 + 4 * j.val)) = .freqPresent j := by
  have := j.isLt
  rw [regOf_ofNat p (by omega) (by omega), regAt, if_neg (by omega), if_pos (by omega), freqReg, if_pos (by omega)]
  congr 1
  ext
  simp only [Fin.ofNat]
  omega

theorem regOf_freqCount (p : Params) (i : Fin 256) : regOf p (BitVec.ofNat 26 (0x400 + 4 * i.val)) = .freqCount i := by
  have := i.isLt
  rw [regOf_ofNat p (by omega) (by omega), regAt, if_neg (by omega), if_pos (by omega), freqReg, if_neg (by omega),
    if_neg (by omega)]
  congr 1
  ext
  simp only [Fin.ofNat]
  omega

theorem regOf_nodeChild (p : Params) (i : Fin 255) : regOf p (BitVec.ofNat 26 (0x800 + 8 * i.val)) = .nodeChild i := by
  have := i.isLt
  rw [regOf_ofNat p (by omega) (by omega), regAt, if_neg (by omega), if_neg (by omega), if_pos (by omega), nodeReg,
    if_pos (by omega), if_pos (by omega)]
  congr 1
  ext
  simp only [slotOf, Fin.ofNat]
  omega

theorem regOf_nodeNum (p : Params) (i : Fin 255) : regOf p (BitVec.ofNat 26 (0x804 + 8 * i.val)) = .nodeNum i := by
  have := i.isLt
  rw [regOf_ofNat p (by omega) (by omega), regAt, if_neg (by omega), if_neg (by omega), if_pos (by omega), nodeReg,
    if_pos (by omega), if_neg (by omega)]
  congr 1
  ext
  simp only [slotOf, Fin.ofNat]
  omega

theorem regOf_codeMeta (p : Params) (i : Fin 256) : regOf p (BitVec.ofNat 26 (0x1000 + 4 * i.val)) = .codeMeta i := by
  have := i.isLt
  rw [regOf_ofNat p (by omega) (by omega), regAt, if_neg (by omega), if_neg (by omega), if_neg (by omega),
    if_pos (by omega), codeReg, if_pos (by omega)]
  congr 1
  ext
  simp only [Fin.ofNat]
  omega

theorem regOf_codeBits (p : Params) (i : Fin 256) (j : Fin 8) :
    regOf p (BitVec.ofNat 26 (0x2000 + 32 * i.val + 4 * j.val)) = .codeBits i j := by
  have := i.isLt
  have := j.isLt
  rw [regOf_ofNat p (by omega) (by omega), regAt, if_neg (by omega), if_neg (by omega), if_neg (by omega),
    if_pos (by omega), codeReg, if_neg (by omega), if_neg (by omega)]
  congr 1 <;> ext <;> simp only [Fin.ofNat] <;> omega

theorem regOf_inWindow {p : Params} (hp : p.wellFormed = true) {k : Nat} (hk : 4 * k < p.inBytes) :
    regOf p (BitVec.ofNat 26 (0x1000000 + 4 * k)) = .inWord (4 * k) := by
  obtain ⟨⟨_, _, hle⟩, -⟩ := (params_wellFormed_iff p).1 hp
  rw [regOf_ofNat p (by omega) (by omega), regAt, if_neg (by omega), if_neg (by omega), if_neg (by omega), if_neg (by omega),
    bufferReg, if_neg (by omega), if_pos (by omega), if_pos (by omega), Nat.add_sub_cancel_left]

theorem regOf_outWindow {p : Params} (hp : p.wellFormed = true) {k : Nat} (hk : 4 * k < p.outBytes) :
    regOf p (BitVec.ofNat 26 (0x2000000 + 4 * k)) = .outWord (4 * k) := by
  obtain ⟨-, _, _, hle⟩ := (params_wellFormed_iff p).1 hp
  rw [regOf_ofNat p (by omega) (by omega), regAt, if_neg (by omega), if_neg (by omega), if_neg (by omega), if_neg (by omega),
    bufferReg, if_neg (by omega), if_neg (by omega), if_pos (by omega), Nat.add_sub_cancel_left]

end Sys2Proof.Machine
end

