-- ==== Sys2Proof/Laws/Memory.lean ====
section
/-! SUPPORT. The laws of the byte buffers: a read after a write, and that every operation keeps the canonical form. -/

namespace Sys2Proof.Machine

theorem Memory.wf_iff (m : Memory) : m.wf = true ↔ m.Pairwise fun c d => c.1 < d.1 := by simp [Memory.wf]

@[simp] theorem Memory.wf_nil : Memory.wf [] = true := by decide

theorem Memory.wf_cons (c : Host.Cell) (m : Memory) :
    Memory.wf (c :: m) = true ↔ (∀ d ∈ m, c.1 < d.1) ∧ m.wf = true := by
  simp [Memory.wf]

@[simp] theorem Memory.read_nil (x : Nat) : Memory.read [] x = none := rfl

theorem Memory.read_cons (a : Nat) (b : Byte) (m : Memory) (x : Nat) :
    Memory.read ((a, b) :: m) x = if a = x then some b else m.read x := rfl

/-! ### Reads after writes -/

@[simp] theorem Memory.read_write_same (m : Memory) (x : Nat) (v : Byte) : (m.write x v).read x = some v := by
  induction m with
  | nil => simp [Memory.write, Memory.read]
  | cons c m ih =>
    obtain ⟨a, b⟩ := c
    simp only [Memory.write]
    split
    · simp [Memory.read]
    · split
      · simp [Memory.read]
      · rename_i h
        simp [Memory.read, Ne.symm h, ih]

theorem Memory.read_write_other (m : Memory) {x y : Nat} (v : Byte) (h : x ≠ y) : (m.write x v).read y = m.read y := by
  induction m with
  | nil => simp [Memory.write, Memory.read, h]
  | cons c m ih =>
    obtain ⟨a, b⟩ := c
    simp only [Memory.write]
    split
    · simp [Memory.read, h]
    · split
      · rename_i e
        subst e
        simp [Memory.read, h]
      · simp [Memory.read, ih]

theorem Memory.read_write (m : Memory) (x y : Nat) (v : Byte) :
    (m.write x v).read y = if x = y then some v else m.read y := by
  split
  · rename_i h
    subst h
    simp
  · rename_i h
    exact m.read_write_other v h

/-- A store of a byte list: the bytes stored read as stored, every other byte as before. -/
theorem Memory.storedAt_writeBytes (m : Memory) (a : Nat) (bs : List Byte) : m.StoredAt (m.writeBytes a bs) a bs := by
  induction bs generalizing m a with
  | nil =>
    intro x
    simp [Memory.writeBytes]
  | cons b bs ih =>
    intro x
    rw [Memory.writeBytes, ih (m.write a b) (a + 1) x, Memory.read_write]
    by_cases h1 : a = x
    · subst h1
      simp
    · by_cases h2 : a + 1 ≤ x ∧ x < a + 1 + bs.length
      · have h3 : a ≤ x ∧ x < a + (b :: bs).length := by simp; omega
        have h4 : x - a = (x - (a + 1)) + 1 := by omega
        rw [if_pos h2, if_pos h3, h4, List.getElem?_cons_succ]
      · have h3 : ¬(a ≤ x ∧ x < a + (b :: bs).length) := by simp; omega
        rw [if_neg h2, if_neg h3, if_neg h1]

/-- An unlisted byte has no value. -/
theorem Memory.read_eq_none {m : Memory} {x : Nat} (h : ∀ c ∈ m, c.1 ≠ x) : m.read x = none := by
  induction m with
  | nil => rfl
  | cons c m ih =>
    obtain ⟨k, b⟩ := c
    have hk : k ≠ x := h (k, b) (by simp)
    rw [Memory.read_cons, if_neg hk]
    exact ih fun d hd => h d (by simp [hd])

theorem Memory.exists_of_read {m : Memory} {x : Nat} {b : Byte} (h : m.read x = some b) : (x, b) ∈ m := by
  induction m with
  | nil => simp at h
  | cons c m ih =>
    obtain ⟨k, v⟩ := c
    rw [Memory.read_cons] at h
    split at h
    · rename_i e
      simp_all
    · exact List.mem_cons_of_mem _ (ih h)

/-! ### The canonical form -/

theorem Memory.mem_write {m : Memory} {x : Nat} {v : Byte} {c : Host.Cell} (h : c ∈ m.write x v) :
    c = (x, v) ∨ c ∈ m := by
  induction m with
  | nil => simpa [Memory.write] using h
  | cons d m ih =>
    obtain ⟨k, b⟩ := d
    simp only [Memory.write] at h
    split at h
    · simpa using h
    · split at h
      · rcases List.mem_cons.1 h with h | h
        · exact .inl h
        · exact .inr (List.mem_cons_of_mem _ h)
      · rcases List.mem_cons.1 h with h | h
        · exact .inr (by simp [h])
        · rcases ih h with h | h
          · exact .inl h
          · exact .inr (List.mem_cons_of_mem _ h)

theorem Memory.wf_write {m : Memory} (x : Nat) (v : Byte) (h : m.wf = true) : (m.write x v).wf = true := by
  induction m with
  | nil => rfl
  | cons c m ih =>
    obtain ⟨k, b⟩ := c
    obtain ⟨hk, hm⟩ := (Memory.wf_cons _ _).1 h
    simp only [Memory.write]
    split
    · rename_i hx
      refine (Memory.wf_cons _ _).2 ⟨fun d hd => ?_, h⟩
      rcases List.mem_cons.1 hd with rfl | hd
      · exact hx
      · exact Nat.lt_trans hx (hk d hd)
    · split
      · rename_i e
        subst e
        exact (Memory.wf_cons _ _).2 ⟨hk, hm⟩
      · refine (Memory.wf_cons _ _).2 ⟨fun d hd => ?_, ih hm⟩
        rcases Memory.mem_write hd with rfl | hd
        · simp; omega
        · exact hk d hd

theorem Memory.wf_writeBytes {m : Memory} (a : Nat) (bs : List Byte) (h : m.wf = true) : (m.writeBytes a bs).wf = true := by
  induction bs generalizing m a with
  | nil => exact h
  | cons b bs ih => exact ih (a + 1) (Memory.wf_write a b h)

theorem Memory.wf_over {m base : Memory} (h : base.wf = true) : (m.over base).wf = true := by
  unfold Memory.over
  induction m generalizing base with
  | nil => exact h
  | cons c m ih => exact ih (Memory.wf_write c.1 c.2 h)

/-! ### Bounds -/

theorem Memory.within_write {m : Memory} {n x : Nat} (v : Byte) (h : m.Within n) (hx : x < n) : (m.write x v).Within n := by
  intro c hc
  rcases Memory.mem_write hc with rfl | hc
  · exact hx
  · exact h c hc

theorem Memory.within_writeBytes {m : Memory} {n a : Nat} (bs : List Byte) (h : m.Within n) (ha : a + bs.length ≤ n) :
    (m.writeBytes a bs).Within n := by
  induction bs generalizing m a with
  | nil => exact h
  | cons b bs ih =>
    simp only [List.length_cons] at ha
    exact ih (Memory.within_write b h (by omega)) (by omega)

theorem Memory.within_over {m base : Memory} {n : Nat} (hm : m.Within n) (hb : base.Within n) : (m.over base).Within n := by
  unfold Memory.over
  induction m generalizing base with
  | nil => exact hb
  | cons c m ih =>
    exact ih (fun d hd => hm d (List.mem_cons_of_mem _ hd)) (Memory.within_write c.2 hb (hm c (by simp)))

/-- A canonical buffer written over another: its own bytes, then the other's. -/
theorem Memory.read_over {m : Memory} (base : Memory) (h : m.wf = true) (x : Nat) :
    (m.over base).read x = (m.read x).orElse fun _ => base.read x := by
  unfold Memory.over
  induction m generalizing base with
  | nil => simp
  | cons c m ih =>
    obtain ⟨k, b⟩ := c
    obtain ⟨hk, hm⟩ := (Memory.wf_cons _ _).1 h
    rw [List.foldl_cons, ih _ hm, Memory.read_cons, Memory.read_write]
    by_cases hx : k = x
    · subst hx
      have : Memory.read m k = none := Memory.read_eq_none fun d hd => (Nat.ne_of_lt (hk d hd)).symm
      simp [this]
    · simp [hx]

end Sys2Proof.Machine
end

