-- ==== Sys2Proof/Laws/PerInstr.lean ====
section
/-! SUPPORT. Per instruction: its command word is a well-formed one, with no reserved bit set. -/

namespace Sys2Proof.Laws.CommandWord

/-- A well-formed command's word has zeros in bits 31:8 and passes the word check (30_encoding.md R120, R121). -/
def Statement (i : Instr) : Prop := i.wellFormed = true → rsvField (encode i) = 0 ∧ commandWordWellFormed (encode i) = true

theorem nop : Statement .nop := by unfold Statement; decide
theorem build : Statement .build := by unfold Statement; decide
theorem number : Statement .number := by unfold Statement; decide
theorem genCodes : Statement .genCodes := by unfold Statement; decide
theorem serialize : Statement .serialize := by unfold Statement; decide
theorem deserGeneral : Statement .deserGeneral := by unfold Statement; decide
theorem deserPostorder : Statement .deserPostorder := by unfold Statement; decide
theorem pack : Statement .pack := by unfold Statement; decide
theorem unpack : Statement .unpack := by unfold Statement; decide

end Sys2Proof.Laws.CommandWord
end

