-- ==== Sys2Proof/Laws/Reads.lean ====
section
/-! SUPPORT. What the engine's reads of IN give, and which errors and stops each computation can end in. -/

namespace Sys2Proof.Machine

/-! ### Values -/

/-- The bytes read are those that stand in IN. -/
theorem inRead_ok {s : State} {a n : Nat} {bs : List Byte} :
    s.inRead a n = .ok bs ↔ bs.length = n ∧ s.inBuf.Holds a bs := by
  induction n generalizing a bs with
  | zero =>
    constructor
    · intro h
      cases h
      exact ⟨rfl, fun j hj => absurd hj (Nat.not_lt_zero j)⟩
    · rintro ⟨h, -⟩
      rw [List.eq_nil_of_length_eq_zero h]
      rfl
  | succ n ih =>
    simp only [State.inRead, engine_bind_ok, inByte_ok]
    constructor
    · rintro ⟨b, hb, cs, hcs, h⟩
      cases h
      obtain ⟨hl, hh⟩ := ih.1 hcs
      refine ⟨by simp [hl], fun j hj => ?_⟩
      cases j with
      | zero => simpa using hb
      | succ j =>
        have := hh j (by simpa using hj)
        rw [Nat.add_right_comm] at this
        simpa [Nat.add_assoc] using this
    · rintro ⟨hl, hh⟩
      cases bs with
      | nil => simp at hl
      | cons b cs =>
        refine ⟨b, by simpa using hh 0 (by simp), cs, ih.2 ⟨by simpa using hl, fun j hj => ?_⟩, rfl⟩
        have := hh (j + 1) (by simpa using hj)
        simpa [Nat.add_assoc, Nat.add_comm 1 j] using this

/-- A field read: its type byte stands at `a`, its data byte, where it is read, after it, and 0 takes the place of one not read. -/
theorem readField_ok {s : State} {index : Bool} {a : Nat} {p : Byte × Byte} :
    readField s index a = .ok p ↔ s.inBuf.read a = some p.1 ∧
      (index = true ∨ p.1 ≠ 1 → s.inBuf.read (a + 1) = some p.2) ∧ (index = false → p.1 = 1 → p.2 = 0) := by
  obtain ⟨t, d⟩ := p
  simp only [readField, engine_bind_ok, inByte_ok]
  constructor
  · rintro ⟨t', ht, h⟩
    split at h
    · rename_i hc
      cases h
      exact ⟨ht, fun h => by simp [hc] at h, fun _ _ => rfl⟩
    · rename_i hc
      simp only [engine_bind_ok, inByte_ok] at h
      obtain ⟨d', hd, h⟩ := h
      cases h
      exact ⟨ht, fun _ => hd, fun h1 h2 => absurd ⟨h2, h1⟩ hc⟩
  · rintro ⟨ht, hd, hz⟩
    refine ⟨t, ht, ?_⟩
    split
    · rename_i hc
      rw [show d = 0 from hz hc.2 hc.1]
    · rename_i hc
      refine engine_bind_ok.2 ⟨d, inByte_ok.2 (hd ?_), rfl⟩
      cases index
      · exact .inr fun h => hc ⟨h, rfl⟩
      · exact .inl rfl

/-- A record as it is read: 0 for a data byte that is not read. -/
def NodeRec.asRead (index : Bool) (r : NodeRec) : NodeRec :=
  { r with
    lData := if r.lType = 1 ∧ index = false then 0 else r.lData
    rData := if r.rType = 1 ∧ index = false then 0 else r.rData }

@[simp] theorem NodeRec.asRead_true (r : NodeRec) : r.asRead true = r := by simp [NodeRec.asRead]
@[simp] theorem NodeRec.asRead_lType (index : Bool) (r : NodeRec) : (r.asRead index).lType = r.lType := rfl
@[simp] theorem NodeRec.asRead_rType (index : Bool) (r : NodeRec) : (r.asRead index).rType = r.rType := rfl
@[simp] theorem NodeRec.asRead_internals (index : Bool) (r : NodeRec) : (r.asRead index).internals = r.internals := rfl

theorem Memory.holdsRecords_cons {m : Memory} {index : Bool} {a : Nat} {r : NodeRec} {rs : List NodeRec} :
    m.HoldsRecords index a (r :: rs) ↔
      (m.read a = some r.lType ∧ (index = true ∨ r.lType ≠ 1 → m.read (a + 1) = some r.lData) ∧
        m.read (a + 2) = some r.rType ∧ (index = true ∨ r.rType ≠ 1 → m.read (a + 3) = some r.rData)) ∧
      m.HoldsRecords index (a + 4) rs := by
  constructor
  · intro h
    refine ⟨by simpa using h 0 r rfl, fun j x hx => ?_⟩
    have := h (j + 1) x (by simpa using hx)
    rw [show a + 4 * (j + 1) = a + 4 + 4 * j by omega] at this
    exact this
  · rintro ⟨h0, h⟩ j x hx
    cases j with
    | zero =>
      cases hx
      simpa using h0
    | succ j =>
      have := h j x (by simpa using hx)
      rw [show a + 4 * (j + 1) = a + 4 + 4 * j by omega]
      exact this

/-- The records read are those whose bytes stand in IN, as they are read. -/
theorem readRecords_of_holds {s : State} {index : Bool} {a : Nat} {recs : List NodeRec}
    (h : s.inBuf.HoldsRecords index a recs) :
    readRecords s index recs.length a = .ok (recs.map (NodeRec.asRead index)) := by
  induction recs generalizing a with
  | nil => rfl
  | cons r rs ih =>
    obtain ⟨⟨h0, h1, h2, h3⟩, h⟩ := Memory.holdsRecords_cons.1 h
    have field : ∀ {k : Nat} {t d : Byte}, s.inBuf.read k = some t → (index = true ∨ t ≠ 1 → s.inBuf.read (k + 1) = some d) →
        readField s index k = .ok (t, if t = 1 ∧ index = false then 0 else d) := fun {k t d} ht hd =>
      readField_ok.2 ⟨ht, fun hi => by rw [hd hi, if_neg (by rintro ⟨e, f⟩; simp [e, f] at hi)], fun hi he => if_pos ⟨he, hi⟩⟩
    simp only [List.length_cons, readRecords, field h0 h1, field h2 h3, ih h, engine_ok_bind, List.map_cons]
    rfl

theorem readRecords_ok {s : State} {index : Bool} {n a : Nat} {recs : List NodeRec} (h : readRecords s index n a = .ok recs) :
    recs.length = n ∧ s.inBuf.HoldsRecords index a recs := by
  induction n generalizing a recs with
  | zero =>
    cases h
    exact ⟨rfl, fun j r hr => by simp at hr⟩
  | succ n ih =>
    simp only [readRecords, engine_bind_ok, readField_ok] at h
    obtain ⟨l, ⟨h0, h1, -⟩, r, ⟨h2, h3, -⟩, rs, hrs, h⟩ := h
    cases h
    obtain ⟨hl, hh⟩ := ih hrs
    exact ⟨by simp [hl], Memory.holdsRecords_cons.2 ⟨⟨h0, h1, h2, h3⟩, hh⟩⟩

/-- The code stream is the codes of the symbols in IN, one after the other. -/
theorem codeStream_ok {s : State} {n a : Nat} {bits : BitStr} :
    codeStream s n a = .ok bits ↔ ∃ codes : List BitStr, codes.length = n ∧ codes.flatten = bits ∧
      ∀ j, j < n → ∃ x : Byte, s.inBuf.read (a + j) = some x ∧ s.code[x.toNat]'x.isLt = codes[j]? := by
  induction n generalizing a bits with
  | zero =>
    constructor
    · intro h
      cases h
      exact ⟨[], rfl, rfl, fun j hj => absurd hj (Nat.not_lt_zero j)⟩
    · rintro ⟨codes, hl, hf, -⟩
      rw [List.eq_nil_of_length_eq_zero hl] at hf
      rw [← hf]
      rfl
  | succ n ih =>
    simp only [codeStream, engine_bind_ok, inByte_ok]
    constructor
    · rintro ⟨x, hx, h⟩
      cases hc : s.code[x.toNat]'x.isLt with
      | none => simp [hc] at h
      | some c =>
        simp only [hc, engine_bind_ok] at h
        obtain ⟨rest, hrest, h⟩ := h
        cases h
        obtain ⟨codes, hl, hf, hj⟩ := ih.1 hrest
        refine ⟨c :: codes, by simp [hl], by simp [hf], fun j hjn => ?_⟩
        cases j with
        | zero => exact ⟨x, hx, by simpa using hc⟩
        | succ j =>
          obtain ⟨y, hy, hyc⟩ := hj j (by omega)
          exact ⟨y, by rw [← hy]; congr 1; omega, by simpa using hyc⟩
    · rintro ⟨codes, hl, hf, hj⟩
      cases codes with
      | nil => simp at hl
      | cons c codes =>
        obtain ⟨x, hx, hxc⟩ := hj 0 (by omega)
        refine ⟨x, by simpa using hx, ?_⟩
        rw [show s.code[x.toNat]'x.isLt = some c by simpa using hxc]
        simp only [engine_bind_ok]
        refine ⟨codes.flatten, ih.2 ⟨codes, by simpa using hl, rfl, fun j hjn => ?_⟩, by simp [← hf]⟩
        obtain ⟨y, hy, hyc⟩ := hj (j + 1) (by omega)
        exact ⟨y, by rw [← hy]; congr 1; omega, by simpa using hyc⟩

/-! ### Errors and stops -/

theorem inRead_error {s : State} {a n : Nat} {e : Abort} (h : s.inRead a n = .error e) :
    e = .stop .unwrittenIn ∧ ∃ j, j < n ∧ s.inBuf.read (a + j) = none := by
  induction n generalizing a with
  | zero => cases h
  | succ n ih =>
    rw [State.inRead, engine_bind_error] at h
    rcases h with h | ⟨b, -, h⟩
    · obtain ⟨hr, rfl⟩ := inByte_error.1 h
      exact ⟨rfl, 0, by omega, hr⟩
    · rw [engine_bind_error] at h
      rcases h with h | ⟨bs, -, h⟩
      · obtain ⟨he, j, hj, hr⟩ := ih h
        exact ⟨he, j + 1, by omega, by rw [← hr]; congr 1; omega⟩
      · cases h

theorem readField_error {s : State} {index : Bool} {a : Nat} {e : Abort} (h : readField s index a = .error e) :
    e = .stop .unwrittenIn ∧ (s.inBuf.read a = none ∨ s.inBuf.read (a + 1) = none) := by
  simp only [readField, engine_bind_error, inByte_error] at h
  rcases h with ⟨h, rfl⟩ | ⟨t, -, h⟩
  · exact ⟨rfl, .inl h⟩
  · split at h
    · cases h
    · simp only [engine_bind_error, inByte_error] at h
      rcases h with ⟨h, rfl⟩ | ⟨d, -, h⟩
      · exact ⟨rfl, .inr h⟩
      · cases h

theorem readRecords_error {s : State} {index : Bool} {n a : Nat} {e : Abort} (h : readRecords s index n a = .error e) :
    e = .stop .unwrittenIn ∧ ∃ j, j < 4 * n ∧ s.inBuf.read (a + j) = none := by
  induction n generalizing a with
  | zero => cases h
  | succ n ih =>
    simp only [readRecords, engine_bind_error] at h
    rcases h with h | ⟨_, -, h | ⟨_, -, h | ⟨_, -, h⟩⟩⟩
    · obtain ⟨he, h | h⟩ := readField_error h
      · exact ⟨he, 0, by omega, h⟩
      · exact ⟨he, 1, by omega, h⟩
    · obtain ⟨he, h | h⟩ := readField_error h
      · exact ⟨he, 2, by omega, h⟩
      · exact ⟨he, 3, by omega, h⟩
    · obtain ⟨he, j, hj, hr⟩ := ih h
      exact ⟨he, j + 4, by omega, by rw [← hr]; congr 1; omega⟩
    · cases h

/-- All that parse_header can end in but a list: three error codes, or a stop at an unwritten byte of the range given. -/
theorem parseHeader_error {s : State} {index : Bool} {a : HeaderArgs} {e : Abort} (h : parseHeader s index a = .error e) :
    e = .raise .range ∨ e = .raise .malformed ∨ e = .raise .dangling ∨
    (e = .stop .unwrittenIn ∧ a.src + a.len ≤ s.params.inBytes ∧ ∃ j, j < a.len ∧ s.inBuf.read (a.src + j) = none) := by
  simp only [parseHeader, engine_bind_error, raiseIf_error, raiseIf_ok, inByte_error, inRange, Bool.not_eq_false',
    decide_eq_true_eq, decide_eq_false_iff_not] at h
  rcases h with ⟨-, rfl⟩ | ⟨_, hr, ⟨-, rfl⟩ | ⟨_, hl, ⟨h, rfl⟩ | ⟨c, -, ⟨-, rfl⟩ | ⟨_, -, ⟨-, rfl⟩ | ⟨_, hn, h |
    ⟨_, -, ⟨-, rfl⟩ | ⟨_, -, ⟨-, rfl⟩ | ⟨_, -, h⟩⟩⟩⟩⟩⟩⟩⟩
  · exact .inl rfl
  · exact .inr (.inl rfl)
  · exact .inr (.inr (.inr ⟨rfl, hr, 0, by omega, h⟩))
  · exact .inr (.inl rfl)
  · exact .inr (.inl rfl)
  · obtain ⟨he, j, hj, hx⟩ := readRecords_error h
    exact .inr (.inr (.inr ⟨he, hr, j + 1, by omega, by rw [← hx]; congr 1; omega⟩))
  · exact .inr (.inl rfl)
  · exact .inr (.inr (.inl rfl))
  · cases h

theorem visit_error {recs : List NodeRec} {fuel j : Nat} {seen : List Nat} {e : Abort}
    (h : visit recs fuel j seen = .error e) : e = .raise .shape ∨ e = .raise .dangling := by
  induction fuel generalizing j seen with
  | zero =>
    cases h
    exact .inl rfl
  | succ fuel ih =>
    rw [visit] at h
    split at h
    · cases h
      exact .inl rfl
    · split at h
      · cases h
        exact .inr rfl
      · rw [engine_bind_error] at h
        rcases h with h | ⟨_, -, h⟩
        · split at h
          · exact ih h
          · cases h
        · split at h
          · exact ih h
          · cases h

theorem popRef_error {t d : Byte} {stack : List Nat} {e : Abort} (h : popRef t d stack = .error e) :
    e = .raise .dangling := by
  unfold popRef at h
  split at h
  · split at h <;> cases h
    rfl
  · cases h

theorem buildPostorder_error {j : Nat} {stack : List Nat} {recs : List NodeRec} {e : Abort}
    (h : buildPostorder j stack recs = .error e) : e = .raise .dangling := by
  induction recs generalizing j stack with
  | nil => cases h
  | cons r rs ih =>
    simp only [buildPostorder, engine_bind_error] at h
    rcases h with h | ⟨_, -, h | ⟨_, -, h | ⟨_, -, h⟩⟩⟩
    · exact popRef_error h
    · exact popRef_error h
    · exact ih h
    · cases h

theorem codeStream_error {s : State} {n a : Nat} {e : Abort} (h : codeStream s n a = .error e) :
    e = .raise .noCode ∨ (e = .stop .unwrittenIn ∧ ∃ j, j < n ∧ s.inBuf.read (a + j) = none) := by
  induction n generalizing a with
  | zero => cases h
  | succ n ih =>
    simp only [codeStream, engine_bind_error, inByte_error] at h
    rcases h with ⟨h, rfl⟩ | ⟨x, -, h⟩
    · exact .inr ⟨rfl, 0, by omega, h⟩
    · split at h
      · cases h
        exact .inl rfl
      · rw [engine_bind_error] at h
        rcases h with h | ⟨_, -, h⟩
        · rcases ih h with h | ⟨h, j, hj, hr⟩
          · exact .inl h
          · exact .inr ⟨h, j + 1, by omega, by rw [← hr]; congr 1; omega⟩
        · cases h

theorem walkBits_error {s : State} {base left : Nat} {r : Ref} {t : Nat} {e : Abort}
    (h : walkBits s base left r t = .error e) :
    e = .raise .truncated ∨
    (e = .stop .unwrittenIn ∧ ∃ k, k < left ∧ s.inBuf.read (base + (t + k) / 8) = none) := by
  induction left generalizing r t with
  | zero =>
    cases r <;> cases h
    exact .inl rfl
  | succ left ih =>
    cases r with
    | leaf x => cases h
    | int i =>
      simp only [walkBits, payloadBit, engine_bind_error, inByte_error] at h
      rcases h with (⟨h, rfl⟩ | ⟨_, -, h⟩) | ⟨b, -, h⟩
      · exact .inr ⟨rfl, 0, by omega, h⟩
      · cases h
      · rcases ih h with h | ⟨h, k, hk, hr⟩
        · exact .inl h
        · exact .inr ⟨h, k + 1, by omega, by rw [← hr]; congr 2; omega⟩

/-- A walk takes no more bits than are left. -/
theorem walkBits_le {s : State} {base left : Nat} {r : Ref} {t : Nat} {x : Byte} {t' : Nat}
    (h : walkBits s base left r t = .ok (x, t')) : t ≤ t' ∧ t' ≤ t + left := by
  induction left generalizing r t with
  | zero =>
    cases r <;> cases h
    omega
  | succ left ih =>
    cases r with
    | leaf y =>
      cases h
      omega
    | int i =>
      simp only [walkBits, engine_bind_ok] at h
      obtain ⟨b, -, h⟩ := h
      have := ih h
      omega

theorem decodeOne_le {s : State} {base avail t : Nat} {x : Byte} {t' : Nat} (ht : t ≤ avail)
    (h : decodeOne s base avail t = .ok (x, t')) : t ≤ t' ∧ t' ≤ avail := by
  unfold decodeOne at h
  split at h
  · split at h
    · cases h
    · cases h
      omega
  · have := walkBits_le h
    omega

theorem decodeOne_error {s : State} {base avail t : Nat} {e : Abort} (h : decodeOne s base avail t = .error e) :
    e = .raise .truncated ∨ (e = .stop .unwrittenIn ∧ ∃ k, k < avail ∧ s.inBuf.read (base + k / 8) = none) := by
  unfold decodeOne at h
  split at h
  · split at h
    · cases h
      exact .inl rfl
    · cases h
  · rcases walkBits_error h with h | ⟨h, k, hk, hr⟩
    · exact .inl h
    · exact .inr ⟨h, t + k, by omega, hr⟩

theorem decodeSymbols_error {s : State} {base avail n t : Nat} {e : Abort} (ht : t ≤ avail)
    (h : decodeSymbols s base avail n t = .error e) :
    e = .raise .truncated ∨ (e = .stop .unwrittenIn ∧ ∃ k, k < avail ∧ s.inBuf.read (base + k / 8) = none) := by
  induction n generalizing t with
  | zero => cases h
  | succ n ih =>
    simp only [decodeSymbols, engine_bind_error] at h
    rcases h with h | ⟨⟨x, t'⟩, hx, h | ⟨_, -, h⟩⟩
    · exact decodeOne_error h
    · exact ih (decodeOne_le ht hx).2 h
    · cases h

/-- UNPACK decodes as many symbols as its size field says. -/
theorem decodeSymbols_length {s : State} {base avail n t : Nat} {out : List Byte} {t' : Nat}
    (h : decodeSymbols s base avail n t = .ok (out, t')) : out.length = n := by
  induction n generalizing t out with
  | zero =>
    cases h
    rfl
  | succ n ih =>
    simp only [decodeSymbols, engine_bind_ok] at h
    obtain ⟨⟨x, u⟩, -, ⟨xs, u'⟩, hx, h⟩ := h
    cases h
    simp [ih hx]

end Sys2Proof.Machine
end

