-- ==== Sys2Proof/Laws/Step.lean ====
section
/-! SUPPORT. All a step can do, all a host operation can do, and how runs split: the lemmas that invariants are proved from. -/

namespace Sys2Proof.Machine

/-- All a host write can do. -/
theorem hostWrite_cases (off : Offset) (v : Word) (s : State) :
    (s.busy = true ∧ s.hostWrite off v = s.ignoreWrite) ∨
    (s.busy = false ∧ s.hostWrite off v = s.regWrite v (regOf s.params off)) := by
  unfold State.hostWrite
  cases s.busy <;> simp

/-- All a write to a register or window can do while the engine is idle. -/
theorem regWrite_cases (v : Word) (s : State) (r : HostReg) :
    s.regWrite v r = s ∨ (r = .cmd ∧ s.regWrite v r = s.accept v) ∨
    (r = .arg0 ∧ s.regWrite v r = { s with arg0 := v }) ∨ (r = .arg1 ∧ s.regWrite v r = { s with arg1 := v }) ∨
    (r = .arg2 ∧ s.regWrite v r = { s with arg2 := v }) ∨
    (∃ j, r = .freqPresent j ∧ s.regWrite v r = { s with freq := writePresent s.freq j v }) ∨
    (∃ i, r = .freqCount i ∧ s.regWrite v r = { s with freq := writeCount s.freq i v }) ∨
    (∃ a, r = .inWord a ∧ s.regWrite v r = s.writeInWord a v) ∨
    (∃ a, r = .outWord a ∧ s.regWrite v r = s.writeOutWord a v) := by
  cases r <;> simp [State.regWrite]

/-- All a step of the host or the platform can do: nothing is left, WAIT polls again, or one operation takes effect. -/
theorem hostStep_cases (s : State) :
    (s.host = [] ∧ s.hostStep = s) ∨
    (∃ rest, s.host = .wait :: rest ∧ s.busy = true ∧ s.hostStep = s.recordRead 0x014) ∨
    (∃ op rest, s.host = op :: rest ∧ (op = .wait → s.busy = false) ∧ s.hostStep = { s with host := rest }.doHostOp op) := by
  unfold State.hostStep
  rcases hs : s.host with _ | ⟨op, rest⟩
  · simp
  · by_cases h : op = .wait ∧ s.busy = true
    · exact .inr (.inl ⟨rest, by rw [h.1], h.2, if_pos h⟩)
    · exact .inr (.inr ⟨op, rest, rfl, fun e => by simpa [e] using h, if_neg h⟩)

/-- All an operation can do to the state, `WAIT` and reads being one case. -/
theorem doHostOp_cases (s : State) (op : HostOp) :
    (∃ off v, s.doHostOp op = s.hostWrite off v) ∨ (∃ off, s.doHostOp op = s.recordRead off) ∨
    (op = .assertReset ∧ s.doHostOp op = s.enterReset) ∨ (op = .releaseReset ∧ s.doHostOp op = s.leaveReset) ∨
    (op = .powerCycle ∧ s.doHostOp op = s.powerCycle) := by
  cases op with
  | wr off v => exact .inl ⟨off, v, rfl⟩
  | wrOr off m => exact .inl ⟨off, _, rfl⟩
  | rd off => exact .inr (.inl ⟨off, rfl⟩)
  | wait => exact .inr (.inl ⟨_, rfl⟩)
  | assertReset => simp [State.doHostOp]
  | releaseReset => simp [State.doHostOp]
  | powerCycle => simp [State.doHostOp]

/-- All a step can do. -/
theorem step_cases (s : State) :
    ((s.phase = .idle ∨ s.phase = .init .held) ∧ step s = .next s.hostStep) ∨
    (s.phase = .init .pending ∧ s.busyLeft = 0 ∧ step s = .next s.initSequence.drawBusy) ∨
    (s.phase = .init .set ∧ s.busyLeft = 0 ∧ step s = .next s.endInit) ∨
    (s.phase = .exec ∧ s.busyLeft = 0 ∧ step s = runLatched s) ∨
    ((s.phase = .init .pending ∨ s.phase = .init .set ∨ s.phase = .exec) ∧ 0 < s.busyLeft ∧ step s = .next s.busyTick) := by
  unfold step
  by_cases hb : s.busyLeft = 0
  · rcases hp : s.phase with _ | (_ | _ | _) | _ <;> simp [hb]
  · have : 0 < s.busyLeft := Nat.pos_of_ne_zero hb
    rcases hp : s.phase with _ | (_ | _ | _) | _ <;> simp [hb, this]

/-- All the latched word can do. -/
theorem runLatched_cases (s : State) :
    (∃ i, decode s.latch.word = .ok i ∧ runLatched s = exec i s) ∨
    (∃ e, decode s.latch.word = .error e ∧ runLatched s = execIllegal s) := by
  unfold runLatched
  cases decode s.latch.word <;> simp

/-! ### Runs -/

/-- What one more step in front of a run does, for any machine. -/
theorem core_run_succ (M : Host.Core) (n : Nat) (x : M.State) : M.run (n + 1) x =
    match M.step x with
    | .next y => M.run n y
    | .fault f => .fault f
    | .refused r => .refused r := by
  cases h : M.step x <;> simp only [Host.Core.run, h]

theorem run_succ_of_next (n : Nat) {s t : State} (h : step s = .next t) :
    Host.Core.run core (n + 1) s = Host.Core.run core n t := by
  have general : ∀ (M : Host.Core) (x y : M.State), M.step x = .next y → M.run (n + 1) x = M.run n y := fun M x y h => by
    rw [core_run_succ, h]
  exact general core s t h

/-- A run that ends in a next state begins with a step to one. -/
theorem next_of_run_succ {n : Nat} {s t : State} (h : Host.Core.run core (n + 1) s = .next t) :
    ∃ u, step s = .next u ∧ Host.Core.run core n u = .next t := by
  have general : ∀ (M : Host.Core) (x y : M.State), M.run (n + 1) x = .next y →
      ∃ u, M.step x = .next u ∧ M.run n u = .next y := fun M x y h => by
    rw [core_run_succ] at h
    cases hx : M.step x <;> rw [hx] at h
    · exact ⟨_, rfl, h⟩
    · cases h
    · cases h
  exact general core s t h

/-- A run of `n + m` steps whose first `n` end in `t` is a run of `m` steps from `t`. -/
theorem run_add (n m : Nat) {s t : State} (h : Host.Core.run core n s = .next t) :
    Host.Core.run core (n + m) s = Host.Core.run core m t := by
  induction n generalizing s with
  | zero =>
    cases h
    rw [Nat.zero_add]
  | succ n ih =>
    obtain ⟨u, hu, hr⟩ := next_of_run_succ h
    rw [show n + 1 + m = n + m + 1 by omega]
    exact (run_succ_of_next _ hu).trans (ih hr)

end Sys2Proof.Machine
end

