-- ==== Sys2Proof/Laws/Table.lean ====
section
/-! SUPPORT. Tables, symbols and slots. -/

namespace Sys2Proof.Machine

@[simp] theorem tabulate_getElem {α : Type} {n : Nat} (f : Fin n → α) (i : Nat) (h : i < n) :
    (tabulate f)[i] = f ⟨i, h⟩ := by
  simp [tabulate]

@[simp] theorem arenaOf_getElem (l : List Node) (i : Nat) (h : i < 255) : (arenaOf l)[i] = l.getD i .cleared := by
  simp [arenaOf]

theorem slotOf_val {n : Nat} (h : n < 255) : (slotOf n).val = n := by
  simp [slotOf, Fin.ofNat, Nat.mod_eq_of_lt h]

@[simp] theorem slotOf_self (i : Fin 255) : slotOf i.val = i := by
  ext
  exact slotOf_val i.isLt

@[simp] theorem symbolOf_toNat (i : Fin 256) : (symbolOf i).toNat = i.val := by
  simp [symbolOf]

theorem symbolOf_injective : Function.Injective symbolOf := by
  intro i j h
  have := congrArg BitVec.toNat h
  simpa [Fin.ext_iff] using this

@[simp] theorem codeTable_getElem (t : SlotTree) (i : Nat) (h : i < 256) :
    t.codeTable[i] = t.codeOf (symbolOf ⟨i, h⟩) := by
  simp [SlotTree.codeTable, SlotTree.codeOf]

/-- Reading a tree looks at the children of the slots only: numbers do not matter. -/
theorem readTree_congr {m n : Arena} (h : ∀ i : Fin 255, m[i].left = n[i].left ∧ m[i].right = n[i].right) (fuel : Nat)
    (r : Ref) : readTree m fuel r = readTree n fuel r := by
  induction fuel generalizing r with
  | zero => cases r <;> rfl
  | succ k ih =>
    cases r with
    | leaf s => rfl
    | int i =>
      obtain ⟨hl, hr⟩ := h i
      simp only [readTree, hl, hr, ih]

end Sys2Proof.Machine
end

