-- ==== Sys2Proof/Laws/Tree.lean ====
section
/-! SUPPORT. Trees read from the arena: their slots, leaves, paths and codes. -/

namespace Sys2Proof.Machine

/-! ### Reading a tree -/

/-- More fuel reads the same tree. -/
theorem readTree_mono {nodes : Arena} {fuel : Nat} {r : Ref} {t : SlotTree} (h : readTree nodes fuel r = some t) :
    readTree nodes (fuel + 1) r = some t := by
  induction fuel generalizing r t with
  | zero =>
    cases r with
    | leaf s => exact h
    | int i => cases h
  | succ k ih =>
    cases r with
    | leaf s => exact h
    | int i =>
      rw [readTree] at h
      split at h
      · rename_i l r hl hr
        cases h
        rw [readTree, ih hl, ih hr]
      · cases h

/-- A leaf reference reads a leaf, an internal one a node in its slot, with the subtrees of the slot's children. -/
theorem readTree_leaf (nodes : Arena) (fuel : Nat) (s : Byte) : readTree nodes fuel (.leaf s) = some (.leaf s) := by
  cases fuel <;> rfl

theorem readTree_int {nodes : Arena} {fuel : Nat} {i : Fin 255} {t : SlotTree} (h : readTree nodes fuel (.int i) = some t) :
    ∃ k l r, fuel = k + 1 ∧ t = .node i l r ∧ readTree nodes k nodes[i].left = some l ∧
      readTree nodes k nodes[i].right = some r := by
  cases fuel with
  | zero => cases h
  | succ k =>
    rw [readTree] at h
    split at h
    · rename_i l r hl hr
      cases h
      exact ⟨k, l, r, rfl, rfl, hl, hr⟩
    · cases h

/-- The slots of a tree are closed under internal children. -/
theorem mem_postorder_child {nodes : Arena} {fuel : Nat} {r : Ref} {t : SlotTree} (h : readTree nodes fuel r = some t)
    {i j : Fin 255} (hi : i ∈ t.postorder) (hc : nodes[i].left = .int j ∨ nodes[i].right = .int j) : j ∈ t.postorder := by
  induction fuel generalizing r t with
  | zero =>
    cases r with
    | leaf s =>
      cases h
      cases hi
    | int k => cases h
  | succ fuel ih =>
    cases r with
    | leaf s =>
      cases h
      cases hi
    | int k =>
      obtain ⟨_, lt, rt, he, rfl, hl, hr⟩ := readTree_int h
      cases he
      simp only [SlotTree.postorder, List.mem_append, List.mem_singleton] at hi ⊢
      have root_mem : ∀ {u : SlotTree} {i : Fin 255}, readTree nodes fuel (.int i) = some u → i ∈ u.postorder := by
        intro u i hu
        obtain ⟨_, _, _, _, rfl, _⟩ := readTree_int hu
        simp [SlotTree.postorder]
      rcases hi with (hi | hi) | rfl
      · exact .inl (.inl (ih hl hi))
      · exact .inl (.inr (ih hr hi))
      · rcases hc with hc | hc
        · rw [hc] at hl
          exact .inl (.inl (root_mem hl))
        · rw [hc] at hr
          exact .inl (.inr (root_mem hr))

/-- Distinct slots are at most 255. -/
theorem postorder_length_le {t : SlotTree} (h : t.postorder.Nodup) : t.postorder.length ≤ 255 := by
  simpa using h.length_le_card

/-! ### Leaves and paths -/

theorem leafPaths_append (t : SlotTree) (p : BitStr) : t.leafPaths p = (t.leafPaths []).map fun q => (q.1, p ++ q.2) := by
  induction t generalizing p with
  | leaf s => simp [SlotTree.leafPaths]
  | node i l r ihl ihr =>
    simp only [SlotTree.leafPaths, List.nil_append]
    rw [ihl (p ++ [false]), ihr (p ++ [true]), ihl [false], ihr [true]]
    simp [Function.comp_def]

theorem leafPaths_fst (t : SlotTree) (p : BitStr) : (t.leafPaths p).map Prod.fst = t.leaves := by
  induction t generalizing p with
  | leaf s => rfl
  | node i l r ihl ihr => simp [SlotTree.leafPaths, SlotTree.leaves, ihl, ihr]

theorem leaves_ne_nil (t : SlotTree) : t.leaves ≠ [] := by
  induction t with
  | leaf s => simp [SlotTree.leaves]
  | node i l r ihl ihr => simp [SlotTree.leaves, ihl]

/-- A path is no longer than the fuel the tree was read with. -/
theorem leafPaths_length {nodes : Arena} {fuel : Nat} {r : Ref} {t : SlotTree} (h : readTree nodes fuel r = some t)
    (p : BitStr) : ∀ q ∈ t.leafPaths p, q.2.length ≤ p.length + fuel := by
  induction fuel generalizing r t p with
  | zero =>
    cases r with
    | leaf s =>
      cases h
      simp [SlotTree.leafPaths]
    | int k => cases h
  | succ fuel ih =>
    cases r with
    | leaf s =>
      cases h
      simp [SlotTree.leafPaths]
    | int k =>
      obtain ⟨_, lt, rt, he, rfl, hl, hr⟩ := readTree_int h
      cases he
      intro q hq
      simp only [SlotTree.leafPaths, List.mem_append] at hq
      rcases hq with hq | hq
      · have := ih hl _ q hq
        simp at this
        omega
      · have := ih hr _ q hq
        simp at this
        omega

/-- Two leaves at different places of the walk have paths neither of which is a prefix of the other. -/
theorem leafPaths_prefixFree (t : SlotTree) (p : BitStr) :
    (t.leafPaths p).Pairwise fun q q' => ¬ q.2 <+: q'.2 ∧ ¬ q'.2 <+: q.2 := by
  induction t generalizing p with
  | leaf s => simp [SlotTree.leafPaths]
  | node i l r ihl ihr =>
    rw [SlotTree.leafPaths, List.pairwise_append]
    refine ⟨ihl _, ihr _, fun q hq q' hq' => ?_⟩
    rw [leafPaths_append] at hq hq'
    obtain ⟨a, -, rfl⟩ := List.mem_map.1 hq
    obtain ⟨b, -, rfl⟩ := List.mem_map.1 hq'
    constructor <;> rintro ⟨x, hx⟩ <;> simp [List.append_assoc] at hx

/-! ### Numbers -/

@[simp] theorem clearNumbers_getElem (nodes : Arena) (i : Nat) (h : i < 255) :
    (clearNumbers nodes)[i] = { nodes[i] with num := none } := by
  simp [clearNumbers]

theorem setNumber_getElem (nodes : Arena) (i j : Fin 255) (n : Nat) :
    (setNumber nodes i n)[j] = if i = j then { nodes[j] with num := some (slotOf n) } else nodes[j] := by
  simp only [setNumber, Fin.getElem_fin, Vector.getElem_set, Fin.ext_iff]
  split
  · rename_i h
    simp [h]
  · rfl

/-- Numbering gives a slot of the list its position, from `n` on, and leaves every other slot and all children alone. -/
theorem numberFrom_getElem {l : List (Fin 255)} (hl : l.Nodup) (nodes : Arena) (n : Nat) (i : Fin 255) :
    (numberFrom nodes n l)[i] =
      match l.idxOf? i with
      | some k => { nodes[i] with num := some (slotOf (n + k)) }
      | none => nodes[i] := by
  induction l generalizing nodes n with
  | nil => rfl
  | cons a l ih =>
    obtain ⟨ha, hl'⟩ := List.nodup_cons.1 hl
    rw [numberFrom, ih hl', List.idxOf?_cons]
    by_cases h : a = i
    · subst h
      have : l.idxOf? a = none := by simpa [List.idxOf?_eq_none_iff] using ha
      rw [this]
      simpa using setNumber_getElem nodes a a n
    · rw [setNumber_getElem, if_neg h]
      simp only [beq_iff_eq, h, if_false]
      cases l.idxOf? i with
      | none => rfl
      | some k => simp [Nat.add_assoc, Nat.add_comm 1 k]

end Sys2Proof.Machine
end

