-- ==== Sys2Proof/Machine/HostProgram.lean ====
section
/-! DEFINITION. Host programs (30_encoding.md R135 to R140): each macro's expansion into host operations. -/

namespace Sys2Proof.Machine

/-- `WR off, v`. -/
def wrOp (off : Nat) (v : Word) : HostOp := .wr (BitVec.ofNat 26 off) v

/-- `RD off`. -/
def rdOp (off : Nat) : HostOp := .rd (BitVec.ofNat 26 off)

/-- A command macro's last part: the CMD write, then WAIT (R136). -/
def commandOps (w : Word) : List HostOp := [wrOp 0x010 w, .wait]

/-- A command macro with three operands (R136). -/
def argCommandOps (a0 a1 a2 w : Word) : List HostOp := [wrOp 0x018 a0, wrOp 0x01C a1, wrOp 0x020 a2] ++ commandOps w

/-- The words of `INB` from an offset on: four bytes each, missing bytes of the last one 0 (R138). -/
def inbOps : (off : Nat) → List Byte → List HostOp
  | _, [] => []
  | off, b0 :: b1 :: b2 :: b3 :: bs => wrOp (0x1000000 + off) (b3 ++ b2 ++ b1 ++ b0) :: inbOps (off + 4) bs
  | off, [b0] => [wrOp (0x1000000 + off) (0#8 ++ 0#8 ++ 0#8 ++ b0)]
  | off, [b0, b1] => [wrOp (0x1000000 + off) (0#8 ++ 0#8 ++ b1 ++ b0)]
  | off, [b0, b1, b2] => [wrOp (0x1000000 + off) (0#8 ++ b2 ++ b1 ++ b0)]

/-- The word reads of `OUTB` (R138): every word that holds one of the `n` bytes from `off` on. -/
def outbOps (off n : Nat) : List HostOp :=
  if n = 0 then []
  else (List.range ((off + n - 1) / 4 - off / 4 + 1)).map fun k => rdOp (0x2000000 + 4 * (off / 4 + k))

/-- The expansion of a macro (R135 to R139). -/
def HostMacro.expand : HostMacro → List HostOp
  | .prim op => [op]
  | .nop => commandOps 0x00
  | .build => commandOps 0x01
  | .number => commandOps 0x02
  | .genCodes => commandOps 0x03
  | .serialize dst => wrOp 0x018 dst :: commandOps 0x04
  | .deserGeneral src len root => argCommandOps src len root 0x05
  | .deserPostorder src len root => argCommandOps src len root 0x06
  | .pack src len dst => argCommandOps src len dst 0x07
  | .unpack src len dst => argCommandOps src len dst 0x08
  | .freq s c =>
    let present := 0x100 + 4 * (s.toNat / 32)
    [rdOp present, .wrOr (BitVec.ofNat 26 present) (BitVec.ofNat 32 (2 ^ (s.toNat % 32))), wrOp (0x400 + 4 * s.toNat) c]
  | .freqClr => (List.range 8).map fun j => wrOp (0x100 + 4 * j) 0
  | .inb off bytes => inbOps off bytes
  | .outb off n => outbOps off n
  | .check => [rdOp 0x014]
  | .results => [rdOp 0x024, rdOp 0x028]

/-- The host operations of a program. -/
def assemble (prog : List HostMacro) : List HostOp := prog.flatMap HostMacro.expand

/-- A state given a host program to run and busy times for it (log 3, log 15). -/
def State.withProgram (prog : List HostMacro) (busyTimes : List Nat) (s : State) : State :=
  { s with host := assemble prog, schedule := busyTimes }

end Sys2Proof.Machine
end

