-- ==== Sys2Proof/Tests/Slice0.lean ====
section
/-! SUPPORT. Tests: one step each, expected results from 95_test_vectors.md (V<n>) or from the rule named. The witnesses of the
statements' hypotheses stand in the second half. -/

namespace Sys2Proof.Tests

open Sys2Proof Sys2Proof.Machine

set_option Elab.async false

/-! ### Small states -/

/-- The state after INIT of the spec's test instance (IN_BYTES = OUT_BYTES = 64, SELECT_REF), the free time fields at 0. -/
def fresh : State :=
  { State.resetOf { inBytes := 64, outBytes := 64, select := .ref } with phase := .idle, busyLeft := 0, draws := 0 }

def withFreq (l : List (Nat × Word)) (s : State) : State :=
  { s with freq := tabulate fun i => match l.lookup i.val with
      | some c => { present := true, count := c }
      | none => { present := false, count := 0 } }

def withTree (l : List Node) (root : Ref) (s : State) : State :=
  { s with nodes := arenaOf l, root := root, status := { s.status with treeValid := true } }

def withCodes (l : List (Nat × BitStr)) (s : State) : State :=
  { s with code := tabulate (fun i => l.lookup i.val), status := { s.status with codesValid := true } }

def withIn (a : Nat) (l : List Nat) (s : State) : State :=
  { s with inBuf := s.inBuf.writeBytes a (l.map (BitVec.ofNat 8)) }

/-- A command accepted with the given operands, its completion the next step. -/
def issue (w a0 a1 a2 : Word) (s : State) : State :=
  { { s with arg0 := a0, arg1 := a1, arg2 := a2 }.latchCommand w with busyLeft := 0 }

def node (l r : Ref) (num : Option (Fin 255) := none) : Node := { left := l, right := r, num := num }

/-- The tree of V1, numbered as in V10 or not. -/
def scenario1 (numbered : Bool) : State :=
  let s := withTree
    [node (.leaf 65) (.leaf 67) (if numbered then some 0 else none), node (.leaf 66) (.int 0) (if numbered then some 1 else none)]
    (.int 1) fresh
  { s with status := { s.status with numbered := numbered } }

/-- V15: the tree of V1 with its codes. -/
def scenario1Coded : State := withCodes [(65, [true, false]), (66, [false]), (67, [true, true])] (scenario1 true)

/-- V46's state. -/
def packing : State := issue 7 0 4 9 (withIn 0 [0x41, 0x42, 0x43, 0x42] scenario1Coded)

/-- The tree of V5: a single leaf. -/
def leafTree : State := withTree [] (.leaf 5) fresh

/-- The outcome is a next state, and it has a property. -/
def answers (o : Host.Outcome State Fault Refusal) (p : State → Bool) : Bool :=
  match o with
  | .next t => p t
  | _ => false

theorem next_of_answers {o : Host.Outcome State Fault Refusal} {p : State → Bool} (h : answers o p = true) :
    ∃ t, o = .next t ∧ p t = true := by
  cases o with
  | next t => exact ⟨t, rfl, h⟩
  | fault _ => cases h
  | refused _ => cases h

/-! ### Well-formedness refuses -/

theorem test_reserved_bits_refused : commandWordWellFormed 0x00000101 = false := by decide
theorem test_reserved_opcode_refused : commandWordWellFormed 0x00000009 = false := by decide
theorem test_zero_buffer_refused : bufferSizeWellFormed 0 = false := by decide
theorem test_odd_buffer_refused : bufferSizeWellFormed 6 = false := by decide
theorem test_large_buffer_refused : bufferSizeWellFormed (2 ^ 24 + 4) = false := by decide
theorem test_large_buffer_accepted : bufferSizeWellFormed (2 ^ 24) = true := by decide
theorem test_bad_params_refused : Params.wellFormed { inBytes := 64, outBytes := 62, select := .ref } = false := by decide
theorem test_unaligned_inb_refused : HostMacro.wellFormed (.inb 2 [0]) = false := by decide
theorem test_outb_past_window_refused : HostMacro.wellFormed (.outb (2 ^ 24 - 1) 2) = false := by decide

/-! ### Decoding: words from the opcode map (30_encoding.md R121) -/

theorem test_decode_nop : decode 0b00000000000000000000000000000000 = .ok .nop := by decide
theorem test_decode_build : decode 0b00000000000000000000000000000001 = .ok .build := by decide
theorem test_decode_number : decode 0b00000000000000000000000000000010 = .ok .number := by decide
theorem test_decode_gencodes : decode 0b00000000000000000000000000000011 = .ok .genCodes := by decide
theorem test_decode_serialize : decode 0b00000000000000000000000000000100 = .ok .serialize := by decide
theorem test_decode_deser_general : decode 0b00000000000000000000000000000101 = .ok .deserGeneral := by decide
theorem test_decode_deser_postorder : decode 0b00000000000000000000000000000110 = .ok .deserPostorder := by decide
theorem test_decode_pack : decode 0b00000000000000000000000000000111 = .ok .pack := by decide
theorem test_decode_unpack : decode 0b00000000000000000000000000001000 = .ok .unpack := by decide
theorem test_decode_top_bit_reserved : decode 0x80000001 = .error .reservedBits := by decide
theorem test_decode_table_word : decodeTableWord 32 7 = some .pack := by decide

/-! ### Commands -/

/-- V67: NOP after a failed command gives STATUS 0x00000002. -/
theorem test_nop_acknowledges :
    answers (step (issue 0 0 0 0 (fresh.completeErr .noTree))) (fun t => t.statusWord = 0x00000002) = true := by
  decide +kernel

/-- V69: word 0x101 is ILLEGAL, not BUILD. -/
theorem test_illegal_word : answers (step (issue 0x101 0 0 0 fresh)) (fun t => t.statusWord = 0x00010106) = true := by
  decide +kernel

/-- V1. -/
theorem test_build_scenario_1 :
    answers (step (issue 1 0 0 0 (withFreq [(65, 1), (66, 2), (67, 1)] fresh))) (fun t =>
      t.nodes[0] = node (.leaf 65) (.leaf 67) ∧ t.nodes[1] = node (.leaf 66) (.int 0) ∧ t.rootWord = 0x80000101 ∧
      t.result0 = 3 ∧ t.result1 = 2 ∧ t.statusWord = 0x00010012) = true := by
  decide +kernel

/-- V6: weights do not wrap at 32 bits. -/
theorem test_build_wide_weights :
    answers (step (issue 1 0 0 0 (withFreq [(0, 0xFFFFFFFF), (7, 1), (255, 0xFFFFFFFF)] fresh))) (fun t =>
      t.nodes[0] = node (.leaf 7) (.leaf 0) ∧ t.nodes[1] = node (.leaf 255) (.int 0)) = true := by
  decide +kernel

/-- V11: V2's slots in postorder 1, 0, 2, 3. -/
theorem test_number_postorder :
    answers (step (issue 2 0 0 0 (withTree
      [node (.leaf 1) (.leaf 2), node (.leaf 3) (.leaf 4), node (.int 0) (.leaf 5), node (.int 1) (.int 2)] (.int 3)
      fresh))) (fun t =>
      t.nodes[0].num = some 1 ∧ t.nodes[1].num = some 0 ∧ t.nodes[2].num = some 2 ∧ t.nodes[3].num = some 3 ∧
      t.nodes[4].num = none ∧ t.result0 = 4) = true := by
  decide +kernel

/-- V13. -/
theorem test_number_without_tree : answers (step (issue 2 0 0 0 fresh)) (fun t => t.statusWord = 0x00020306) = true := by
  decide +kernel

/-- V15, as the host reads it. -/
theorem test_gencodes_scenario_1 :
    answers (step (issue 3 0 0 0 (scenario1 true))) (fun t =>
      t.result0 = 3 ∧ t.result1 = 2 ∧ t.hostRead 0x1104 = 0x80000002 ∧ t.hostRead 0x2820 = 0x80000000 ∧
      t.hostRead 0x1108 = 0x80000001 ∧ t.hostRead 0x2840 = 0 ∧ t.hostRead 0x2860 = 0xC0000000 ∧
      t.hostRead 0x1100 = 0) = true := by
  decide +kernel

/-- V19: of two leaves with one symbol the first in walk order gives the code. -/
theorem test_gencodes_first_leaf_wins :
    answers (step (issue 3 0 0 0 (withTree [node (.leaf 7) (.leaf 8), node (.leaf 7) (.int 0)] (.int 1) fresh))) (fun t =>
      t.code[7] = some [false] ∧ t.code[8] = some [true, true] ∧ t.result0 = 2) = true := by
  decide +kernel

/-- V21. -/
theorem test_serialize_scenario_1 :
    answers (step (issue 4 0 0 0 (scenario1 true))) (fun t =>
      t.outBuf.map Prod.snd = [0x02, 0x00, 0x41, 0x00, 0x43, 0x00, 0x42, 0x01, 0x00] ∧ t.result0 = 9 ∧ t.result1 = 2) = true := by
  decide +kernel

/-- V26: no wrap in the output range check. -/
theorem test_serialize_range :
    answers (step (issue 4 0xFFFFFFFF 0 0 (scenario1 true))) (fun t => t.statusWord = 0x00040936) = true := by
  decide +kernel

/-- V33, DESER_GENERAL. -/
theorem test_deser_general_by_index :
    answers (step (issue 5 0 17 3 (withIn 0 [4, 0, 1, 0, 2, 0, 3, 0, 4, 1, 0, 0, 5, 1, 2, 1, 1] fresh))) (fun t =>
      t.nodes[2] = node (.int 0) (.leaf 5) ∧ t.nodes[3] = node (.int 2) (.int 1) ∧ t.root = .int 3) = true := by
  decide +kernel

/-- V39, DESER_GENERAL: a slot reached twice. -/
theorem test_deser_general_shared_child :
    answers (step (issue 5 0 9 1 (withIn 0 [2, 0, 1, 0, 2, 1, 0, 1, 0] fresh)))
      (fun t => t.status.errCode = .shape ∧ t.status.treeValid = false) = true := by
  decide +kernel

/-- V33, DESER_POSTORDER: the right child is popped first, data bytes of type=1 fields are ignored. -/
theorem test_deser_postorder_by_stack :
    answers (step (issue 6 0 17 3 (withIn 0 [4, 0, 1, 0, 2, 0, 3, 0, 4, 1, 0, 0, 5, 1, 2, 1, 1] fresh))) (fun t =>
      t.nodes[2] = node (.int 1) (.leaf 5) ∧ t.nodes[3] = node (.int 0) (.int 2) ∧ t.root = .int 3) = true := by
  decide +kernel

/-- R251: DESER_POSTORDER does not read the data byte of a type=1 field, here the header's last byte, which nothing has written;
DESER_GENERAL reads it and stops (D36). -/
theorem test_deser_postorder_reads_no_index :
    answers (step (issue 6 0 9 1 (withIn 0 [2, 0, 65, 0, 67, 0, 66, 1] fresh))) (fun t =>
      t.nodes[0] = node (.leaf 65) (.leaf 67) ∧ t.nodes[1] = node (.leaf 66) (.int 0) ∧ t.statusWord = 0x00060012) = true ∧
    (step (issue 5 0 9 1 (withIn 0 [2, 0, 65, 0, 67, 0, 66, 1] fresh)) matches .fault .unwrittenIn) = true := by
  decide +kernel

/-- V34, DESER_POSTORDER: a pop from an empty stack. -/
theorem test_deser_postorder_root_first :
    answers (step (issue 6 0 17 0 (withIn 0 [4, 1, 1, 1, 2, 0, 3, 0, 4, 1, 3, 0, 5, 0, 1, 0, 2] fresh)))
      (fun t => t.status.errCode = .dangling) = true := by
  decide +kernel

/-- V46. -/
theorem test_pack_scenario_1 :
    answers (step (issue 7 0 4 9 (withIn 0 [0x41, 0x42, 0x43, 0x42] scenario1Coded))) (fun t =>
      t.outBuf = [(9, 0x04), (10, 0x00), (11, 0x00), (12, 0x00), (13, 0x98)] ∧ t.result0 = 5 ∧ t.result1 = 6) = true := by
  decide +kernel

/-- V54: NO_CODE before the output range. -/
theorem test_pack_no_code_first :
    answers (step (issue 7 0 5 0xFFFFFFFF (withIn 0 [0x41, 0x42, 0x43, 0x42, 0x44] scenario1Coded)))
      (fun t => t.status.errCode = .noCode) = true := by
  decide +kernel

/-- V62: pad bits and trailing bytes are not inspected. -/
theorem test_unpack_ignores_padding :
    answers (step (issue 8 9 6 0 (withIn 9 [4, 0, 0, 0, 0x9B, 0xEE] (scenario1 false)))) (fun t =>
      t.outBuf = [(0, 0x41), (1, 0x42), (2, 0x43), (3, 0x42)] ∧ t.result0 = 4 ∧ t.result1 = 6) = true := by
  decide +kernel

/-- V56. -/
theorem test_unpack_truncated :
    answers (step (issue 8 9 4 0 (withIn 9 [4, 0, 0, 0] (scenario1 false))))
      (fun t => t.statusWord = 0x00080716 ∧ t.outBuf = []) = true := by
  decide +kernel

/-- The spec's fault of the model (92_eei_decisions.md D36): an engine read of an IN byte that nothing has written. -/
theorem test_pack_unwritten_in : (step (issue 7 0 1 0 scenario1Coded) matches .fault .unwrittenIn) = true := by
  decide +kernel

/-! ### The host's side -/

/-- V71: a write during INIT is lost and leaves STATUS 0x00000008. -/
theorem test_write_during_init :
    answers (step { fresh with phase := .init .set, busyLeft := 1, host := [.wr 0x018 7] })
      (fun t => t.arg0 = 0 ∧ t.endInit.statusWord = 0x00000008) = true := by
  decide +kernel

/-- V72. -/
theorem test_reads_while_busy :
    { fresh with phase := .exec, arg0 := 5 }.hostRead 0x018 = 0 ∧
    { fresh with phase := .exec }.hostRead 0x000 = 0x48554646 := by
  decide +kernel

/-- P1's first line: `INB 0: 41 42 43 42` is one word write, which stores the four bytes in lane order. -/
theorem test_inb_lanes :
    HostMacro.expand (.inb 0 [0x41, 0x42, 0x43, 0x42]) = [.wr 0x1000000 0x42434241] ∧
    (fresh.hostWrite 0x1000000 0x42434241).inBuf = [(0, 0x41), (1, 0x42), (2, 0x43), (3, 0x42)] := by
  decide +kernel

/-- P3's FREQ line: `FREQ 5, 3` sets present bit 5 and FREQ_COUNT[5] at 0x414. -/
theorem test_freq_macro :
    HostMacro.expand (.freq 5 3) = [.rd 0x100, .wrOr 0x100 0x20, .wr 0x414 3] ∧
    (fresh.hostWrite 0x100 0x20).freq[5].present = true ∧ (fresh.hostWrite 0x414 3).freq[5].count = 3 := by
  decide +kernel

/-- R135 and R23: WAIT's STATUS reads are reads of the host's: one that finds BUSY = 1 is followed by another poll, the one that
finds BUSY = 0 is the last. -/
theorem test_wait_records_its_reads :
    answers (step { fresh with phase := .exec, busyLeft := 1, host := [.wait] })
      (fun t => t.host = [.wait] ∧ t.reads = [{ off := 0x014, val := 0x00000001 }]) = true ∧
    answers (step { fresh with host := [.wait] })
      (fun t => t.host = [] ∧ t.reads = [{ off := 0x014, val := 0x00000000 }]) = true := by
  decide +kernel

/-- 60_exceptions.md R318: power removed while PACK runs: no tree, no code and no buffer byte is left, and reset is asserted. -/
theorem test_power_cycle :
    answers (step { packing with busyLeft := 1, host := [.powerCycle] }) (fun t =>
      t.phase = .init .held ∧ t.status.treeValid = false ∧ t.code[65] = none ∧ t.inBuf = [] ∧ t.inAtReset = []) = true := by
  decide +kernel

theorem test_reset_memory_canonical : State.reset.inBuf.wf = true ∧ State.reset.outBuf.wf = true := by decide

/-! ### Witnesses of the statements' hypotheses, by statement

Each theorem shows a concrete state and operands that meet the hypotheses of the statement it names, every clause at a boundary
value of its range. -/

/-- A NOP executing with one host operation still to land. -/
def busyWith (op : HostOp) : State := { issue 0 0 0 0 fresh with busyLeft := 1, host := [op] }

def idleWith (op : HostOp) : State := { fresh with host := [op] }

theorem test_hyp_EncodeInvertsDecode : Instr.unpack.wellFormed = true := by decide

theorem test_hyp_StepRunsLatchedInstruction :
    let s := issue 1 0 0 0 fresh
    s.phase = .exec ∧ s.busyLeft = 0 ∧ decode s.latch.word = .ok .build := by decide +kernel

theorem test_hyp_CommandWriteIsAcceptedWhenIdle :
    (idleWith (.wr 0x010 1)).phase = .idle ∧ (0x010 : Offset).toNat / 4 = 0x010 / 4 ∧
    (0x013 : Offset).toNat / 4 = 0x010 / 4 ∧ (busyWith (.wr 0x013 1)).phase ≠ .idle ∧
    (busyWith (.wr 0x013 1)).HostTurn :=
  ⟨rfl, rfl, rfl, by decide, .inr (.inr (by decide))⟩

theorem test_hyp_IllegalWordCompletesWithIllegal :
    (0x00000100 : Word).extractLsb' 8 24 ≠ 0 ∧ 9 ≤ ((0x00000009 : Word).extractLsb' 0 8).toNat ∧
    9 ≤ ((0x000000FF : Word).extractLsb' 0 8).toNat := by decide

/-! A successful completion of each command: for CompletionFrame, FailingCommandChangesNothingElse, TreeCodeAndOutFrame, and
the statements about a command's next state. -/

theorem test_completes_nop : ∃ t, exec .nop (issue 0 0 0 0 fresh) = .next t ∧ t.status.err = false := ⟨_, rfl, rfl⟩

theorem test_completes_build :
    ∃ t, exec .build (issue 1 0 0 0 (withFreq [(1, 1), (2, 1)] fresh)) = .next t ∧ (!t.status.err) = true :=
  next_of_answers (by decide +kernel)

theorem test_completes_number : ∃ t, exec .number (issue 2 0 0 0 (scenario1 false)) = .next t ∧ (!t.status.err) = true :=
  next_of_answers (by decide +kernel)

theorem test_completes_gencodes : ∃ t, exec .genCodes (issue 3 0 0 0 (scenario1 true)) = .next t ∧ (!t.status.err) = true :=
  next_of_answers (by decide +kernel)

theorem test_completes_serialize : ∃ t, exec .serialize (issue 4 55 0 0 (scenario1 true)) = .next t ∧ (!t.status.err) = true :=
  next_of_answers (by decide +kernel)

theorem test_completes_deser_general :
    ∃ t, exec .deserGeneral (issue 5 0 5 0 (withIn 0 [1, 0, 5, 0, 5] fresh)) = .next t ∧ (!t.status.err) = true :=
  next_of_answers (by decide +kernel)

theorem test_completes_deser_postorder :
    ∃ t, exec .deserPostorder (issue 6 0 5 0 (withIn 0 [1, 0, 5, 0, 5] fresh)) = .next t ∧ (!t.status.err) = true :=
  next_of_answers (by decide +kernel)

theorem test_completes_pack :
    ∃ t, exec .pack (issue 7 0 4 59 (withIn 0 [0x41, 0x42, 0x43, 0x42] scenario1Coded)) = .next t ∧ (!t.status.err) = true :=
  next_of_answers (by decide +kernel)

theorem test_completes_unpack :
    ∃ t, exec .unpack (issue 8 0 5 0 (withIn 0 [4, 0, 0, 0, 0x98] (scenario1 true))) = .next t ∧ (!t.status.err) = true :=
  next_of_answers (by decide +kernel)

/-- For FailingCommandChangesNothingElse and RetryRaisesSameCode. -/
theorem test_fails_number : ∃ t, exec .number (issue 2 0 0 0 fresh) = .next t ∧ t.status.err = true :=
  next_of_answers (by decide +kernel)

theorem test_hyp_BusyWriteOnlySetsWrIgnored :
    let s := busyWith (.wr 0x018 7)
    let s' := busyWith (.wrOr 0x100 7)
    s.phase ≠ .idle ∧ s.HostTurn ∧ s.host = [.wr 0x018 7] ∧ s'.phase ≠ .idle ∧ s'.HostTurn ∧ s'.host = [.wrOr 0x100 7] :=
  ⟨by decide, .inr (.inr (by decide)), rfl, by decide, .inr (.inr (by decide)), rfl⟩

theorem test_hyp_BusyReadIsMasked :
    let s := busyWith (.rd 0x3FFFFFF)
    let w := busyWith .wait
    let h := { fresh with phase := .init .held, host := [.wait] }
    (w.phase ≠ .idle ∧ w.HostTurn ∧ w.host = [.wait] ∧ h.phase ≠ .idle ∧ h.HostTurn ∧ h.host = [.wait]) ∧
    s.phase ≠ .idle ∧ s.HostTurn ∧ s.host = [.rd 0x3FFFFFF] ∧ (0x003 : Offset).toNat / 4 = 0 ∧
    (0x007 : Offset).toNat / 4 = 1 ∧ (0x00B : Offset).toNat / 4 = 2 ∧ (0x00F : Offset).toNat / 4 = 3 ∧
    (0x017 : Offset).toNat / 4 = 5 ∧ (0x013 : Offset).toNat / 4 = 4 ∧ (0x3FFFFFF : Offset).toNat / 4 = 0xFFFFFF :=
  ⟨⟨by decide, .inr (.inr (by decide)), rfl, by decide, .inr (.inl rfl), rfl⟩, by decide, .inr (.inr (by decide)), rfl, by decide⟩

theorem test_hyp_AddressLowBitsAreIgnored : (0x018 : Offset).toNat / 4 = (0x01B : Offset).toNat / 4 := by decide

theorem test_hyp_ReservedAndReadOnlyOffsets :
    (∀ op, (idleWith op).phase = .idle ∧ (idleWith op).host = [op]) ∧ fresh.params.wellFormed = true ∧
    (∀ a ∈ [0x030, 0x0FF, 0x120, 0x3FF, 0xFF8, 0xFFF, 0x1400, 0x1FFF, 0x4000, 0xFFFFFF, 0x1000040, 0x1FFFFFF, 0x2000040,
      0x3FFFFFF], ReservedOffset fresh.params a) ∧
    ∀ a ∈ [0x000, 0x00F, 0x014, 0x017, 0x024, 0x02F, 0x800, 0xFF7, 0x1000, 0x13FF, 0x2000, 0x3FFF], ReadOnlyOffset a := by
  refine ⟨fun _ => ⟨rfl, rfl⟩, ?_⟩
  unfold ReservedOffset ReadOnlyOffset
  decide +kernel

theorem test_hyp_IdlePhase : fresh.phase = .idle ∧ (31 : Fin 256).val / 32 = (0 : Fin 8).val ∧
    (255 : Fin 256).val / 32 = (7 : Fin 8).val := by decide

theorem test_hyp_BufferWindowsAreLittleEndian :
    let s := withIn 60 [1, 2, 3, 4] { fresh with outBuf := [(63, 9)] }
    s.phase = .idle ∧ s.params.wellFormed = true ∧ 4 * 15 < s.params.inBytes ∧ 4 * 15 < s.params.outBytes ∧
    s.inBuf.read (4 * 15 + 3) = some 4 ∧ s.outBuf.read (4 * 15 + 3) = some 9 ∧ s.outBuf.read (4 * 15) = none := by
  decide +kernel

theorem test_hyp_RootRegisterLayout :
    fresh.phase = .idle ∧ fresh.status.treeValid = false ∧ leafTree.status.treeValid = true ∧ leafTree.root = .leaf 5 ∧
    (scenario1 false).status.treeValid = true ∧ (scenario1 false).root = .int 1 := by decide +kernel

theorem test_hyp_NodeWindowLayout :
    (scenario1 true).phase = .idle ∧ (scenario1 true).nodes[1].left = .leaf 66 ∧ (scenario1 true).nodes[1].right = .int 0 ∧
    (scenario1 true).nodes[1].num = some 1 ∧ (scenario1 true).nodes[254].num = none := by decide +kernel

theorem test_hyp_CodeWindowLayout :
    scenario1Coded.phase = .idle ∧ scenario1Coded.code[65] = some [true, false] ∧ [true, false].length ≤ 255 ∧
    scenario1Coded.code[255] = none := by decide +kernel

theorem test_hyp_ExecutingCommandIsUndisturbed :
    let s := busyWith (.wr 0x010 1)
    s.phase = .exec ∧ 0 < s.busyLeft ∧ s.host.head? ≠ some .assertReset ∧ s.host.head? ≠ some .powerCycle := by decide

/-- The fresh state meets the invariant. -/
theorem test_fresh_inv : fresh.Inv where
  buffers :=
    { params := by decide
      inWf := by decide
      inAtResetWf := by decide
      outWf := by decide
      outAtResetWf := by decide
      inWithin := fun _ h => by cases h
      inAtResetWithin := fun _ h => by cases h
      outWithin := fun _ h => by cases h
      outAtResetWithin := fun _ h => by cases h }
  tree := fun h => absurd h (by decide)
  numbers := ⟨fun _ => by decide +kernel, fun h => absurd h (by decide)⟩
  codes := ⟨fun _ => by decide +kernel, fun h => absurd h (by decide)⟩
  status := ⟨by decide, fun h => absurd h (by decide)⟩

/-- A PACK executing, every IN byte written, one host operation still to land. -/
def running : State :=
  { issue 7 0 0 0 { fresh with inBuf := (List.range 64).map fun a => (a, BitVec.ofNat 8 a) } with
    busyLeft := 1, host := [.wait] }

theorem test_running_inv : running.Inv where
  buffers :=
    { params := by decide
      inWf := by decide +kernel
      inAtResetWf := by decide
      outWf := by decide
      outAtResetWf := by decide
      inWithin := by unfold Memory.Within; decide +kernel
      inAtResetWithin := fun _ h => by cases h
      outWithin := fun _ h => by cases h
      outAtResetWithin := fun _ h => by cases h }
  tree := fun h => absurd h (by decide)
  numbers := ⟨fun _ => by decide +kernel, fun h => absurd h (by decide)⟩
  codes := ⟨fun _ => by decide +kernel, fun h => absurd h (by decide)⟩
  status := ⟨by decide, fun _ => by decide⟩

theorem test_running_inWritten : running.InWritten := by
  unfold State.InWritten
  decide +kernel

/-- With `test_running_inv` and `test_running_inWritten`. -/
theorem test_hyp_ExecutingCommandCompletes :
    running.phase = .exec ∧ .assertReset ∉ running.host ∧ .powerCycle ∉ running.host := by decide

/-- Reset and loss of power, in the middle of a command and while IDLE. -/
theorem test_hyp_ResetAbandonsAndKeepsBuffers :
    let s (op : HostOp) := { running with host := [op] }
    let s' (op : HostOp) := { fresh with inAtReset := [(63, 9)], outBuf := [(0, 7)], host := [op] }
    (∀ op, (s op).HostTurn ∧ (s op).inBuf.wf = true ∧ (s op).outBuf.wf = true ∧ (s op).host = [op] ∧
      (s' op).HostTurn ∧ (s' op).inBuf.wf = true ∧ (s' op).outBuf.wf = true ∧ (s' op).host = [op]) ∧
    (s .assertReset).inBuf.read 63 = some 63 ∧ (s' .assertReset).inBuf.read 63 = none ∧
    (s' .assertReset).inAtReset.read 63 = some 9 :=
  ⟨fun _ => ⟨.inr (.inr Nat.one_pos), test_running_inv.buffers.inWf, rfl, rfl, .inl rfl, rfl, rfl, rfl⟩, by decide +kernel, rfl, rfl⟩

theorem test_hyp_InitSequenceSetsResetValues :
    let s := { scenario1Coded with phase := .init .pending }
    s.phase = .init .pending ∧ s.busyLeft = 0 ∧ .assertReset ∉ s.host := by decide

/-- For InitEndsWithStatusZeroOrEight: reset held, with a release next, another operation next, or none. -/
theorem test_hyp_ReleaseFromHeld :
    let s (l : List HostOp) := { scenario1Coded with phase := .init .held, host := l }
    (s [.releaseReset]).phase = .init .held ∧ (s [.releaseReset]).host = [.releaseReset] ∧
    (s [.wr 0x018 1]).host.head? ≠ some .releaseReset ∧ (s []).host.head? ≠ some .releaseReset := by decide

/-- For InitEndsWithStatusZeroOrEight: a write still to land in INIT, with WR_IGNORED set before it or not. -/
theorem test_hyp_InitEndsWithStatusZeroOrEight :
    let s := { scenario1Coded with phase := .init .pending, busyLeft := 1, host := [.wr 0x018 1] }
    s.phase = .init .pending ∧ .assertReset ∉ s.host ∧ .powerCycle ∉ s.host ∧ s.status.wrIgnored = false ∧
    s.ignoreWrite.status.wrIgnored = true ∧ s.ignoreWrite.phase = .init .pending := by decide

/-- A pool of two with one weight, in rising order of label. -/
def twoLeaves : Pool := [{ ref := .leaf 1, w := 0, label := 1 }, { ref := .leaf 2, w := 0, label := 2 }]

/-- For SelectReturnsLightestPair, SelectRefTakesLeastWeightThenLabel and WeightsFitFortyBits. -/
theorem test_hyp_Select : (twoLeaves.map PoolEntry.label).Nodup ∧ 2 ≤ twoLeaves.length ∧
    (selectPair .ref twoLeaves).isSome = true := by decide

/-- For BuildMergesGreedily and BuiltTreeShape: no symbol, one, two. -/
theorem test_hyp_Build :
    (presentSymbols fresh.freq).length = 0 ∧ (presentSymbols (withFreq [(5, 3)] fresh).freq).length = 1 ∧
    (presentSymbols (withFreq [(1, 1), (255, 0)] fresh).freq).length = 2 := by decide +kernel

/-- With `test_completes_build`: the same counts in two different states. -/
theorem test_hyp_BuildDependsOnFreqAndSelectOnly :
    let s := issue 1 0 0 0 (withFreq [(1, 1), (2, 1)] fresh)
    let s' := issue 1 9 9 9 (withFreq [(1, 1), (2, 1)] leafTree)
    s.freq = s'.freq ∧ s.params.select = s'.params.select ∧ answers (exec .build s') (fun t => !t.status.err) = true := by
  decide +kernel

/-- The tree of V1. -/
def tree1 : SlotTree := .node 1 (.leaf 66) (.node 0 (.leaf 65) (.leaf 67))

theorem test_scenario_1_tree (b : Bool) : (scenario1 b).tree = some tree1 ∧ tree1.postorder.Nodup := by
  cases b <;> decide +kernel

/-- For NumberAssignsPostorder, NumbersAreDistinctAndRootIsLast, GencodesFillsCodeTable and SerializeWritesHeader. -/
theorem test_scenario_1_treeOk (b : Bool) : (scenario1 b).TreeOk := fun _ => ⟨tree1, test_scenario_1_tree b⟩

theorem test_scenario_1_numbersOk : (scenario1 true).NumbersOk :=
  ⟨fun h => absurd h (by decide), fun _ => ⟨rfl, tree1, (test_scenario_1_tree true).1, by decide +kernel⟩⟩

theorem test_hyp_Number : fresh.status.treeValid = false ∧ (scenario1 false).status.treeValid = true := by decide

/-- For GencodesFillsCodeTable: a leaf tree and an internal one, a symbol in the tree and one outside it. -/
theorem test_hyp_GencodesFillsCodeTable :
    leafTree.tree = some (.leaf 5) ∧ tree1 = .node 1 (.leaf 66) (.node 0 (.leaf 65) (.leaf 67)) ∧
    symbolOf 0 ∉ tree1.leaves ∧
    tree1.leafPaths [] = [(66, [false])] ++ (symbolOf 65, [true, false]) :: [(67, [true, true])] := by decide +kernel

/-- For CodesArePrefixFree, CodeLengthsFitTheirField and PackUnpackRoundTrip. -/
theorem test_scenario_1_codesOk : scenario1Coded.CodesOk :=
  ⟨fun h => absurd h (by decide), fun _ => ⟨rfl, tree1, (test_scenario_1_tree true).1, by decide +kernel⟩⟩

theorem test_hyp_CodesArePrefixFree :
    scenario1Coded.status.codesValid = true ∧ (65 : Fin 256) ≠ 66 ∧ scenario1Coded.code[65] = some [true, false] ∧
    scenario1Coded.code[66] = some [false] := by decide +kernel

/-- The header of V21 is 9 bytes: it fits at 55 and not at 56 in an OUT of 64 bytes. -/
theorem test_hyp_SerializeWritesHeader :
    (scenario1 false).status.numbered = false ∧ (scenario1 true).status.numbered = true ∧
    (issue 4 55 0 0 (scenario1 true)).opArg0 + 9 ≤ 64 ∧ 64 < (issue 4 56 0 0 (scenario1 true)).opArg0 + 9 := by decide

def leafRec (l r : Byte) : NodeRec := { lType := 0, lData := l, rType := 0, rData := r }

/-- The record part of a header read back from a buffer by position. -/
def recordsHeld (m : Memory) (index : Bool) (a : Nat) (recs : List NodeRec) : Bool :=
  (List.range recs.length).all fun j => (recs[j]?.map fun r : NodeRec => decide <|
    m.read (a + 4 * j) = some r.lType ∧ (index = true ∨ r.lType ≠ 1 → m.read (a + 4 * j + 1) = some r.lData) ∧
    m.read (a + 4 * j + 2) = some r.rType ∧ (index = true ∨ r.rType ≠ 1 → m.read (a + 4 * j + 3) = some r.rData)).getD false

theorem holdsRecords_of {m : Memory} {index : Bool} {a : Nat} {recs : List NodeRec} (h : recordsHeld m index a recs = true) :
    m.HoldsRecords index a recs := by
  intro j r hr
  have := List.all_eq_true.1 h j (List.mem_range.2 (List.getElem?_eq_some_iff.1 hr).1)
  rw [hr] at this
  exact of_decide_eq_true this

/-- For HeaderChecksInOrder: each check at its boundary. -/
theorem test_hyp_HeaderChecksInOrder :
    let s1 := issue 5 1 64 0 fresh
    let s2 := issue 5 64 0 0 fresh
    let s3 := issue 5 0 1 0 (withIn 0 [0] fresh)
    let s4 := issue 5 0 4 0 (withIn 0 [1] fresh)
    let s5 := issue 5 0 5 1 (withIn 0 [1, 2, 1, 0, 2] fresh)
    let s6 := issue 5 0 5 1 (withIn 0 [1, 0, 1, 0, 2] fresh)
    s1.params.inBytes < s1.opArg0 + s1.opArg1 ∧
    (s2.opArg0 + s2.opArg1 ≤ s2.params.inBytes ∧ s2.opArg1 = 0) ∧
    (1 ≤ s3.opArg1 ∧ s3.inBuf.read s3.opArg0 = some 0) ∧
    (s4.inBuf.read s4.opArg0 = some 1 ∧ s4.opArg1 < 1 + 4 * (1 : Byte).toNat) ∧
    (s5.inBuf.read s5.opArg0 = some 1 ∧ 1 + 4 * (1 : Byte).toNat ≤ s5.opArg1 ∧
      (∀ index, s5.inBuf.HoldsRecords index (s5.opArg0 + 1) [{ lType := 2, lData := 1, rType := 0, rData := 2 }])) ∧
    ((∀ index, s6.inBuf.HoldsRecords index (s6.opArg0 + 1) [leafRec 1 2]) ∧ (1 : Byte).toNat ≤ s6.opArg2) := by
  refine ⟨by decide +kernel, by decide +kernel, by decide +kernel, by decide +kernel, ⟨by decide +kernel, by decide +kernel, ?_⟩,
    ?_, by decide +kernel⟩
  · intro index
    cases index <;> exact holdsRecords_of (by decide +kernel)
  · intro index
    cases index <;> exact holdsRecords_of (by decide +kernel)

/-- A header in IN, a deserializer's checks met. -/
theorem headerReady_of {s : State} {index : Bool} {recs : List NodeRec} (h : (s.opArg0 + s.opArg1 ≤ s.params.inBytes ∧
    1 + 4 * recs.length ≤ s.opArg1 ∧ 1 ≤ recs.length ∧ recs.length ≤ 255 ∧ s.opArg2 < recs.length) ∧
    (∀ r ∈ recs, (r.lType = 0 ∨ r.lType = 1) ∧ (r.rType = 0 ∨ r.rType = 1)) ∧
    s.inBuf.read s.opArg0 = some (BitVec.ofNat 8 recs.length) ∧
    recordsHeld s.inBuf index (s.opArg0 + 1) recs = true) : s.HeaderReady index recs :=
  { range := h.1.1, fits := h.1.2.1, least := h.1.2.2.1, most := h.1.2.2.2.1, root := h.1.2.2.2.2, types := h.2.1,
    count := h.2.2.1, bytes := holdsRecords_of h.2.2.2 }

/-- V28, V37 and V39 as checked headers. -/
def recs28 : List NodeRec := [leafRec 65 67, { lType := 0, lData := 66, rType := 1, rData := 0 }]
def recs37 : List NodeRec := [{ lType := 1, lData := 1, rType := 0, rData := 2 }]
def recs39 : List NodeRec := [leafRec 1 2, { lType := 1, lData := 0, rType := 1, rData := 0 }]

def state28 : State := issue 5 0 9 1 (withIn 0 [2, 0, 65, 0, 67, 0, 66, 1, 0] fresh)
def state37 : State := issue 5 0 5 0 (withIn 0 [1, 1, 1, 0, 2] fresh)
def state39 : State := issue 5 0 9 1 (withIn 0 [2, 0, 1, 0, 2, 1, 0, 1, 0] fresh)

/-- V28's header with its last byte, the data byte of a type=1 field, never written. -/
def partly : State := issue 6 55 9 1 (withIn 55 [2, 0, 65, 0, 67, 0, 66, 1] fresh)

/-- V33, whose last record has two internal children and is in no order SERIALIZE writes. -/
def recs33 : List NodeRec :=
  [leafRec 1 2, leafRec 3 4, { lType := 1, lData := 0, rType := 0, rData := 5 },
    { lType := 1, lData := 2, rType := 1, rData := 1 }]
def state33 : State := issue 6 0 17 3 (withIn 0 [4, 0, 1, 0, 2, 0, 3, 0, 4, 1, 0, 0, 5, 1, 2, 1, 1] fresh)

theorem test_hyp_HeaderReady :
    state28.HeaderReady true recs28 ∧ state28.HeaderReady false recs28 ∧ state37.HeaderReady true recs37 ∧
    state37.HeaderReady false recs37 ∧ state39.HeaderReady true recs39 ∧ state33.HeaderReady false recs33 ∧
    partly.HeaderReady false recs28 :=
  ⟨headerReady_of (by decide +kernel), headerReady_of (by decide +kernel), headerReady_of (by decide +kernel),
    headerReady_of (by decide +kernel), headerReady_of (by decide +kernel), headerReady_of (by decide +kernel),
    headerReady_of (by decide +kernel)⟩

def childOf (t d : Byte) : Ref := if t = 1 then .int (slotOf d.toNat) else .leaf d

def arenaFrom (recs : List NodeRec) : Arena :=
  arenaOf (recs.map fun r => { left := childOf r.lType r.lData, right := childOf r.rType r.rData, num := none })

theorem test_hyp_DeserGeneralBuildsOrRejects :
    (∃ r ∈ recs37, r.lType = 1 ∧ recs37.length ≤ r.lData.toNat) ∧
    (∀ r ∈ recs28, (r.lType = 1 → r.lData.toNat < recs28.length) ∧ (r.rType = 1 → r.rData.toNat < recs28.length)) ∧
    (∃ tr, readTree (arenaFrom recs28) 255 (.int 1) = some tr ∧ tr.postorder.Nodup) ∧
    (∀ r ∈ recs39, (r.lType = 1 → r.lData.toNat < recs39.length) ∧ (r.rType = 1 → r.rData.toNat < recs39.length)) ∧
    ¬ ∃ tr, readTree (arenaFrom recs39) 255 (.int 1) = some tr ∧ tr.postorder.Nodup := by
  refine ⟨by decide, by decide, ⟨tree1, by decide +kernel⟩, by decide, ?_⟩
  rintro ⟨tr, h, hn⟩
  have h' : readTree (arenaFrom recs39) 255 (.int 1) =
      some (.node 1 (.node 0 (.leaf 1) (.leaf 2)) (.node 0 (.leaf 1) (.leaf 2))) := by decide +kernel
  rw [h'] at h
  cases h
  exact absurd hn (by decide)

theorem test_hyp_DeserPostorderBuildsOrRejects :
    (∀ j, j ≤ state28.opArg2 → StackSuffices recs28 j) ∧ (∀ j, j ≤ state33.opArg2 → StackSuffices recs33 j) ∧
    postorderStack recs33 2 = [1, 0] ∧ postorderStack recs33 3 = [2, 0] ∧
    ∃ j, j ≤ state37.opArg2 ∧ ¬ StackSuffices recs37 j := by
  unfold StackSuffices
  refine ⟨?_, ?_, by decide, by decide, 0, by decide, by decide⟩
  · intro j hj
    have hj : j ≤ 1 := hj
    interval_cases j <;> decide
  · intro j hj
    have hj : j ≤ 3 := hj
    interval_cases j <;> decide

/-- For SerializeRoundTrip: scenario 1's header written by SERIALIZE 0 and read back from IN. -/
theorem test_hyp_SerializeRoundTrip :
    (scenario1 true).root = .int 1 ∧
    ∃ t, exec .serialize (issue 4 0 0 0 (scenario1 true)) = .next t ∧
      (!t.status.err ∧ state28.opArg0 + state28.opArg1 ≤ state28.params.inBytes ∧ t.result0.toNat ≤ state28.opArg1 ∧
        state28.opArg2 = t.result1.toNat - 1 ∧
        ∀ j, j < t.result0.toNat → state28.inBuf.read (state28.opArg0 + j) = t.outBuf.read (0 + j) : Bool) = true :=
  ⟨rfl, next_of_answers (by decide +kernel)⟩

/-- For PackWritesSizedPayload, with the output range at its two boundaries. -/
theorem test_hyp_PackWritesSizedPayload :
    packing.opArg0 + packing.opArg1 ≤ packing.params.inBytes ∧
    (∀ j, j < packing.opArg1 → ∃ x : Byte, packing.inBuf.read (packing.opArg0 + j) = some x ∧
      packing.code[x.toNat]'x.isLt = [[true, false], [false], [true, true], [false]][j]?) ∧
    59 + 4 + 1 ≤ packing.params.outBytes ∧ packing.params.outBytes < 60 + 4 + 1 := by
  decide +kernel

/-- For PackRejectsRangeThenMissingCode: V52's input, the fifth symbol without a code. -/
theorem test_hyp_PackRejectsRangeThenMissingCode :
    let s := issue 7 0 5 0 (withIn 0 [0x41, 0x42, 0x43, 0x42, 0x44] scenario1Coded)
    (issue 7 61 4 0 scenario1Coded).params.inBytes < 61 + 4 ∧ s.opArg0 + s.opArg1 ≤ s.params.inBytes ∧ 4 < s.opArg1 ∧
    (∀ k, k < 4 → ∃ y : Byte, s.inBuf.read (s.opArg0 + k) = some y ∧ s.code[y.toNat]'y.isLt ≠ none) ∧
    s.inBuf.read (s.opArg0 + 4) = some 0x44 ∧ s.code[0x44] = none := by
  decide +kernel

/-- For UnpackChecksInOrder: each check at its boundary. -/
theorem test_hyp_UnpackChecksInOrder :
    let s1 := issue 8 1 64 0 fresh
    let s2 := issue 8 61 3 0 fresh
    let s3 := issue 8 60 4 0 (withIn 60 [0, 0, 0, 0] fresh)
    let s4 := issue 8 0 4 61 (withIn 0 [4, 0, 0, 0] leafTree)
    s1.params.inBytes < s1.opArg0 + s1.opArg1 ∧
    (s2.opArg0 + s2.opArg1 ≤ s2.params.inBytes ∧ s2.opArg1 < 4) ∧
    (4 ≤ s3.opArg1 ∧ s3.inBuf.Holds s3.opArg0 [0, 0, 0, 0] ∧ s3.status.treeValid = false) ∧
    (s4.inBuf.Holds s4.opArg0 [4, 0, 0, 0] ∧ s4.status.treeValid = true ∧
      s4.params.outBytes < s4.opArg2 + (4 : Word).toNat) := by
  unfold Memory.Holds
  decide +kernel

/-- V55's state. -/
def unpacking : State := issue 8 0 5 0 (withIn 0 [4, 0, 0, 0, 0x98] (scenario1 true))

/-- For UnpackDecodesLeafPaths. -/
theorem test_hyp_UnpackDecodesLeafPaths :
    let l : List (Byte × BitStr) := [(65, [true, false]), (66, [false]), (67, [true, true]), (66, [false])]
    unpacking.status.treeValid = true ∧ unpacking.tree = some tree1 ∧ unpacking.root = .int 1 ∧ l ≠ [] ∧
    (∀ q ∈ l, q ∈ tree1.leafPaths []) ∧ unpacking.opArg0 + unpacking.opArg1 ≤ unpacking.params.inBytes ∧
    4 ≤ unpacking.opArg1 ∧ unpacking.inBuf.Holds unpacking.opArg0 [4, 0, 0, 0] ∧
    (l.flatMap Prod.snd).length ≤ 8 * (unpacking.opArg1 - 4) ∧
    unpacking.inBuf.HoldsBits (unpacking.opArg0 + 4) (l.flatMap Prod.snd) ∧
    unpacking.opArg2 + l.length ≤ unpacking.params.outBytes := by
  unfold Memory.Holds Memory.HoldsBits
  decide +kernel

/-- For UnpackOfLeafRoot: V60 and V61, 8 payload bits for 8 symbols or for 9. -/
theorem test_hyp_UnpackOfLeafRoot :
    let s := issue 8 0 5 0 (withIn 0 [8, 0, 0, 0, 0xFF] leafTree)
    let s' := issue 8 0 5 0 (withIn 0 [9, 0, 0, 0, 0] leafTree)
    (s.status.treeValid = true ∧ s.root = .leaf 5 ∧ s.opArg0 + s.opArg1 ≤ s.params.inBytes ∧ 4 ≤ s.opArg1 ∧
      s.inBuf.Holds s.opArg0 [8, 0, 0, 0] ∧ s.opArg2 + (8 : Word).toNat ≤ s.params.outBytes ∧
      (8 : Word).toNat ≤ 8 * (s.opArg1 - 4)) ∧
    s'.inBuf.Holds s'.opArg0 [9, 0, 0, 0] ∧ s'.opArg2 + (9 : Word).toNat ≤ s'.params.outBytes ∧
    8 * (s'.opArg1 - 4) < (9 : Word).toNat := by
  unfold Memory.Holds
  decide +kernel

/-- For UnpackOfShortPayloadIsTruncated: the payload `01010101` ends in the first bit of a longer path. -/
theorem test_hyp_UnpackOfShortPayloadIsTruncated :
    let s := issue 8 0 5 0 (withIn 0 [9, 0, 0, 0, 0x55] (scenario1 false))
    let l : List (Byte × BitStr) := [(66, [false]), (65, [true, false]), (65, [true, false]), (65, [true, false])]
    let cut : BitStr := [true]
    s.status.treeValid = true ∧ s.tree = some tree1 ∧ s.root = .int 1 ∧ (∀ p ∈ l, p ∈ tree1.leafPaths []) ∧
    (65, [true, false]) ∈ tree1.leafPaths [] ∧ cut <+: [true, false] ∧ cut.length < [true, false].length ∧
    l.length < (9 : Word).toNat ∧ s.opArg0 + s.opArg1 ≤ s.params.inBytes ∧ 4 ≤ s.opArg1 ∧
    s.inBuf.Holds s.opArg0 [9, 0, 0, 0] ∧ (l.flatMap Prod.snd ++ cut).length = 8 * (s.opArg1 - 4) ∧
    s.inBuf.HoldsBits (s.opArg0 + 4) (l.flatMap Prod.snd ++ cut) ∧ s.opArg2 + (9 : Word).toNat ≤ s.params.outBytes := by
  unfold Memory.Holds Memory.HoldsBits
  decide +kernel

/-- V55's state with the tree not numbered. -/
def unnumbered : State := issue 8 0 5 0 (withIn 0 [4, 0, 0, 0, 0x98] (scenario1 false))

/-- For PackUnpackRoundTrip, with `test_scenario_1_codesOk`: what PACK wrote at 9, copied to IN at 0, the numbers otherwise. -/
theorem test_hyp_PackUnpackRoundTrip :
    packing.params.wellFormed = true ∧ packing.status.codesValid = true ∧
    ∃ t, exec .pack packing = .next t ∧
      (!t.status.err ∧ (∀ k : Fin 255, unnumbered.nodes[k].left = packing.nodes[k].left ∧
          unnumbered.nodes[k].right = packing.nodes[k].right) ∧ unnumbered.nodes ≠ packing.nodes ∧
        unnumbered.root = packing.root ∧ unnumbered.status.treeValid ∧ unnumbered.opArg1 = t.result0.toNat ∧
        (∀ j, j < t.result0.toNat → unnumbered.inBuf.read (unnumbered.opArg0 + j) = t.outBuf.read (packing.opArg2 + j)) ∧
        unnumbered.opArg2 + packing.opArg1 ≤ unnumbered.params.outBytes : Bool) = true :=
  ⟨by decide, by decide, next_of_answers (by decide +kernel)⟩

/-- For CommandsStopOnlyOnUnwrittenInput, with `test_fresh_inv`: a PACK of one byte that nothing has written. -/
theorem test_hyp_CommandsStopOnlyOnUnwrittenInput :
    (exec .pack { fresh with latch := { word := 7, arg0 := 63, arg1 := 1, arg2 := 0 } } matches
      .fault .unwrittenIn) = true := by
  decide +kernel

theorem test_hyp_ResetMeetsInvariant : Params.wellFormed { inBytes := 4, outBytes := 2 ^ 24, select := .free 3 } = true := by
  decide

/-- For the StepKeeps statements: `running` meets the invariant (`test_running_inv`) and steps. -/
theorem test_hyp_StepKeeps : answers (step running) (fun t => t.phase = .exec) = true := by decide +kernel

end Sys2Proof.Tests
end

/-! SUPPORT. Forests in the arena: what BUILD and the deserializers keep while they make a tree. -/

namespace Sys2Proof.Machine

/-! ### Fuel -/

/-- A tree is read with any fuel at least its number of internal nodes. -/
theorem readTree_of_length_le {nodes : Arena} {fuel n : Nat} {r : Ref} {t : SlotTree}
    (h : readTree nodes fuel r = some t) (hn : t.postorder.length ≤ n) : readTree nodes n r = some t := by
  induction fuel generalizing r t n with
  | zero =>
    cases r with
    | leaf s =>
      cases h
      exact readTree_leaf nodes n s
    | int i => cases h
  | succ fuel ih =>
    cases r with
    | leaf s =>
      cases h
      exact readTree_leaf nodes n s
    | int i =>
      obtain ⟨_, l, r, he, rfl, hl, hr⟩ := readTree_int h
      cases he
      simp only [SlotTree.postorder, List.length_append, List.length_singleton] at hn
      obtain ⟨m, rfl⟩ : ∃ m, n = m + 1 := ⟨n - 1, by omega⟩
      rw [readTree, ih hl (by omega), ih hr (by omega)]

/-! ### Slots below a bound -/

/-- The slots numbered below `k`. -/
def slotsBelow (k : Nat) : List (Fin 255) := (List.range k).map slotOf

theorem slotsBelow_succ (k : Nat) : slotsBelow (k + 1) = slotsBelow k ++ [slotOf k] := by
  simp [slotsBelow, List.range_succ]

@[simp] theorem slotsBelow_length (k : Nat) : (slotsBelow k).length = k := by simp [slotsBelow]

theorem slotsBelow_nodup {k : Nat} (hk : k ≤ 255) : (slotsBelow k).Nodup := by
  refine List.Nodup.map_on (fun a ha b hb h => ?_) List.nodup_range
  rw [List.mem_range] at ha hb
  rw [← slotOf_val (show a < 255 by omega), h, slotOf_val (by omega)]

/-! ### Forests -/

/-- The slots of the tree under a reference, in postorder; none if there is no such tree. -/
def slotsOf (nodes : Arena) (r : Ref) : List (Fin 255) := ((readTree nodes 255 r).map SlotTree.postorder).getD []

theorem slotsOf_eq {nodes : Arena} {r : Ref} {t : SlotTree} (h : readTree nodes 255 r = some t) :
    slotsOf nodes r = t.postorder := by simp [slotsOf, h]

@[simp] theorem slotsOf_leaf (nodes : Arena) (x : Byte) : slotsOf nodes (.leaf x) = [] :=
  slotsOf_eq (readTree_leaf nodes 255 x)

/-- The references are roots of disjoint trees that together use exactly the slots below `k`, each once. -/
structure Forest (nodes : Arena) (k : Nat) (roots : List Ref) : Prop where
  reads : ∀ r ∈ roots, ∃ t, readTree nodes 255 r = some t
  slots : (roots.flatMap (slotsOf nodes)).Perm (slotsBelow k)

theorem Forest.nil (nodes : Arena) : Forest nodes 0 [] := ⟨by simp, .nil⟩

theorem Forest.perm {nodes : Arena} {k : Nat} {rs rs' : List Ref} (h : Forest nodes k rs) (hp : rs'.Perm rs) :
    Forest nodes k rs' :=
  ⟨fun r hr => h.reads r (hp.subset hr), (hp.flatMap_right _).trans h.slots⟩

/-- A leaf uses no slot. -/
theorem Forest.cons_leaf {nodes : Arena} {k : Nat} {rs : List Ref} (x : Byte) (h : Forest nodes k rs) :
    Forest nodes k (.leaf x :: rs) := by
  refine ⟨fun r hr => ?_, by simpa using h.slots⟩
  rcases List.mem_cons.1 hr with rfl | hr
  · exact ⟨_, readTree_leaf nodes 255 x⟩
  · exact h.reads r hr

theorem Forest.leaves (nodes : Arena) (xs : List Byte) : Forest nodes 0 (xs.map Ref.leaf) := by
  induction xs with
  | nil => exact .nil nodes
  | cons x xs ih => exact ih.cons_leaf x

/-- The next slot joins two trees of the forest into one. -/
theorem Forest.join {nodes : Arena} {k : Nat} {a b : Ref} {rs : List Ref} (h : Forest nodes k (a :: b :: rs)) (hk : k < 255)
    (ha : nodes[slotOf k].left = a) (hb : nodes[slotOf k].right = b) :
    Forest nodes (k + 1) (.int (slotOf k) :: rs) := by
  obtain ⟨l, hl⟩ := h.reads a (by simp)
  obtain ⟨r, hr⟩ := h.reads b (by simp)
  have hslots := h.slots
  simp only [List.flatMap_cons, slotsOf_eq hl, slotsOf_eq hr] at hslots
  have hlen : (SlotTree.node (slotOf k) l r).postorder.length ≤ 255 := by
    have := hslots.length_eq
    simp only [List.length_append, slotsBelow_length] at this
    simp only [SlotTree.postorder, List.length_append, List.length_singleton]
    omega
  have hread : readTree nodes 255 (.int (slotOf k)) = some (.node (slotOf k) l r) := by
    refine readTree_of_length_le (fuel := 256) ?_ hlen
    rw [readTree, ha, hb, hl, hr]
  refine ⟨fun q hq => ?_, ?_⟩
  · rcases List.mem_cons.1 hq with rfl | hq
    · exact ⟨_, hread⟩
    · exact h.reads q (by simp [hq])
  · rw [List.flatMap_cons, slotsOf_eq hread, SlotTree.postorder, slotsBelow_succ]
    calc
      l.postorder ++ r.postorder ++ [slotOf k] ++ rs.flatMap (slotsOf nodes)
      _ = (l.postorder ++ r.postorder) ++ ([slotOf k] ++ rs.flatMap (slotsOf nodes)) := List.append_assoc ..
      List.Perm _ ((l.postorder ++ r.postorder) ++ (rs.flatMap (slotsOf nodes) ++ [slotOf k])) :=
        List.perm_append_comm.append_left _
      _ = (l.postorder ++ (r.postorder ++ rs.flatMap (slotsOf nodes))) ++ [slotOf k] := by simp only [List.append_assoc]
      List.Perm _ (slotsBelow k ++ [slotOf k]) := hslots.append_right _

/-- Every root of a forest is the root of a strict binary tree. -/
theorem Forest.tree {nodes : Arena} {k : Nat} {rs : List Ref} (h : Forest nodes k rs) (hk : k ≤ 255) {r : Ref}
    (hr : r ∈ rs) : ∃ t, readTree nodes 255 r = some t ∧ t.postorder.Nodup := by
  obtain ⟨t, ht⟩ := h.reads r hr
  have hn : (rs.flatMap (slotsOf nodes)).Nodup := h.slots.nodup_iff.2 (slotsBelow_nodup hk)
  exact ⟨t, ht, slotsOf_eq ht ▸ (List.nodup_flatMap.1 hn).1 r hr⟩

end Sys2Proof.Machine

/-! SUPPORT. BUILD's pool: what SELECT returns, and that the merges make a tree. -/

namespace Sys2Proof.Machine

/-! ### SELECT -/

/-- SELECT_REF picks an entry of any pool that has one. -/
theorem leastRef_mem {p : Pool} (hp : p ≠ []) : ∃ e, leastRef p = some e ∧ e ∈ p := by
  induction p with
  | nil => exact absurd rfl hp
  | cons e p ih =>
    rw [leastRef]
    cases p with
    | nil => exact ⟨e, rfl, by simp⟩
    | cons f q =>
      obtain ⟨g, hg, hmem⟩ := ih (by simp)
      rw [hg]
      refine ⟨_, rfl, ?_⟩
      split
      · exact List.mem_cons_of_mem _ hmem
      · simp

/-- Some entry has the least weight. -/
theorem exists_minWeight {p : Pool} (hp : p ≠ []) : ∃ e ∈ p, minWeight p = some e.w := by
  induction p with
  | nil => exact absurd rfl hp
  | cons e p ih =>
    rw [minWeight]
    cases p with
    | nil => exact ⟨e, by simp, rfl⟩
    | cons f q =>
      obtain ⟨g, hg, hw⟩ := ih (by simp)
      rw [hw]
      rcases le_total e.w g.w with h | h
      · exact ⟨e, by simp, by simp [h]⟩
      · exact ⟨g, List.mem_cons_of_mem _ hg, by simp [h]⟩

/-- A free tie-break picks an entry of any pool that has one, and one of the lightest. -/
theorem pickLightest_mem {p : Pool} (tie : Nat) (hp : p ≠ []) : ∃ e, pickLightest tie p = some e ∧ e ∈ lightest p := by
  obtain ⟨e, he, hw⟩ := exists_minWeight hp
  have hlt : tie % (lightest p).length < (lightest p).length :=
    Nat.mod_lt _ (List.length_pos_of_mem (List.mem_filter.2 ⟨he, by simp [hw]⟩))
  exact ⟨(lightest p)[tie % (lightest p).length], List.getElem?_eq_getElem hlt, List.getElem_mem hlt⟩

theorem selectFirst_mem (sel : Select) {p : Pool} (hp : p ≠ []) : ∃ e, selectFirst sel p = some e ∧ e ∈ p := by
  cases sel with
  | ref => exact leastRef_mem hp
  | free k =>
    obtain ⟨e, he, hm⟩ := pickLightest_mem (Config.tieFirst k p) hp
    exact ⟨e, he, (List.mem_filter.1 hm).1⟩

theorem selectSecond_mem (sel : Select) (whole : Pool) {p : Pool} (hp : p ≠ []) :
    ∃ e, selectSecond sel whole p = some e ∧ e ∈ p := by
  cases sel with
  | ref => exact leastRef_mem hp
  | free k =>
    obtain ⟨e, he, hm⟩ := pickLightest_mem (Config.tieSecond k whole) hp
    exact ⟨e, he, (List.mem_filter.1 hm).1⟩

/-- Where labels are distinct, dropping an entry's label drops that entry and no other. -/
theorem perm_cons_dropLabel {p : Pool} (hp : (p.map PoolEntry.label).Nodup) {a : PoolEntry} (ha : a ∈ p) :
    p.Perm (a :: dropLabel a.label p) := by
  induction p with
  | nil => cases ha
  | cons e p ih =>
    rw [List.map_cons, List.nodup_cons, List.mem_map] at hp
    obtain ⟨he, hp⟩ := hp
    rcases List.mem_cons.1 ha with rfl | ha
    · have hp' : dropLabel a.label p = p := List.filter_eq_self.2 fun f hf => by
        simpa using fun h => he ⟨f, hf, h⟩
      have hcons : dropLabel a.label (a :: p) = dropLabel a.label p := List.filter_cons_of_neg (by simp)
      rw [hcons, hp']
    · have hne : e.label ≠ a.label := fun h => he ⟨a, ha, h.symm⟩
      rw [dropLabel, List.filter_cons_of_pos (by simpa using hne)]
      exact ((ih hp ha).cons e).trans (.swap a e _)

theorem dropLabel_sublist (l : Nat) (p : Pool) : (dropLabel l p).Sublist p := List.filter_sublist

/-- SELECT splits two entries off any pool of at least two. -/
theorem selectPair_perm (sel : Select) {p : Pool} (hp : (p.map PoolEntry.label).Nodup) (h2 : 2 ≤ p.length) :
    ∃ a b, selectPair sel p = some (a, b) ∧ p.Perm (a :: b :: dropLabel b.label (dropLabel a.label p)) := by
  obtain ⟨a, hsa, ha⟩ := selectFirst_mem sel (p := p) (by rintro rfl; simp at h2)
  have hperm := perm_cons_dropLabel hp ha
  have hlen := hperm.length_eq
  obtain ⟨b, hsb, hb⟩ := selectSecond_mem sel p (p := dropLabel a.label p) (by
    intro h
    simp only [h, List.length_cons, List.length_nil] at hlen
    omega)
  have hrest := perm_cons_dropLabel (hp.sublist ((dropLabel_sublist a.label p).map _)) hb
  exact ⟨a, b, by simp [selectPair, hsa, hsb], hperm.trans (hrest.cons a)⟩

/-! ### The merges -/

/-- The pool before merge `k`: distinct labels below the next one (41_tree_builder.md R171, R174), over a forest on the slots
filled so far. -/
structure PoolReady (nodes : Arena) (maxSym k : Nat) (p : Pool) : Prop where
  labels : (p.map PoolEntry.label).Nodup
  bound : ∀ e ∈ p, e.label < maxSym + 1 + k
  forest : Forest nodes k (p.map PoolEntry.ref)

/-- A merge keeps the pool ready, over an arena that has the merge's node in its slot. -/
theorem PoolReady.merge {nodes : Arena} {maxSym k : Nat} {p rest : Pool} {a b : PoolEntry} (h : PoolReady nodes maxSym k p)
    (hp : p.Perm (a :: b :: rest)) (hk : k < 255) (hnode : nodes[slotOf k] = mergedNode a b) :
    PoolReady nodes maxSym (k + 1) (rest ++ [mergedEntry maxSym k a b]) := by
  have hperm : (rest ++ [mergedEntry maxSym k a b]).Perm (mergedEntry maxSym k a b :: rest) := List.perm_append_singleton ..
  have hrest : rest ⊆ p := fun e he => hp.symm.subset (by simp [he])
  refine ⟨?_, fun e he => ?_, ?_⟩
  · have hnd := (hp.map PoolEntry.label).nodup_iff.1 h.labels
    simp only [List.map_cons, List.nodup_cons] at hnd
    refine (hperm.map _).nodup_iff.2 (List.nodup_cons.2 ⟨fun hm => ?_, hnd.2.2⟩)
    obtain ⟨e, he, hl⟩ := List.mem_map.1 hm
    have := h.bound e (hrest he)
    simp only [mergedEntry] at hl
    omega
  · rcases List.mem_cons.1 (hperm.subset he) with rfl | he
    · simp [mergedEntry]
    · have := h.bound e (hrest he)
      omega
  · refine Forest.perm ?_ (hperm.map _)
    exact Forest.join (h.forest.perm (hp.map _).symm) hk (by rw [hnode]; rfl) (by rw [hnode]; rfl)

/-- The loop of R174 turns a ready pool into one tree, whose root is the slot of the last merge, over any arena that holds the
nodes of the merges from slot `k` on. -/
theorem forest_mergeLoop (sel : Select) {nodes : Arena} {maxSym n k : Nat} {p : Pool} (h : PoolReady nodes maxSym k p)
    (hp : p.length = n + 1) (hn : 0 < n) (hk : k + n ≤ 255)
    (hnodes : ∀ j, j < n → nodes[slotOf (k + j)] = (mergeLoop sel maxSym n k p).getD j .cleared) :
    Forest nodes (k + n) [.int (slotOf (k + n - 1))] := by
  induction n generalizing k p with
  | zero => exact absurd hn (Nat.lt_irrefl 0)
  | succ n ih =>
    obtain ⟨a, b, hsel, hperm⟩ := selectPair_perm sel h.labels (by omega)
    simp only [mergeLoop, hsel] at hnodes
    have hready := h.merge hperm (by omega) (by simpa using hnodes 0 hn)
    have hlen := hperm.length_eq
    simp only [List.length_cons] at hlen
    cases n with
    | zero =>
      have : dropLabel b.label (dropLabel a.label p) = [] := List.eq_nil_of_length_eq_zero (by omega)
      rw [this] at hready
      exact hready.forest
    | succ n =>
      have := ih hready (by simp; omega) (by omega) (by omega) fun j hj => by
        simpa [Nat.add_assoc, Nat.add_comm 1 j] using hnodes (j + 1) (by omega)
      rwa [show k + 1 + (n + 1) = k + (n + 1 + 1) by omega] at this

/-! ### The initial pool -/

theorem initialPool_eq (freq : FreqTable) :
    initialPool freq = ((List.finRange 256).filter fun i => freq[i].present).map fun i =>
      { ref := .leaf (symbolOf i), w := freq[i].count.toNat, label := i.val } := by
  rw [← List.filterMap_eq_map, ← List.filterMap_eq_filter, List.filterMap_filterMap]
  unfold initialPool
  congr 1
  funext i
  cases h : freq[i].present <;> simp [Option.guard, h, -Fin.getElem_fin]

theorem initialPool_length_le (freq : FreqTable) : (initialPool freq).length ≤ 256 := by
  rw [initialPool_eq, List.length_map]
  exact (List.length_filter_le _ _).trans (by simp)

theorem le_foldl_max_label (p : Pool) (m : Nat) :
    m ≤ p.foldl (fun m e => max m e.label) m ∧ ∀ e ∈ p, e.label ≤ p.foldl (fun m e => max m e.label) m := by
  induction p generalizing m with
  | nil => simp
  | cons f p ih =>
    obtain ⟨hm, hp⟩ := ih (max m f.label)
    refine ⟨(le_max_left _ _).trans hm, fun e he => ?_⟩
    rcases List.mem_cons.1 he with rfl | he
    · exact (le_max_right _ _).trans hm
    · exact hp e he

theorem le_maxLabel {p : Pool} {e : PoolEntry} (he : e ∈ p) : e.label ≤ maxLabel p := (le_foldl_max_label p 0).2 e he

theorem initialPool_ready (nodes : Arena) (freq : FreqTable) :
    PoolReady nodes (maxLabel (initialPool freq)) 0 (initialPool freq) where
  labels := by
    rw [initialPool_eq, List.map_map]
    exact ((List.nodup_finRange 256).filter _).map Fin.val_injective
  bound e he := by
    have := le_maxLabel he
    omega
  forest := by
    rw [initialPool_eq, List.map_map]
    have hleaves := Forest.leaves nodes (((List.finRange 256).filter fun i => freq[i].present).map symbolOf)
    rw [List.map_map] at hleaves
    exact hleaves

/-! ### What BUILD makes -/

/-- ROOT of a pool of at least two is the slot of the last merge. -/
theorem builtRoot_of_two_le {p : Pool} (hp : 2 ≤ p.length) : builtRoot p = .int (slotOf (p.length - 2)) := by
  match p, hp with
  | _ :: _ :: _, _ => rfl

/-- What BUILD makes of a pool with an entry is a strict binary tree. -/
theorem build_makes_tree (sel : Select) {freq : FreqTable} (h : initialPool freq ≠ []) :
    ∃ t, readTree (arenaOf (mergeLoop sel (maxLabel (initialPool freq)) ((initialPool freq).length - 1) 0 (initialPool freq)))
      255 (builtRoot (initialPool freq)) = some t ∧ t.postorder.Nodup := by
  have hpos := List.length_pos_iff.2 h
  have hle := initialPool_length_le freq
  by_cases h1 : (initialPool freq).length = 1
  · obtain ⟨e, he⟩ := List.length_eq_one_iff.1 h1
    refine (initialPool_ready _ freq).forest.tree (Nat.zero_le _) ?_
    simp [he, builtRoot]
  · have hroot := builtRoot_of_two_le (p := initialPool freq) (by omega)
    refine (forest_mergeLoop sel (initialPool_ready _ freq) (n := (initialPool freq).length - 1) (by omega) (by omega)
      (by omega) fun j hj => ?_).tree (by omega) ?_
    · simp [slotOf_val (show j < 255 by omega)]
    · rw [hroot, List.mem_singleton]
      congr 2
      omega

/-! ### Numbers -/

/-- BUILD's nodes carry no number. -/
theorem mergeLoop_num {sel : Select} {maxSym n k : Nat} {p : Pool} {x : Node} (h : x ∈ mergeLoop sel maxSym n k p) :
    x.num = none := by
  induction n generalizing k p with
  | zero => cases h
  | succ n ih =>
    rw [mergeLoop] at h
    split at h
    · cases h
    · rcases List.mem_cons.1 h with rfl | h
      · rfl
      · exact ih h

end Sys2Proof.Machine

/-! SUPPORT. The deserializers: a list they accept makes a tree (44_tree_serdes.md R246, R254). -/

namespace Sys2Proof.Machine

/-! ### The header -/

/-- A parsed header has 1 to 255 records, and root_index is the position of one of them. -/
theorem parseHeader_ok_bounds {s : State} {index : Bool} {a : HeaderArgs} {recs : List NodeRec}
    (h : parseHeader s index a = .ok recs) : a.root < recs.length ∧ recs.length ≤ 255 := by
  simp only [parseHeader, engine_bind_ok, raiseIf_ok, decide_eq_false_iff_not] at h
  obtain ⟨_, -, _, -, count, -, _, -, _, -, recs', hrecs, _, -, _, hroot, h⟩ := h
  cases h
  have hlen := (readRecords_ok hrecs).1
  have := count.isLt
  omega

/-! ### DESER_GENERAL -/

theorem recNode_left (r : NodeRec) : (recNode r).left = refOf r.lType r.lData := rfl
theorem recNode_right (r : NodeRec) : (recNode r).right = refOf r.rType r.rData := rfl

theorem arenaOf_recNode {recs : List NodeRec} {j : Nat} {r : NodeRec} (hr : recs[j]? = some r) (hj : j < 255) :
    (arenaOf (recs.map recNode))[slotOf j] = recNode r := by
  simp [slotOf_val hj, hr]

/-- A visit that raises nothing has walked a tree, and adds exactly its slots, each once, to those seen. -/
theorem visit_reads {recs : List NodeRec} (hrecs : recs.length ≤ 255) {fuel j : Nat} {seen seen' : List Nat}
    (h : visit recs fuel j seen = .ok seen') (hseen : seen.Nodup) :
    seen'.Nodup ∧ ∃ t, readTree (arenaOf (recs.map recNode)) fuel (.int (slotOf j)) = some t ∧
      seen'.Perm (t.postorder.map Fin.val ++ seen) := by
  induction fuel generalizing j seen seen' with
  | zero => cases h
  | succ fuel ih =>
    have field : ∀ {t d : Byte} {seen seen' : List Nat}, seen.Nodup →
        (if t = 1 then visit recs fuel d.toNat seen else .ok seen : Engine (List Nat)) = .ok seen' →
        seen'.Nodup ∧ ∃ u, readTree (arenaOf (recs.map recNode)) fuel (refOf t d) = some u ∧
          seen'.Perm (u.postorder.map Fin.val ++ seen) := by
      intro t d seen seen' hn hv
      unfold refOf
      split at hv
      · rw [if_pos ‹_›]
        exact ih hv hn
      · rw [if_neg ‹_›]
        cases hv
        exact ⟨hn, .leaf d, readTree_leaf _ _ d, .refl _⟩
    rw [visit] at h
    split at h
    · cases h
    rename_i hj
    split at h
    · cases h
    rename_i r hr
    obtain ⟨mid, hl, hr'⟩ := engine_bind_ok.1 h
    have hlt : j < 255 := by
      have := (List.getElem?_eq_some_iff.1 hr).1
      omega
    obtain ⟨hmid, lt, hlt', hlp⟩ := field (List.nodup_cons.2 ⟨hj, hseen⟩) hl
    obtain ⟨hnd, rt, hrt', hrp⟩ := field hmid hr'
    refine ⟨hnd, .node (slotOf j) lt rt, ?_, ?_⟩
    · rw [readTree, arenaOf_recNode hr hlt, recNode_left, recNode_right, hlt', hrt']
    · have hpost : (SlotTree.node (slotOf j) lt rt).postorder.map Fin.val =
          lt.postorder.map Fin.val ++ rt.postorder.map Fin.val ++ [j] := by simp [SlotTree.postorder, slotOf_val hlt]
      rw [hpost]
      calc
        List.Perm seen' (rt.postorder.map Fin.val ++ mid) := hrp
        List.Perm _ (rt.postorder.map Fin.val ++ (lt.postorder.map Fin.val ++ j :: seen)) := hlp.append_left _
        _ = (rt.postorder.map Fin.val ++ lt.postorder.map Fin.val) ++ ([j] ++ seen) := by simp
        List.Perm _ ((lt.postorder.map Fin.val ++ rt.postorder.map Fin.val) ++ ([j] ++ seen)) :=
          List.perm_append_comm.append_right _
        _ = lt.postorder.map Fin.val ++ rt.postorder.map Fin.val ++ [j] ++ seen := by simp

/-- A list that passes check_shape makes a strict binary tree. -/
theorem checkShape_makes_tree {recs : List NodeRec} (hrecs : recs.length ≤ 255) {root : Nat} {seen : List Nat}
    (h : checkShape recs root = .ok seen) :
    ∃ t, readTree (arenaOf (recs.map recNode)) 255 (.int (slotOf root)) = some t ∧ t.postorder.Nodup := by
  obtain ⟨hn, t, ht, hp⟩ := visit_reads hrecs h List.nodup_nil
  rw [List.append_nil] at hp
  have hnd : t.postorder.Nodup := (hp.nodup_iff.1 hn).of_map _
  exact ⟨t, readTree_of_length_le ht (postorder_length_le hnd), hnd⟩

/-! ### DESER_POSTORDER -/

/-- The references on the postorder stack. -/
def stackRefs (stack : List Nat) : List Ref := stack.map fun n => .int (slotOf n)

/-- A field takes a leaf, or a tree off the stack: the trees stay the same forest. -/
theorem Forest.popRef {nodes : Arena} {k : Nat} {rs : List Ref} {stack stack' : List Nat} {t d : Byte} {r : Ref}
    (h : Forest nodes k (rs ++ stackRefs stack)) (hpop : popRef t d stack = .ok (r, stack')) :
    Forest nodes k (r :: rs ++ stackRefs stack') := by
  unfold Machine.popRef at hpop
  split at hpop
  · split at hpop <;> cases hpop
    exact h.perm List.perm_middle.symm
  · cases hpop
    exact h.cons_leaf d

/-- The loop of R252 keeps a forest on the stack, the record built last on top, over any arena that holds its nodes. -/
theorem forest_buildPostorder {nodes : Arena} {recs : List NodeRec} {j : Nat} {stack : List Nat} {l : List Node}
    (h : buildPostorder j stack recs = .ok l) (hstack : Forest nodes j (stackRefs stack)) (hne : recs ≠ [])
    (hj : j + recs.length ≤ 255) (hnodes : ∀ i, i < recs.length → nodes[slotOf (j + i)] = l.getD i .cleared) :
    ∃ rs, Forest nodes (j + recs.length) (.int (slotOf (j + recs.length - 1)) :: rs) := by
  induction recs generalizing j stack l with
  | nil => exact absurd rfl hne
  | cons r recs ih =>
    simp only [buildPostorder, engine_bind_ok] at h
    obtain ⟨⟨right, stack₁⟩, hr, ⟨left, stack₂⟩, hl, tail, htail, h⟩ := h
    cases h
    simp only [List.length_cons] at hj hnodes ⊢
    have hnode : nodes[slotOf j] = { left := left, right := right, num := none } := hnodes 0 (by omega)
    have hpush : Forest nodes (j + 1) (stackRefs (j :: stack₂)) :=
      Forest.join ((Forest.popRef (rs := []) hstack hr).popRef hl) (by omega) (by rw [hnode]) (by rw [hnode])
    cases recs with
    | nil => exact ⟨_, hpush⟩
    | cons r' recs =>
      obtain ⟨rs, hrs⟩ := ih htail hpush (by simp) (by omega) fun i hi => by
        simpa [Nat.add_assoc, Nat.add_comm 1 i] using hnodes (i + 1) (by omega)
      exact ⟨rs, by rwa [show j + 1 + (r' :: recs).length = j + ((r' :: recs).length + 1) by omega] at hrs⟩

/-- What DESER_POSTORDER builds of the records up to root_index is a strict binary tree (R254). -/
theorem buildPostorder_makes_tree {recs : List NodeRec} {root : Nat} (hroot : root < recs.length) (hrecs : recs.length ≤ 255)
    {l : List Node} (h : buildPostorder 0 [] (recs.take (root + 1)) = .ok l) :
    ∃ t, readTree (arenaOf l) 255 (.int (slotOf root)) = some t ∧ t.postorder.Nodup := by
  have hlen : (recs.take (root + 1)).length = root + 1 := by simp; omega
  obtain ⟨rs, hrs⟩ := forest_buildPostorder (nodes := arenaOf l) h (.nil _)
    (List.ne_nil_of_length_eq_add_one hlen) (by omega) fun i hi => by simp [slotOf_val (show i < 255 by omega)]
  rw [hlen, Nat.zero_add, Nat.add_sub_cancel] at hrs
  exact hrs.tree (by omega) (by simp)

/-- The postorder builder's nodes carry no number. -/
theorem buildPostorder_num {recs : List NodeRec} {j : Nat} {stack : List Nat} {l : List Node}
    (h : buildPostorder j stack recs = .ok l) {x : Node} (hx : x ∈ l) : x.num = none := by
  induction recs generalizing j stack l with
  | nil =>
    cases h
    cases hx
  | cons r recs ih =>
    simp only [buildPostorder, engine_bind_ok] at h
    obtain ⟨_, -, _, -, tail, htail, h⟩ := h
    cases h
    rcases List.mem_cons.1 hx with rfl | hx
    · rfl
    · exact ih htail hx

end Sys2Proof.Machine

/-! SUPPORT. All that a completed command and a step can do to the tree, its numbers and the code table. -/

namespace Sys2Proof.Machine

/-! ### What a command computes before it completes -/

/-- The states a successful command can reach before its completion: nothing changed, bytes of OUT written, a new tree without
numbers, the tree numbered, or its codes made. -/
inductive Effect (s : State) : State → Prop where
  | unchanged : Effect s s
  | write (a : Nat) (bs : List Byte) : Effect s (s.outWrite a bs)
  | install (l : List Node) (root : Ref) (numbers : ∀ x ∈ l, x.num = none)
      (tree : ∃ t, readTree (arenaOf l) 255 root = some t ∧ t.postorder.Nodup) : Effect s (s.installTree (arenaOf l) root)
  | number (t : SlotTree) (valid : s.status.treeValid = true) (tree : s.tree = some t) :
      Effect s { s with
        nodes := numberFrom (clearNumbers s.nodes) 0 t.postorder, status := { s.status with numbered := true } }
  | makeCodes (t : SlotTree) (valid : s.status.treeValid = true) (tree : s.tree = some t) :
      Effect s { s with code := t.codeTable, status := { s.status with codesValid := true } }

/-- The states a command can complete in: with one of the ten error codes, or with success. -/
inductive Completion (s : State) : State → Prop where
  | error {c : ErrCode} (hc : c ≠ .none) : Completion s (s.completeErr c)
  | success {u : State} (h : Effect s u) (r0 r1 : Word) : Completion s (u.completeOk r0 r1)

theorem Completion.of_eq {s t u : State} {o : Host.Outcome State Fault Refusal} (h : o = .next t) (e : o = .next u)
    (hu : Completion s u) : Completion s t := by
  cases h.symm.trans e
  exact hu

/-- No next state comes of a stop. -/
theorem next_ne_fault {t : State} {f : Fault} {o : Host.Outcome State Fault Refusal} (h : o = .next t) (e : o = .fault f) :
    False := by
  cases h.symm.trans e

theorem parseHeader_raise_ne_none {s : State} {index : Bool} {a : HeaderArgs} {c : ErrCode}
    (h : parseHeader s index a = .error (.raise c)) : c ≠ .none := by
  rintro rfl
  rcases parseHeader_error h with h | h | h | ⟨h, -⟩ <;> cases h

theorem checkShape_raise_ne_none {recs : List NodeRec} {root : Nat} {c : ErrCode}
    (h : checkShape recs root = .error (.raise c)) : c ≠ .none := by
  rintro rfl
  rcases visit_error h with h | h <;> cases h

theorem codeStream_raise_ne_none {s : State} {n a : Nat} {c : ErrCode} (h : codeStream s n a = .error (.raise c)) :
    c ≠ .none := by
  rintro rfl
  rcases codeStream_error h with h | ⟨h, -⟩ <;> cases h

theorem decodeSymbols_raise_ne_none {s : State} {base avail n : Nat} {c : ErrCode}
    (h : decodeSymbols s base avail n 0 = .error (.raise c)) : c ≠ .none := by
  rintro rfl
  rcases decodeSymbols_error (Nat.zero_le _) h with h | ⟨h, -⟩ <;> cases h

theorem execBuild_completion {s t : State} (h : execBuild s = .next t) : Completion s t := by
  rcases execBuild_cases s with ⟨-, e⟩ | ⟨hne, e⟩
  · exact .of_eq h e (.error (by decide))
  · exact .of_eq h e (.success (.install _ _ (fun _ hx => mergeLoop_num hx) (build_makes_tree _ hne)) _ _)

theorem execNumber_completion {s t : State} (h : execNumber s = .next t) : Completion s t := by
  rcases execNumber_cases s with ⟨-, e⟩ | ⟨-, -, e⟩ | ⟨tr, hv, ht, e⟩
  · exact .of_eq h e (.error (by decide))
  · exact (next_ne_fault h e).elim
  · exact .of_eq h e (.success (.number tr hv ht) _ _)

theorem execGenCodes_completion {s t : State} (h : execGenCodes s = .next t) : Completion s t := by
  rcases execGenCodes_cases s with ⟨-, e⟩ | ⟨-, -, e⟩ | ⟨tr, hv, ht, e⟩
  · exact .of_eq h e (.error (by decide))
  · exact (next_ne_fault h e).elim
  · exact .of_eq h e (.success (.makeCodes tr hv ht) _ _)

theorem execSerialize_completion {s t : State} (h : execSerialize s = .next t) : Completion s t := by
  rcases execSerialize_cases s with
    ⟨-, e⟩ | ⟨-, -, e⟩ | ⟨-, -, ⟨-, e⟩ | ⟨_, -, ⟨-, e⟩ | ⟨recs, -, ⟨-, e⟩ | ⟨-, e⟩⟩⟩⟩
  · exact .of_eq h e (.error (by decide))
  · exact .of_eq h e (.error (by decide))
  · exact (next_ne_fault h e).elim
  · exact (next_ne_fault h e).elim
  · exact .of_eq h e (.error (by decide))
  · exact .of_eq h e (.success (.write _ _) _ _)

theorem execDeserGeneral_completion {s t : State} (h : execDeserGeneral s = .next t) : Completion s t := by
  rcases execDeserGeneral_cases s with
    ⟨c, hc, e⟩ | ⟨f, -, e⟩ | ⟨recs, hp, ⟨-, e⟩ | ⟨-, ⟨c, hc, e⟩ | ⟨f, -, e⟩ | ⟨seen, hc, e⟩⟩⟩
  · exact .of_eq h e (.error (parseHeader_raise_ne_none hc))
  · exact (next_ne_fault h e).elim
  · exact .of_eq h e (.error (by decide))
  · exact .of_eq h e (.error (checkShape_raise_ne_none hc))
  · exact (next_ne_fault h e).elim
  · refine .of_eq h e (.success (.install _ _ (fun x hx => ?_) ?_) _ _)
    · obtain ⟨r, -, rfl⟩ := List.mem_map.1 hx
      rfl
    · exact checkShape_makes_tree (parseHeader_ok_bounds hp).2 hc

theorem execDeserPostorder_completion {s t : State} (h : execDeserPostorder s = .next t) : Completion s t := by
  rcases execDeserPostorder_cases s with
    ⟨c, hc, e⟩ | ⟨f, -, e⟩ | ⟨recs, hp, ⟨c, hc, e⟩ | ⟨f, -, e⟩ | ⟨nodes, hn, e⟩⟩
  · exact .of_eq h e (.error (parseHeader_raise_ne_none hc))
  · exact (next_ne_fault h e).elim
  · cases buildPostorder_error hc
    exact .of_eq h e (.error (by decide))
  · exact (next_ne_fault h e).elim
  · obtain ⟨hroot, hlen⟩ := parseHeader_ok_bounds hp
    exact .of_eq h e (.success (.install _ _ (fun _ hx => buildPostorder_num hn hx)
      (buildPostorder_makes_tree hroot hlen hn)) _ _)

theorem execPack_completion {s t : State} (h : execPack s = .next t) : Completion s t := by
  rcases execPack_cases s with ⟨-, e⟩ | ⟨-, ⟨c, hc, e⟩ | ⟨f, -, e⟩ | ⟨bits, -, ⟨-, e⟩ | ⟨-, e⟩⟩⟩
  · exact .of_eq h e (.error (by decide))
  · exact .of_eq h e (.error (codeStream_raise_ne_none hc))
  · exact (next_ne_fault h e).elim
  · exact .of_eq h e (.error (by decide))
  · exact .of_eq h e (.success (.write _ _) _ _)

theorem execUnpack_completion {s t : State} (h : execUnpack s = .next t) : Completion s t := by
  rcases execUnpack_cases s with ⟨-, e⟩ | ⟨-, ⟨-, e⟩ | ⟨-, ⟨c, hc, e⟩ | ⟨f, -, e⟩ | ⟨_, -, ⟨-, e⟩ | ⟨-, ⟨-, e⟩ |
    ⟨-, ⟨-, e⟩ | ⟨-, ⟨c, hc, e⟩ | ⟨f, -, e⟩ | ⟨_, _, -, e⟩⟩⟩⟩⟩⟩⟩
  · exact .of_eq h e (.error (by decide))
  · exact .of_eq h e (.error (by decide))
  · cases (inRead_error hc).1
  · exact (next_ne_fault h e).elim
  · exact .of_eq h e (.success .unchanged _ _)
  · exact .of_eq h e (.error (by decide))
  · exact .of_eq h e (.error (by decide))
  · exact .of_eq h e (.error (decodeSymbols_raise_ne_none hc))
  · exact (next_ne_fault h e).elim
  · exact .of_eq h e (.success (.write _ _) _ _)

/-- All the states a command can complete in. -/
theorem exec_completion {i : Instr} {s t : State} (h : exec i s = .next t) : Completion s t := by
  cases i with
  | nop => exact .of_eq h (execNop_eq s) (.success .unchanged 0 0)
  | build => exact execBuild_completion h
  | number => exact execNumber_completion h
  | genCodes => exact execGenCodes_completion h
  | serialize => exact execSerialize_completion h
  | deserGeneral => exact execDeserGeneral_completion h
  | deserPostorder => exact execDeserPostorder_completion h
  | pack => exact execPack_completion h
  | unpack => exact execUnpack_completion h

/-- All the states the latched word can complete in. -/
theorem runLatched_completion {s t : State} (h : runLatched s = .next t) : Completion s t := by
  rcases runLatched_cases s with ⟨i, -, e⟩ | ⟨_, -, e⟩
  · exact exec_completion (e ▸ h)
  · exact .of_eq h (e.trans (execIllegal_eq s)) (.error (by decide))

/-! ### The tree, the numbers and the codes from one state to the next -/

/-- The tree, the numbers, the codes and their three flags are those of another state. -/
structure SameTree (s t : State) : Prop where
  nodes : t.nodes = s.nodes
  root : t.root = s.root
  code : t.code = s.code
  treeValid : t.status.treeValid = s.status.treeValid
  numbered : t.status.numbered = s.status.numbered
  codesValid : t.status.codesValid = s.status.codesValid

theorem SameTree.refl (s : State) : SameTree s s := ⟨rfl, rfl, rfl, rfl, rfl, rfl⟩

theorem SameTree.trans {s t u : State} (h : SameTree s t) (h' : SameTree t u) : SameTree s u :=
  ⟨h'.nodes.trans h.nodes, h'.root.trans h.root, h'.code.trans h.code, h'.treeValid.trans h.treeValid,
    h'.numbered.trans h.numbered, h'.codesValid.trans h.codesValid⟩

theorem SameTree.tree {s t : State} (h : SameTree s t) : t.tree = s.tree := by rw [State.tree, h.nodes, h.root, State.tree]

theorem SameTree.completeOk (s : State) (r0 r1 : Word) : SameTree s (s.completeOk r0 r1) := ⟨rfl, rfl, rfl, rfl, rfl, rfl⟩

/-- No tree, or one just made: no slot has a number and no symbol a code. -/
structure FreshTree (t : State) : Prop where
  tree : t.TreeOk
  numbered : t.status.numbered = false
  numbers : ∀ i : Fin 255, t.nodes[i].num = none
  codesValid : t.status.codesValid = false
  codes : ∀ i : Fin 256, t.code[i] = none

/-- A state with cleared arena and code table, TREE_VALID = NUMBERED = CODES_VALID = 0 (10_state.md R75). -/
theorem freshTree_of_cleared {t : State} (hn : t.nodes = Vector.replicate 255 .cleared) (hc : t.code = Vector.replicate 256 none)
    (htree : t.status.treeValid = false) (hnum : t.status.numbered = false) (hcodes : t.status.codesValid = false) :
    FreshTree t where
  tree h := by simp [htree] at h
  numbered := hnum
  numbers i := by simp [hn, Node.cleared]
  codesValid := hcodes
  codes i := by simp [hc]

/-- All that one step can do to the tree, the numbers and the codes. -/
inductive TreeStep (s t : State) : Prop where
  | same (h : SameTree s t)
  | fresh (h : FreshTree t)
  | number (tr : SlotTree) (valid : s.status.treeValid = true) (tree : s.tree = some tr)
      (h : SameTree { s with
        nodes := numberFrom (clearNumbers s.nodes) 0 tr.postorder, status := { s.status with numbered := true } } t)
  | makeCodes (tr : SlotTree) (valid : s.status.treeValid = true) (tree : s.tree = some tr)
      (h : SameTree { s with code := tr.codeTable, status := { s.status with codesValid := true } } t)

theorem Completion.treeStep {s t : State} (h : Completion s t) : TreeStep s t := by
  cases h with
  | error hc => exact .same ⟨rfl, rfl, rfl, rfl, rfl, rfl⟩
  | success h r0 r1 =>
    cases h with
    | unchanged => exact .same (.completeOk s r0 r1)
    | write a bs => exact .same ⟨rfl, rfl, rfl, rfl, rfl, rfl⟩
    | install l root numbers tree =>
      refine .fresh ⟨fun _ => tree, rfl, fun i => ?_, rfl, fun i => by simp⟩
      simp only [completeOk_nodes, installTree_nodes, Fin.getElem_fin, arenaOf_getElem]
      rcases lt_or_ge i.val l.length with hi | hi
      · rw [List.getD_eq_getElem _ _ hi]
        exact numbers _ (List.getElem_mem hi)
      · rw [List.getD_eq_default _ _ hi]
        rfl
    | number tr valid tree => exact .number tr valid tree (.completeOk _ r0 r1)
    | makeCodes tr valid tree => exact .makeCodes tr valid tree (.completeOk _ r0 r1)

/-! ### Host operations and steps -/

theorem sameTree_drawBusy (s : State) : SameTree s s.drawBusy := by constructor <;> simp

theorem sameTree_accept (w : Word) (s : State) : SameTree s (s.accept w) := by constructor <;> simp

/-- A write while the engine is idle is a command's acceptance, or leaves alone what the engine reports and has made. -/
theorem regWrite_frame (v : Word) (s : State) (r : HostReg) :
    s.regWrite v r = s.accept v ∨
    ((s.regWrite v r).status = s.status ∧ (s.regWrite v r).phase = s.phase ∧ (s.regWrite v r).latch = s.latch ∧
      (s.regWrite v r).nodes = s.nodes ∧ (s.regWrite v r).root = s.root ∧ (s.regWrite v r).code = s.code) := by
  cases r <;> simp [State.regWrite]

theorem sameTree_hostWrite (off : Offset) (v : Word) (s : State) : SameTree s (s.hostWrite off v) := by
  rcases hostWrite_cases off v s with ⟨-, e⟩ | ⟨-, e⟩ <;> rw [e]
  · exact ⟨rfl, rfl, rfl, rfl, rfl, rfl⟩
  · rcases regWrite_frame v s (regOf s.params off) with e | ⟨hst, -, -, hn, hr, hc⟩
    · rw [e]
      exact sameTree_accept v s
    · exact ⟨hn, hr, hc, by rw [hst], by rw [hst], by rw [hst]⟩

/-- A release of reset starts the wait for the INIT sequence, or has no effect. -/
theorem leaveReset_cases (s : State) :
    s.leaveReset = { s with phase := .init .pending }.drawBusy ∨ s.leaveReset = s := by
  unfold State.leaveReset
  split
  · exact .inl rfl
  · exact .inr rfl

theorem sameTree_leaveReset (s : State) : SameTree s s.leaveReset := by
  rcases leaveReset_cases s with e | e <;> rw [e]
  · have phase : SameTree s { s with phase := .init .pending } := ⟨rfl, rfl, rfl, rfl, rfl, rfl⟩
    exact phase.trans (sameTree_drawBusy _)
  · exact .refl s

/-- The host and the platform leave the tree alone, but for loss of power. -/
theorem hostStep_tree (s : State) : SameTree s s.hostStep ∨ FreshTree s.hostStep := by
  rcases hostStep_cases s with ⟨-, e⟩ | ⟨_, -, -, e⟩ | ⟨op, rest, -, -, e⟩
  · rw [e]
    exact .inl (.refl s)
  · rw [e]
    exact .inl ⟨rfl, rfl, rfl, rfl, rfl, rfl⟩
  · rw [e]
    have host : SameTree s { s with host := rest } := ⟨rfl, rfl, rfl, rfl, rfl, rfl⟩
    rcases doHostOp_cases { s with host := rest } op with ⟨off, v, e⟩ | ⟨off, e⟩ | ⟨-, e⟩ | ⟨-, e⟩ | ⟨-, e⟩ <;> rw [e]
    · exact .inl (host.trans (sameTree_hostWrite off v _))
    · exact .inl ⟨rfl, rfl, rfl, rfl, rfl, rfl⟩
    · exact .inl ⟨rfl, rfl, rfl, rfl, rfl, rfl⟩
    · exact .inl (host.trans (sameTree_leaveReset _))
    · exact .inr (freshTree_of_cleared rfl rfl rfl rfl rfl)

theorem busyTick_tree (s : State) : SameTree s s.busyTick ∨ FreshTree s.busyTick := by
  have tick : SameTree s { s with busyLeft := s.busyLeft - 1 } := ⟨rfl, rfl, rfl, rfl, rfl, rfl⟩
  exact (hostStep_tree { s with busyLeft := s.busyLeft - 1 }).imp_left tick.trans

theorem treeStep_of_or {s t : State} (h : SameTree s t ∨ FreshTree t) : TreeStep s t := h.elim .same .fresh

/-- All that a step can do to the tree, the numbers and the codes. -/
theorem step_treeStep {s t : State} (h : step s = .next t) : TreeStep s t := by
  rcases step_cases s with ⟨-, e⟩ | ⟨-, -, e⟩ | ⟨-, -, e⟩ | ⟨-, -, e⟩ | ⟨-, -, e⟩ <;> rw [e] at h
  · cases h
    exact treeStep_of_or (hostStep_tree s)
  · cases h
    exact .fresh (freshTree_of_cleared (by simp) (by simp) (by simp [Status.reset]) (by simp [Status.reset])
      (by simp [Status.reset]))
  · cases h
    exact .same ⟨rfl, rfl, rfl, rfl, rfl, rfl⟩
  · exact (runLatched_completion h).treeStep
  · cases h
    exact treeStep_of_or (busyTick_tree s)

/-! ### Numbering -/

theorem setNumber_children (nodes : Arena) (i j : Fin 255) (n : Nat) :
    (setNumber nodes i n)[j].left = nodes[j].left ∧ (setNumber nodes i n)[j].right = nodes[j].right := by
  rw [setNumber_getElem]
  split <;> exact ⟨rfl, rfl⟩

/-- Numbering leaves all children alone. -/
theorem numberFrom_children (l : List (Fin 255)) (nodes : Arena) (n : Nat) (j : Fin 255) :
    (numberFrom nodes n l)[j].left = nodes[j].left ∧ (numberFrom nodes n l)[j].right = nodes[j].right := by
  induction l generalizing nodes n with
  | nil => exact ⟨rfl, rfl⟩
  | cons i l ih =>
    obtain ⟨hl, hr⟩ := ih (setNumber nodes i n) (n + 1)
    obtain ⟨hl', hr'⟩ := setNumber_children nodes i j n
    exact ⟨hl.trans hl', hr.trans hr'⟩

/-- NUMBER leaves the tree as it is. -/
theorem readTree_numberFrom_clearNumbers (nodes : Arena) (n : Nat) (l : List (Fin 255)) (fuel : Nat) (r : Ref) :
    readTree (numberFrom (clearNumbers nodes) n l) fuel r = readTree nodes fuel r := by
  refine readTree_congr (fun i => ?_) fuel r
  obtain ⟨hl, hr⟩ := numberFrom_children l (clearNumbers nodes) n i
  exact ⟨hl.trans (by simp), hr.trans (by simp)⟩

/-- After NUMBER a slot's number is its position in the list, and every other slot has none. -/
theorem numberFrom_clearNumbers_num {l : List (Fin 255)} (hl : l.Nodup) (nodes : Arena) (i : Fin 255) :
    (numberFrom (clearNumbers nodes) 0 l)[i].num = (l.idxOf? i).map slotOf := by
  rw [numberFrom_getElem hl]
  cases l.idxOf? i <;> simp

end Sys2Proof.Machine

/-! Settled obligations: what every step keeps (10_state.md R36, R54, R55, R62), what reset gives, and that the host leaves an
executing command alone. -/

namespace Sys2Proof.Machine

/-! ### The tree, the numbers and the codes -/

/-- A state with the same tree keeps the tree invariant. -/
theorem SameTree.treeOk {s t : State} (h : SameTree s t) (hs : s.TreeOk) : t.TreeOk := by
  intro hv
  rw [h.tree]
  exact hs (h.treeValid ▸ hv)

/-- Settles O57: BUILD and the deserializers make a tree, and nothing else changes one. -/
theorem stepKeepsTree : Obligations.StepKeepsTree := by
  intro s t hs hst
  cases step_treeStep hst with
  | same h => exact h.treeOk hs
  | fresh h => exact h.tree
  | number tr valid tree h =>
    refine h.treeOk fun hv => ?_
    rw [State.tree, readTree_numberFrom_clearNumbers]
    exact hs hv
  | makeCodes tr valid tree h => exact h.treeOk hs

theorem SameTree.numbersOk {s t : State} (h : SameTree s t) (hs : s.NumbersOk) : t.NumbersOk := by
  unfold State.NumbersOk
  rw [h.numbered, h.treeValid, h.tree, h.nodes]
  exact hs

/-- Settles O58: NUMBER gives each slot of the tree its place in postorder; the codes do not touch numbers, and a new tree
has none. -/
theorem stepKeepsNumbers : Obligations.StepKeepsNumbers := by
  intro s t htree hs hst
  cases step_treeStep hst with
  | same h => exact h.numbersOk hs
  | fresh h => exact ⟨fun _ => h.numbers, fun hn => absurd hn (by simp [h.numbered])⟩
  | number tr valid tree h =>
    obtain ⟨tr', htr', hnd⟩ := htree valid
    cases tree.symm.trans htr'
    refine h.numbersOk ⟨nofun, fun _ => ⟨valid, tr, ?_, numberFrom_clearNumbers_num hnd s.nodes⟩⟩
    rw [State.tree, readTree_numberFrom_clearNumbers]
    exact tree
  | makeCodes tr valid tree h => exact h.numbersOk hs

theorem SameTree.codesOk {s t : State} (h : SameTree s t) (hs : s.CodesOk) : t.CodesOk := by
  unfold State.CodesOk
  rw [h.codesValid, h.treeValid, h.tree, h.code]
  exact hs

/-- Settles O59: GENCODES fills the table from the current tree, NUMBER keeps that tree, and a new tree clears the table. -/
theorem stepKeepsCodes : Obligations.StepKeepsCodes := by
  intro s t hs hst
  cases step_treeStep hst with
  | same h => exact h.codesOk hs
  | fresh h => exact ⟨fun _ => h.codes, fun hc => absurd hc (by simp [h.codesValid])⟩
  | number tr valid tree h =>
    refine h.codesOk ?_
    unfold State.CodesOk State.tree
    simp only [readTree_numberFrom_clearNumbers]
    exact hs
  | makeCodes tr valid tree h =>
    exact h.codesOk ⟨nofun, fun _ => ⟨valid, tr, tree, fun i => by simp⟩⟩

/-! ### ERR, ERRCODE and the fields acceptance sets -/

/-- The status invariant looks at STATUS, the phase and the latch. -/
theorem statusOk_congr {s t : State} (hs : s.StatusOk) (hst : t.status = s.status) (hp : t.phase = s.phase)
    (hl : t.latch = s.latch) : t.StatusOk := by
  unfold State.StatusOk
  rw [hst, hp, hl]
  exact hs

/-- Where no command executes, ERR and ERRCODE need only agree. -/
theorem statusOk_of_ne_exec {t : State} (hp : t.phase ≠ .exec) (he : t.status.err = true ↔ t.status.errCode ≠ .none) :
    t.StatusOk := ⟨he, fun h => absurd h hp⟩

theorem Completion.statusOk {s t : State} (h : Completion s t) : t.StatusOk := by
  cases h with
  | error hc => exact statusOk_of_ne_exec nofun (by simpa using hc)
  | success _ r0 r1 => exact statusOk_of_ne_exec nofun (by simp)

theorem statusOk_ignoreWrite {s : State} (hs : s.StatusOk) : s.ignoreWrite.StatusOk := hs

theorem statusOk_accept (w : Word) (s : State) : (s.accept w).StatusOk := by simp [State.StatusOk, wordByte]

theorem statusOk_hostWrite (off : Offset) (v : Word) {s : State} (hs : s.StatusOk) : (s.hostWrite off v).StatusOk := by
  rcases hostWrite_cases off v s with ⟨-, e⟩ | ⟨-, e⟩ <;> rw [e]
  · exact statusOk_ignoreWrite hs
  · rcases regWrite_frame v s (regOf s.params off) with e | ⟨hst, hp, hl, -⟩
    · rw [e]
      exact statusOk_accept v s
    · exact statusOk_congr hs hst hp hl

theorem statusOk_leaveReset {s : State} (hs : s.StatusOk) : s.leaveReset.StatusOk := by
  rcases leaveReset_cases s with e | e <;> rw [e]
  · exact statusOk_of_ne_exec (by simp) (by simpa using hs.1)
  · exact hs

theorem statusOk_hostStep {s : State} (hs : s.StatusOk) : s.hostStep.StatusOk := by
  rcases hostStep_cases s with ⟨-, e⟩ | ⟨_, -, -, e⟩ | ⟨op, rest, -, -, e⟩ <;> rw [e]
  · exact hs
  · exact hs
  · have hs' : State.StatusOk { s with host := rest } := hs
    rcases doHostOp_cases { s with host := rest } op with ⟨off, v, e⟩ | ⟨off, e⟩ | ⟨-, e⟩ | ⟨-, e⟩ | ⟨-, e⟩ <;> rw [e]
    · exact statusOk_hostWrite off v hs'
    · exact hs'
    · exact statusOk_of_ne_exec nofun hs'.1
    · exact statusOk_leaveReset hs'
    · exact statusOk_of_ne_exec nofun (by simp [Status.reset])

/-- Settles O60: acceptance sets DONE, ERR, ERRCODE and LAST_OP together, completion sets ERR with a code or clears both, and no
other event touches them but reset. -/
theorem stepKeepsStatus : Obligations.StepKeepsStatus := by
  intro s t hs h
  rcases step_cases s with ⟨-, e⟩ | ⟨-, -, e⟩ | ⟨-, -, e⟩ | ⟨-, -, e⟩ | ⟨-, -, e⟩ <;> rw [e] at h
  · cases h
    exact statusOk_hostStep hs
  · cases h
    exact statusOk_of_ne_exec (by simp) (by simp [Status.reset])
  · cases h
    exact statusOk_of_ne_exec nofun hs.1
  · exact (runLatched_completion h).statusOk
  · cases h
    exact statusOk_hostStep (s := { s with busyLeft := s.busyLeft - 1 }) hs

/-! ### Reset -/

/-- Settles O55: right after reset the buffers are empty, there is no tree, number or code, and STATUS reports no error. -/
theorem resetMeetsInvariant : Obligations.ResetMeetsInvariant := by
  intro p hp
  have fresh : FreshTree (State.resetOf p) := freshTree_of_cleared rfl rfl rfl rfl rfl
  refine ⟨⟨hp, rfl, rfl, rfl, rfl, ?_, ?_, ?_, ?_⟩, fresh.tree, ⟨fun _ => fresh.numbers, nofun⟩,
    ⟨fun _ => fresh.codes, nofun⟩, statusOk_of_ne_exec nofun (by simp [State.resetOf, Status.reset])⟩
  all_goals exact fun c hc => nomatch hc

/-! ### Undisturbed execution -/

/-- The host disturbs an executing command by reset and by loss of power only: anything else changes the host's own lists and
WR_IGNORED at most (20_memory.md R83, R85). -/
theorem hostStep_of_exec {s : State} (hp : s.phase = .exec) (hreset : s.host.head? ≠ some .assertReset)
    (hpower : s.host.head? ≠ some .powerCycle) :
    ∃ host reads w, s.hostStep = { s with host := host, reads := reads, status := { s.status with wrIgnored := w } } := by
  rcases hostStep_cases s with ⟨-, e⟩ | ⟨_, -, -, e⟩ | ⟨op, rest, hs, -, e⟩ <;> rw [e]
  · exact ⟨s.host, s.reads, s.status.wrIgnored, rfl⟩
  · exact ⟨s.host, _, s.status.wrIgnored, rfl⟩
  · rw [hs, List.head?_cons] at hreset hpower
    rcases doHostOp_cases { s with host := rest } op with ⟨off, v, e⟩ | ⟨off, e⟩ | ⟨h, -⟩ | ⟨-, e⟩ | ⟨h, -⟩
    · rcases hostWrite_cases off v { s with host := rest } with ⟨-, e'⟩ | ⟨hb, -⟩
      · exact ⟨rest, s.reads, true, e.trans e'⟩
      · simp [State.busy, hp] at hb
    · exact ⟨rest, _, s.status.wrIgnored, e⟩
    · exact absurd (congrArg some h) hreset
    · refine ⟨rest, s.reads, s.status.wrIgnored, e.trans (if_neg ?_)⟩
      simp [hp]
    · exact absurd (congrArg some h) hpower

/-- Settles O22: with time left, a step of an executing command is the host's, and writes are ignored. -/
theorem executingCommandIsUndisturbed : Obligations.ExecutingCommandIsUndisturbed := by
  intro s hp hb hreset hpower
  obtain ⟨host, reads, w, e⟩ := hostStep_of_exec (s := { s with busyLeft := s.busyLeft - 1 }) hp hreset hpower
  have hstep : step s = .next s.busyTick := by simp [step, hp, Nat.pos_iff_ne_zero.1 hb]
  rw [hstep, State.busyTick, e]
  exact ⟨_, rfl, hp, rfl, rfl, rfl, rfl, rfl, rfl, rfl, rfl, rfl, rfl, rfl, rfl, rfl, rfl, rfl⟩

end Sys2Proof.Machine

/-! Settled obligations: what the host reads and writes in each register and window (10_state.md R32 to R61, R75). -/

namespace Sys2Proof.Machine

/-! ### Reads and writes while the engine is idle -/

theorem busy_of_idle {s : State} (h : s.phase = .idle) : s.busy = false := by simp [State.busy, h]

theorem hostRead_of_idle {s : State} (h : s.phase = .idle) (off : Offset) :
    s.hostRead off = s.regValue (regOf s.params off) := by simp [State.hostRead, busy_of_idle h]

/-- The registers that stay readable while BUSY = 1 read the same in every phase (20_memory.md R84). -/
theorem hostRead_of_busyReadable (s : State) {off : Offset} (h : (regOf s.params off).busyReadable = true) :
    s.hostRead off = s.regValue (regOf s.params off) := by simp [State.hostRead, h]

theorem hostWrite_of_idle {s : State} (h : s.phase = .idle) (off : Offset) (v : Word) :
    s.hostWrite off v = s.regWrite v (regOf s.params off) := by simp [State.hostWrite, busy_of_idle h]

/-- Offsets below 0x100 name the control registers, by word. -/
theorem regOf_control (p : Params) {off : Offset} (h : off.toNat < 0x100) : regOf p off = controlReg (off.toNat / 4) := by
  rw [regOf, wordOffset_eq, regAt, if_pos (by omega), Nat.mul_div_cancel_left _ (by omega)]

theorem hostRead_control_of_idle {s : State} (hp : s.phase = .idle) {off : Offset} (h : off.toNat < 0x100) :
    s.hostRead off = s.regValue (controlReg (off.toNat / 4)) := by rw [hostRead_of_idle hp, regOf_control _ h]

theorem hostRead_control_of_busyReadable (s : State) {off : Offset} (h : off.toNat < 0x100)
    (hr : (controlReg (off.toNat / 4)).busyReadable = true) : s.hostRead off = s.regValue (controlReg (off.toNat / 4)) := by
  rw [← regOf_control s.params h] at hr ⊢
  exact hostRead_of_busyReadable s hr

/-- A control register that stores what is written to it reads it back. -/
theorem hostWrite_control_readBack {s t : State} {off : Offset} {v : Word} (hs : s.phase = .idle) (h : off.toNat < 0x100)
    (hw : s.regWrite v (controlReg (off.toNat / 4)) = t) (ht : t.phase = .idle)
    (hv : t.regValue (controlReg (off.toNat / 4)) = v) :
    s.hostWrite off v = t ∧ (s.hostWrite off v).hostRead off = v := by
  rw [hostWrite_of_idle hs, regOf_control _ h, hw, hostRead_control_of_idle ht h]
  exact ⟨rfl, hv⟩

/-- Settles O15: each control register's offset names it, and a write of an ARG register stores there alone. -/
theorem argRegistersReadBack : Obligations.ArgRegistersReadBack := by
  intro s v hp
  refine ⟨hostWrite_control_readBack hp (by decide) rfl hp rfl, hostWrite_control_readBack hp (by decide) rfl hp rfl,
    hostWrite_control_readBack hp (by decide) rfl hp rfl, ?_⟩
  refine ⟨?_, ?_, ?_, ?_, ?_, ?_, ?_⟩ <;> exact hostRead_control_of_idle hp (by decide)

/-! ### The frequency windows -/

theorem writePresent_getElem (freq : FreqTable) (j : Fin 8) (v : Word) (i : Fin 256) :
    (writePresent freq j v)[i] =
      if i.val / 32 = j.val then { freq[i] with present := v.getLsbD (i.val % 32) } else freq[i] := by
  simp [writePresent]

theorem writeCount_getElem (freq : FreqTable) (i k : Fin 256) (v : Word) :
    (writeCount freq i v)[k] = if k = i then { freq[k] with count := v } else freq[k] := by
  simp only [writeCount, Fin.getElem_fin, Vector.getElem_set, Fin.ext_iff, eq_comm (a := i.val)]
  split
  · rename_i h
    simp [h]
  · rfl

/-- The sum of the first `n` bits, each at its weight, has those bits. -/
theorem testBit_foldl_bits (f : Nat → Bool) (n : Nat) :
    (List.range n).foldl (fun acc b => acc + (f b).toNat * 2 ^ b) 0 < 2 ^ n ∧
    ∀ b, ((List.range n).foldl (fun acc b => acc + (f b).toNat * 2 ^ b) 0).testBit b = (decide (b < n) && f b) := by
  induction n with
  | zero => simp
  | succ n ih =>
    obtain ⟨hlt, hbit⟩ := ih
    simp only [List.range_succ, List.foldl_append, List.foldl_cons, List.foldl_nil]
    generalize (List.range n).foldl (fun acc b => acc + (f b).toNat * 2 ^ b) 0 = x at hlt hbit
    refine ⟨?_, fun b => ?_⟩
    · have : (f n).toNat ≤ 1 := Bool.toNat_le _
      rw [Nat.pow_succ]
      nlinarith
    · rw [Nat.add_comm, Nat.mul_comm, Nat.testBit_two_pow_mul_add _ hlt, hbit]
      rcases Nat.lt_trichotomy b n with h | rfl | h
      · simp [h, Nat.lt_succ_of_lt h]
      · cases f b <;> simp
      · have hb : b - n ≠ 0 := by omega
        rw [if_neg (by omega), decide_eq_false (by omega : ¬b < n + 1), Bool.false_and]
        exact Nat.testBit_lt_two_pow ((Bool.toNat_le (f n)).trans_lt (Nat.one_lt_two_pow hb))

theorem wordOfBits_getLsbD (f : Nat → Bool) {b : Nat} (hb : b < 32) : (wordOfBits f).getLsbD b = f b := by
  rw [wordOfBits, BitVec.getLsbD_ofNat, (testBit_foldl_bits f 32).2]
  simp [hb]

theorem freqPresentWord_getLsbD (freq : FreqTable) {i : Fin 256} {j : Fin 8} (h : i.val / 32 = j.val) :
    (freqPresentWord freq j).getLsbD (i.val % 32) = freq[i].present := by
  rw [freqPresentWord, wordOfBits_getLsbD _ (Nat.mod_lt _ (by omega)), ← h, Nat.div_add_mod]
  simp

/-- Settles O16: a window's offset names its own word, and the writes touch one field of the entries that word covers. -/
theorem freqWindowsReadAndWrite : Obligations.FreqWindowsReadAndWrite := by
  intro s v hp
  refine ⟨fun j => ?_, fun i => ?_⟩
  · rw [hostWrite_of_idle hp, hostRead_of_idle hp, regOf_freqPresent]
    refine ⟨writePresent s.freq j v, rfl, fun i => ?_, fun i h => freqPresentWord_getLsbD s.freq h⟩
    rw [writePresent_getElem]
    split <;> exact ⟨rfl, rfl⟩
  · rw [hostWrite_of_idle hp, hostRead_of_idle hp, regOf_freqCount]
    refine ⟨writeCount s.freq i v, rfl, fun k => ?_, rfl⟩
    rw [writeCount_getElem]
    split <;> exact ⟨rfl, rfl⟩

/-! ### Fields of a word, bit by bit -/

theorem flagAt_getLsbD (b : Bool) (pos : Nat) {k : Nat} (hk : k < 32) :
    (flagAt b pos).getLsbD k = (b && decide (pos = k)) := by
  cases b
  · simp [flagAt]
  · rw [flagAt, if_pos rfl, BitVec.getLsbD_ofNat, Nat.testBit_two_pow, decide_eq_true hk]

theorem byteAt_getLsbD (b : Byte) (pos : Nat) {k : Nat} (hk : k < 32) :
    (byteAt b pos).getLsbD k = (decide (pos ≤ k) && b.getLsbD (k - pos)) := by
  rw [byteAt, BitVec.getLsbD_shiftLeft, BitVec.getLsbD_setWidth, decide_eq_true hk,
    decide_eq_true (show k - pos < 32 by omega), Bool.true_and, Bool.true_and, ← decide_not]
  simp

/-- A field of a word is known by its bits. -/
theorem extractLsb'_eq_of_getLsbD {w : Word} {pos len : Nat} {b : BitVec len}
    (h : ∀ k, k < len → w.getLsbD (pos + k) = b.getLsbD k) : w.extractLsb' pos len = b := by
  refine BitVec.eq_of_getLsbD_eq fun k hk => ?_
  rw [BitVec.getLsbD_extractLsb', decide_eq_true hk, Bool.true_and, h k hk]

/-! ### STATUS -/

theorem statusWord_getLsbD (s : State) {k : Nat} (hk : k < 32) : s.statusWord.getLsbD k =
    ((s.busy && decide (0 = k)) || (s.status.done && decide (1 = k)) || (s.status.err && decide (2 = k)) ||
      (s.status.wrIgnored && decide (3 = k)) || (s.status.treeValid && decide (4 = k)) ||
      (s.status.numbered && decide (5 = k)) || (s.status.codesValid && decide (6 = k)) ||
      (decide (8 ≤ k) && s.status.errCode.toByte.getLsbD (k - 8)) ||
      (decide (16 ≤ k) && s.status.lastOp.getLsbD (k - 16))) := by
  simp only [State.statusWord, BitVec.getLsbD_or, flagAt_getLsbD _ _ hk, byteAt_getLsbD _ _ hk]

/-- Settles O18: STATUS stays readable while BUSY = 1, and its fields do not overlap. -/
theorem statusWordLayout : Obligations.StatusWordLayout := by
  intro s
  have hread : s.hostRead 0x014 = s.statusWord := hostRead_control_of_busyReadable s (by decide) rfl
  have hop : s.statusWord.extractLsb' 16 8 = s.status.lastOp := extractLsb'_eq_of_getLsbD fun k hk => by
    rw [statusWord_getLsbD s (by omega)]
    simp (disch := omega) [decide_eq_false, BitVec.getLsbD_of_ge]
  have hhigh : s.statusWord.extractLsb' 24 8 = 0 := extractLsb'_eq_of_getLsbD fun k hk => by
    rw [statusWord_getLsbD s (by omega)]
    simp (disch := omega) [decide_eq_false, BitVec.getLsbD_of_ge]
  have hcode : s.statusWord.extractLsb' 8 8 = s.status.errCode.toByte := extractLsb'_eq_of_getLsbD fun k hk => by
    rw [statusWord_getLsbD s (by omega)]
    simp (disch := omega) [decide_eq_false]
  simp only [hread]
  refine ⟨?_, ?_, ?_, ?_, ?_, ?_, ?_, ?_, hop, hhigh, ?_⟩
  case refine_9 => rw [hcode]; cases s.status.errCode <;> rfl
  all_goals rw [statusWord_getLsbD s (by decide)]; simp [State.busy]

/-! ### References, in ROOT and NODE_CHILD -/

/-- The type bit of a reference (00_scope.md R19). -/
def refTypeBit : Ref → Bool
  | .leaf _ => false
  | .int _ => true

/-- The value byte of a reference (R19). -/
def refValueByte : Ref → Byte
  | .leaf x => x
  | .int i => BitVec.ofNat 8 i.val

/-- The type in bit 8, the value in bits 7:0, no other bit set. -/
theorem refWord_getLsbD (r : Ref) {k : Nat} (hk : k < 32) :
    (Ref.toWord r).getLsbD k = ((refTypeBit r && decide (8 = k)) || (refValueByte r).getLsbD k) := by
  cases r with
  | leaf x => simp [Ref.toWord, refTypeBit, refValueByte, hk]
  | int i =>
    have hi : i.val < 2 ^ 8 := by omega
    have hflag : (0x100 : Word) = flagAt true 8 := rfl
    rw [Ref.toWord, hflag, BitVec.getLsbD_or, flagAt_getLsbD _ _ hk, BitVec.getLsbD_ofNat, refValueByte,
      BitVec.getLsbD_ofNat]
    rcases Nat.lt_or_ge k 8 with h | h
    · simp [refTypeBit, hk, h]
    · have := Nat.testBit_lt_two_pow (hi.trans_le (Nat.pow_le_pow_right (by decide) h))
      simp [refTypeBit, this]

/-- A reference stands at a bit position of a word: the value, then the type, then seven zeros (10_state.md R40, R51). -/
def HoldsRef (w : Word) (pos : Nat) (r : Ref) : Prop :=
  w.extractLsb' pos 8 = refValueByte r ∧ w.getLsbD (pos + 8) = refTypeBit r

theorem HoldsRef.leaf {w : Word} {pos : Nat} {r : Ref} (h : HoldsRef w pos r) (x : Byte) (hr : r = .leaf x) :
    w.getLsbD (pos + 8) = false ∧ w.extractLsb' pos 8 = x := by
  subst hr
  exact ⟨h.2, h.1⟩

theorem HoldsRef.int {w : Word} {pos : Nat} {r : Ref} (h : HoldsRef w pos r) (i : Fin 255) (hr : r = .int i) :
    w.getLsbD (pos + 8) = true ∧ (w.extractLsb' pos 8).toNat = i.val := by
  subst hr
  refine ⟨h.2, ?_⟩
  rw [h.1, refValueByte, BitVec.toNat_ofNat]
  omega

theorem rootWord_getLsbD {s : State} (h : s.status.treeValid = true) {k : Nat} (hk : k < 32) :
    s.rootWord.getLsbD k = (decide (31 = k) || (refTypeBit s.root && decide (8 = k)) || (refValueByte s.root).getLsbD k) := by
  rw [State.rootWord, if_pos h, BitVec.getLsbD_or, flagAt_getLsbD _ _ hk, refWord_getLsbD _ hk, Bool.true_and,
    Bool.or_assoc]

/-- Settles O19: ROOT holds its reference at bit 0 below the valid bit. -/
theorem rootRegisterLayout : Obligations.RootRegisterLayout := by
  intro s hp
  have hread : s.hostRead 0x02C = s.rootWord := hostRead_control_of_idle hp (by decide)
  rw [hread]
  refine ⟨fun h => by simp [State.rootWord, h], fun h => ?_⟩
  have href : HoldsRef s.rootWord 0 s.root := by
    refine ⟨extractLsb'_eq_of_getLsbD fun k hk => ?_, ?_⟩ <;> rw [rootWord_getLsbD h (by omega)]
    · simp (disch := omega) [decide_eq_false]
    · simp
  refine ⟨?_, extractLsb'_eq_of_getLsbD fun k hk => ?_, href.leaf, href.int⟩ <;> rw [rootWord_getLsbD h (by omega)]
  · rfl
  · simp (disch := omega) [decide_eq_false, BitVec.getLsbD_of_ge]

theorem nodeChildWord_getLsbD (n : Node) {k : Nat} (hk : k < 32) : (nodeChildWord n).getLsbD k =
    ((refTypeBit n.left && decide (8 = k)) || (refValueByte n.left).getLsbD k ||
      (decide (16 ≤ k) && ((refTypeBit n.right && decide (8 = k - 16)) || (refValueByte n.right).getLsbD (k - 16)))) := by
  rw [nodeChildWord, BitVec.getLsbD_or, refWord_getLsbD _ hk, BitVec.getLsbD_shiftLeft,
    refWord_getLsbD _ (by omega : k - 16 < 32), decide_eq_true hk, Bool.true_and, ← decide_not]
  simp only [Nat.not_lt]

theorem nodeChildWord_layout (n : Node) : HoldsRef (nodeChildWord n) 0 n.left ∧ HoldsRef (nodeChildWord n) 16 n.right ∧
    (nodeChildWord n).extractLsb' 9 7 = 0 ∧ (nodeChildWord n).extractLsb' 25 7 = 0 := by
  refine ⟨⟨extractLsb'_eq_of_getLsbD fun k hk => ?_, ?_⟩, ⟨extractLsb'_eq_of_getLsbD fun k hk => ?_, ?_⟩,
    extractLsb'_eq_of_getLsbD fun k hk => ?_, extractLsb'_eq_of_getLsbD fun k hk => ?_⟩ <;>
  rw [nodeChildWord_getLsbD n (by omega)]
  all_goals simp (disch := omega) [decide_eq_false, BitVec.getLsbD_of_ge]

/-! ### A byte with a valid bit, in NODE_NUM and CODE_META -/

theorem validByte_layout (b : Byte) : (flagAt true 31 ||| byteAt b 0).getLsbD 31 = true ∧
    (flagAt true 31 ||| byteAt b 0).extractLsb' 8 23 = 0 ∧ (flagAt true 31 ||| byteAt b 0).extractLsb' 0 8 = b := by
  refine ⟨by simp [flagAt], extractLsb'_eq_of_getLsbD fun k hk => ?_, extractLsb'_eq_of_getLsbD fun k hk => ?_⟩
  all_goals
    rw [BitVec.getLsbD_or, flagAt_getLsbD _ _ (by omega), byteAt_getLsbD _ _ (by omega)]
    simp (disch := omega) [decide_eq_false, BitVec.getLsbD_of_ge]

/-- A number below 256 is its byte. -/
theorem ofNat_eq_byteAt {n : Nat} (h : n < 256) : BitVec.ofNat 32 n = byteAt (BitVec.ofNat 8 n) 0 := by
  refine BitVec.eq_of_toNat_eq ?_
  simp [byteAt]
  omega

/-- A byte field that holds a number below 256. -/
theorem validNumber_layout {n : Nat} (h : n < 256) {w : Word} (hw : w = flagAt true 31 ||| byteAt (BitVec.ofNat 8 n) 0) :
    w.getLsbD 31 = true ∧ w.extractLsb' 8 23 = 0 ∧ (w.extractLsb' 0 8).toNat = n := by
  obtain ⟨h31, hmid, hlow⟩ := validByte_layout (BitVec.ofNat 8 n)
  rw [hw, hlow, BitVec.toNat_ofNat]
  exact ⟨h31, hmid, Nat.mod_eq_of_lt h⟩

theorem nodeNumWord_layout {n : Node} {k : Fin 255} (h : n.num = some k) : (nodeNumWord n).getLsbD 31 = true ∧
    (nodeNumWord n).extractLsb' 8 23 = 0 ∧ ((nodeNumWord n).extractLsb' 0 8).toNat = k.val := by
  refine validNumber_layout (by omega) ?_
  rw [nodeNumWord, h, ← ofNat_eq_byteAt (by omega)]

/-- Settles O20: NODE_CHILD holds a reference in each half, NODE_NUM a byte with a valid bit. -/
theorem nodeWindowLayout : Obligations.NodeWindowLayout := by
  intro s i hp
  simp only [hostRead_of_idle hp, regOf_nodeChild, regOf_nodeNum, State.regValue]
  obtain ⟨hleft, hright, hmid, hhigh⟩ := nodeChildWord_layout s.nodes[i]
  exact ⟨hmid, hhigh, hleft.leaf, hleft.int, hright.leaf, hright.int, fun h => by rw [nodeNumWord, h],
    fun k hk => nodeNumWord_layout hk⟩

/-! ### CODE_META and CODE_BITS -/

theorem codeBitsWord_getLsbD (c : Option BitStr) (j : Fin 8) {b : Nat} (hb : b < 32) :
    (codeBitsWord c j).getLsbD b = (c.getD []).getD (32 * j.val + (31 - b)) false := wordOfBits_getLsbD _ hb

theorem codeBitsWord_none (j : Fin 8) : codeBitsWord none j = 0 :=
  BitVec.eq_of_getLsbD_eq fun b hb => by
    rw [codeBitsWord_getLsbD _ _ hb]
    simp

/-- Code bit t is bit 31 - (t mod 32) of word t div 32. -/
theorem codeBitsWord_bit (bits : BitStr) {t : Nat} {j : Fin 8} (hj : j.val = t / 32) :
    (codeBitsWord (some bits) j).getLsbD (31 - t % 32) = bits.getD t false := by
  rw [codeBitsWord_getLsbD _ _ (by omega), hj, show 32 * (t / 32) + (31 - (31 - t % 32)) = t by omega]
  rfl

/-- Settles O21: a length of at most 255 fits CODE_META's byte, and the code bits fill the CODE_BITS words from bit 31 down. -/
theorem codeWindowLayout : Obligations.CodeWindowLayout := by
  intro s i hp hlen
  simp only [hostRead_of_idle hp, regOf_codeMeta, regOf_codeBits, State.regValue]
  refine ⟨fun h => ?_, fun bits h => ?_⟩
  · simp only [h]
    exact ⟨rfl, codeBitsWord_none⟩
  · obtain ⟨hvalid, hmid, hlow⟩ := validNumber_layout (w := codeMetaWord s.code[i])
      (Nat.lt_succ_of_le (hlen bits h)) (by rw [h]; rfl)
    refine ⟨hvalid, hmid, hlow, fun t ht => ?_⟩
    have hreg : regOf s.params (BitVec.ofNat 26 (0x2000 + 32 * i.val + 4 * (t / 32))) = .codeBits i ⟨t / 32, by omega⟩ :=
      regOf_codeBits s.params i ⟨t / 32, by omega⟩
    rw [hreg, ← codeBitsWord_bit bits (j := ⟨t / 32, by omega⟩) rfl, ← h]

/-! ### Reset values -/

/-- With every flag down and no command accepted yet STATUS reads BUSY alone. -/
theorem statusWord_of_reset {s : State} (h : s.status = .reset) : s.statusWord = flagAt s.busy 0 := by
  simp [State.statusWord, h, Status.reset, flagAt, byteAt, ErrCode.toByte]

/-- Settles O27: the state after reset holds these values, and STATUS reads BUSY until INIT ends. -/
theorem resetValues : Obligations.ResetValues := by
  intro p
  have fresh : FreshTree (State.resetOf p) := freshTree_of_cleared rfl rfl rfl rfl rfl
  refine ⟨?_, ?_, ?_, ?_, ?status, ?endStatus, ?endRoot, rfl, rfl, rfl, rfl, rfl, fun i => by simp [State.resetOf],
    fun i => by simp [State.resetOf, Node.cleared], rfl, fresh.codes, rfl, rfl, rfl, rfl, fun _ => rfl, fun _ => rfl⟩
  case status =>
    exact (hostRead_control_of_busyReadable _ (by decide) rfl).trans (statusWord_of_reset rfl)
  case endStatus =>
    exact (hostRead_control_of_idle rfl (by decide)).trans (statusWord_of_reset rfl)
  case endRoot => exact hostRead_control_of_idle rfl (by decide)
  all_goals exact hostRead_control_of_busyReadable _ (by decide) rfl

end Sys2Proof.Machine

/-! SUPPORT. What a completed command, a host operation and a step can do to the byte buffers (20_memory.md R88, R90). -/

namespace Sys2Proof.Machine

/-! ### A buffer that is canonical and in range -/

/-- A buffer is canonical, and every byte it lists lies in the given size. -/
structure Memory.Fits (m : Memory) (size : Nat) : Prop where
  wf : m.wf = true
  within : m.Within size

theorem Memory.Fits.nil (size : Nat) : Memory.Fits [] size := ⟨rfl, nofun⟩

theorem Memory.Fits.writeBytes {m : Memory} {size a : Nat} (h : m.Fits size) (bs : List Byte) (ha : a + bs.length ≤ size) :
    (m.writeBytes a bs).Fits size := ⟨wf_writeBytes a bs h.wf, within_writeBytes bs h.within ha⟩

theorem Memory.Fits.over {m base : Memory} {size : Nat} (h : m.Fits size) (hb : base.Fits size) : (m.over base).Fits size :=
  ⟨wf_over hb.wf, within_over h.within hb.within⟩

/-- The buffer invariant, buffer by buffer. -/
theorem buffersOk_iff (s : State) : s.BuffersOk ↔ s.params.wellFormed = true ∧ s.inBuf.Fits s.params.inBytes ∧
    s.inAtReset.Fits s.params.inBytes ∧ s.outBuf.Fits s.params.outBytes ∧ s.outAtReset.Fits s.params.outBytes := by
  constructor
  · intro h
    exact ⟨h.params, ⟨h.inWf, h.inWithin⟩, ⟨h.inAtResetWf, h.inAtResetWithin⟩, ⟨h.outWf, h.outWithin⟩,
      ⟨h.outAtResetWf, h.outAtResetWithin⟩⟩
  · rintro ⟨hp, hi, hir, ho, hor⟩
    exact ⟨hp, hi.wf, hir.wf, ho.wf, hor.wf, hi.within, hir.within, ho.within, hor.within⟩

/-! ### The buffers from one state to the next -/

/-- The parameters and all that the state keeps of the two buffers, but for OUT since reset, are those of another state. -/
structure SameButOut (s t : State) : Prop where
  params : t.params = s.params
  inBuf : t.inBuf = s.inBuf
  inAtReset : t.inAtReset = s.inAtReset
  outAtReset : t.outAtReset = s.outAtReset

/-- OUT is as in another state, or as there with bytes stored that all lie in OUT. -/
def OutStored (s t : State) : Prop :=
  t.outBuf = s.outBuf ∨ ∃ a bs, a + bs.length ≤ s.params.outBytes ∧ t.outBuf = s.outBuf.writeBytes a bs

/-- A store inside OUT keeps the buffer invariant, and so does a change of anything else. -/
theorem State.BuffersOk.store {s t : State} (hs : s.BuffersOk) (h : SameButOut s t) (hout : OutStored s t) :
    t.BuffersOk := by
  rw [buffersOk_iff] at hs ⊢
  obtain ⟨hp, hi, hir, ho, hor⟩ := hs
  rw [h.params, h.inBuf, h.inAtReset, h.outAtReset]
  refine ⟨hp, hi, hir, ?_, hor⟩
  rcases hout with e | ⟨a, bs, hfits, e⟩ <;> rw [e]
  · exact ho
  · exact ho.writeBytes bs hfits

/-- The parameters and the buffers are those of another state. -/
def SameBuffers (s t : State) : Prop := SameButOut s t ∧ t.outBuf = s.outBuf

theorem State.BuffersOk.same {s t : State} (hs : s.BuffersOk) (h : SameBuffers s t) : t.BuffersOk :=
  hs.store h.1 (.inl h.2)

theorem sameBuffers_drawBusy (s : State) : SameBuffers s s.drawBusy := ⟨by constructor <;> simp, by simp⟩

theorem sameBuffers_accept (w : Word) (s : State) : SameBuffers s (s.accept w) := ⟨by constructor <;> simp, by simp⟩

/-! ### Commands -/

theorem Completion.sameButOut {s t : State} (h : Completion s t) : SameButOut s t := by
  cases h with
  | error => exact ⟨rfl, rfl, rfl, rfl⟩
  | success h => cases h <;> exact ⟨rfl, rfl, rfl, rfl⟩

theorem headerBytes_length (recs : List NodeRec) : (headerBytes recs).length = 1 + 4 * recs.length := by
  simp [headerBytes, NodeRec.bytes, List.length_flatMap, Nat.add_comm, Nat.mul_comm]

@[simp] theorem wordBytes_length (v : Word) : (wordBytes v).length = 4 := rfl

theorem sizedPayload_length (size : Nat) (bits : BitStr) : (sizedPayload size bits).length = 4 + ceilDiv bits.length 8 := by
  simp [sizedPayload, payloadBytes]

theorem execSerialize_outStored {s t : State} (h : execSerialize s = .next t) : OutStored s t := by
  rcases execSerialize_cases s with
    ⟨-, e⟩ | ⟨-, -, e⟩ | ⟨-, -, ⟨-, e⟩ | ⟨_, -, ⟨-, e⟩ | ⟨recs, -, ⟨-, e⟩ | ⟨hfits, e⟩⟩⟩⟩ <;> cases h.symm.trans e
  exacts [.inl rfl, .inl rfl, .inl rfl, .inr ⟨_, _, by rwa [headerBytes_length], rfl⟩]

theorem execPack_outStored {s t : State} (h : execPack s = .next t) : OutStored s t := by
  rcases execPack_cases s with ⟨-, e⟩ | ⟨-, ⟨_, -, e⟩ | ⟨_, -, e⟩ | ⟨bits, -, ⟨-, e⟩ | ⟨hfits, e⟩⟩⟩ <;> cases h.symm.trans e
  exacts [.inl rfl, .inl rfl, .inl rfl, .inr ⟨_, _, by rwa [sizedPayload_length], rfl⟩]

theorem execUnpack_outStored {s t : State} (h : execUnpack s = .next t) : OutStored s t := by
  rcases execUnpack_cases s with ⟨-, e⟩ | ⟨-, ⟨-, e⟩ | ⟨-, ⟨_, -, e⟩ | ⟨_, -, e⟩ | ⟨_, -, ⟨-, e⟩ | ⟨-, ⟨-, e⟩ |
    ⟨-, ⟨-, e⟩ | ⟨hfits, ⟨_, -, e⟩ | ⟨_, -, e⟩ | ⟨_, _, hout, e⟩⟩⟩⟩⟩⟩⟩ <;> cases h.symm.trans e
  exacts [.inl rfl, .inl rfl, .inl rfl, .inl rfl, .inl rfl, .inl rfl, .inl rfl,
    .inr ⟨_, _, by rwa [decodeSymbols_length hout], rfl⟩]

/-- Only SERIALIZE, PACK and UNPACK store to OUT (20_memory.md R88), and each has checked its range first (R90). -/
theorem exec_outStored {i : Instr} {s t : State} (h : exec i s = .next t) : OutStored s t := by
  cases i with
  | serialize => exact execSerialize_outStored h
  | pack => exact execPack_outStored h
  | unpack => exact execUnpack_outStored h
  | nop =>
    cases h.symm.trans (execNop_eq s)
    exact .inl rfl
  | build => rcases execBuild_cases s with ⟨-, e⟩ | ⟨-, e⟩ <;> cases h.symm.trans e <;> exact .inl rfl
  | number =>
    rcases execNumber_cases s with ⟨-, e⟩ | ⟨-, -, e⟩ | ⟨_, -, -, e⟩ <;> cases h.symm.trans e <;> exact .inl rfl
  | genCodes =>
    rcases execGenCodes_cases s with ⟨-, e⟩ | ⟨-, -, e⟩ | ⟨_, -, -, e⟩ <;> cases h.symm.trans e <;> exact .inl rfl
  | deserGeneral =>
    rcases execDeserGeneral_cases s with
      ⟨_, -, e⟩ | ⟨_, -, e⟩ | ⟨_, -, ⟨-, e⟩ | ⟨-, ⟨_, -, e⟩ | ⟨_, -, e⟩ | ⟨_, -, e⟩⟩⟩ <;>
    cases h.symm.trans e <;> exact .inl rfl
  | deserPostorder =>
    rcases execDeserPostorder_cases s with ⟨_, -, e⟩ | ⟨_, -, e⟩ | ⟨_, -, ⟨_, -, e⟩ | ⟨_, -, e⟩ | ⟨_, -, e⟩⟩ <;>
    cases h.symm.trans e <;> exact .inl rfl

theorem buffersOk_runLatched {s t : State} (hs : s.BuffersOk) (h : runLatched s = .next t) : t.BuffersOk := by
  refine hs.store (runLatched_completion h).sameButOut ?_
  rcases runLatched_cases s with ⟨i, -, e⟩ | ⟨_, -, e⟩
  · exact exec_outStored (e ▸ h)
  · cases h.symm.trans (e.trans (execIllegal_eq s))
    exact .inl rfl

/-! ### Host operations -/

/-- A write while the engine is idle leaves the buffers alone, unless it names a word of one. -/
theorem regWrite_buffers (v : Word) (s : State) (r : HostReg) : SameBuffers s (s.regWrite v r) ∨
    (∃ a, r = .inWord a ∧ s.regWrite v r = s.writeInWord a v) ∨
    (∃ a, r = .outWord a ∧ s.regWrite v r = s.writeOutWord a v) := by
  cases r
  case inWord a => exact .inr (.inl ⟨a, rfl, rfl⟩)
  case outWord a => exact .inr (.inr ⟨a, rfl, rfl⟩)
  case cmd => exact .inl (sameBuffers_accept v s)
  all_goals exact .inl ⟨⟨rfl, rfl, rfl, rfl⟩, rfl⟩

/-- A word the address map names lies whole in its buffer, because buffer sizes are multiples of 4 (00_scope.md R12). -/
theorem buffersOk_hostWrite (off : Offset) (v : Word) {s : State} (hs : s.BuffersOk) : (s.hostWrite off v).BuffersOk := by
  rcases hostWrite_cases off v s with ⟨-, e⟩ | ⟨-, e⟩ <;> rw [e]
  · exact hs.same ⟨⟨rfl, rfl, rfl, rfl⟩, rfl⟩
  · rcases regWrite_buffers v s (regOf s.params off) with h | ⟨a, hr, e⟩ | ⟨a, hr, e⟩
    · exact hs.same h
    · obtain ⟨-, -, hfits⟩ := regOf_inWord hs.params hr
      rw [e, buffersOk_iff]
      obtain ⟨hp, hi, hrest⟩ := (buffersOk_iff s).1 hs
      exact ⟨hp, hi.writeBytes (wordBytes v) hfits, hrest⟩
    · obtain ⟨-, -, hfits⟩ := regOf_outWord hs.params hr
      rw [e]
      exact hs.store ⟨rfl, rfl, rfl, rfl⟩ (.inr ⟨a, wordBytes v, hfits, rfl⟩)

theorem buffersOk_enterReset {s : State} (hs : s.BuffersOk) : s.enterReset.BuffersOk := by
  obtain ⟨hp, hi, hir, ho, hor⟩ := (buffersOk_iff s).1 hs
  exact (buffersOk_iff _).2 ⟨hp, .nil _, hi.over hir, .nil _, ho.over hor⟩

theorem buffersOk_leaveReset {s : State} (hs : s.BuffersOk) : s.leaveReset.BuffersOk := by
  rcases leaveReset_cases s with e | e <;> rw [e]
  · have pending : SameBuffers s { s with phase := .init .pending } := ⟨⟨rfl, rfl, rfl, rfl⟩, rfl⟩
    exact (hs.same pending).same (sameBuffers_drawBusy _)
  · exact hs

theorem buffersOk_powerCycle {s : State} (hs : s.BuffersOk) : s.powerCycle.BuffersOk :=
  (buffersOk_iff _).2 ⟨hs.params, .nil _, .nil _, .nil _, .nil _⟩

theorem buffersOk_recordRead (off : Offset) {s : State} (hs : s.BuffersOk) : (s.recordRead off).BuffersOk :=
  hs.same ⟨⟨rfl, rfl, rfl, rfl⟩, rfl⟩

theorem buffersOk_hostStep {s : State} (hs : s.BuffersOk) : s.hostStep.BuffersOk := by
  rcases hostStep_cases s with ⟨-, e⟩ | ⟨_, -, -, e⟩ | ⟨op, rest, -, -, e⟩ <;> rw [e]
  · exact hs
  · exact buffersOk_recordRead _ hs
  · have hs' : State.BuffersOk { s with host := rest } := hs.same ⟨⟨rfl, rfl, rfl, rfl⟩, rfl⟩
    rcases doHostOp_cases { s with host := rest } op with ⟨off, v, e⟩ | ⟨off, e⟩ | ⟨-, e⟩ | ⟨-, e⟩ | ⟨-, e⟩ <;> rw [e]
    · exact buffersOk_hostWrite off v hs'
    · exact buffersOk_recordRead off hs'
    · exact buffersOk_enterReset hs'
    · exact buffersOk_leaveReset hs'
    · exact buffersOk_powerCycle hs'

theorem buffersOk_busyTick {s : State} (hs : s.BuffersOk) : s.busyTick.BuffersOk :=
  buffersOk_hostStep (hs.same ⟨⟨rfl, rfl, rfl, rfl⟩, rfl⟩)

end Sys2Proof.Machine

/-! Settled obligations: the buffers, and the host's accesses to the aperture (20_memory.md). -/

namespace Sys2Proof.Machine

/-! ### The buffer invariant -/

/-- Settles O56: every store to a buffer, by the host or by a command, lies inside it, and reset and loss of power empty the
lists of bytes written since. -/
theorem stepKeepsBuffers : Obligations.StepKeepsBuffers := by
  intro s t hs h
  rcases step_cases s with ⟨-, e⟩ | ⟨-, -, e⟩ | ⟨-, -, e⟩ | ⟨-, -, e⟩ | ⟨-, -, e⟩ <;> rw [e] at h
  · cases h
    exact buffersOk_hostStep hs
  · cases h
    have init : SameBuffers s s.initSequence := ⟨⟨rfl, rfl, rfl, rfl⟩, rfl⟩
    exact (hs.same init).same (sameBuffers_drawBusy _)
  · cases h
    exact hs.same ⟨⟨rfl, rfl, rfl, rfl⟩, rfl⟩
  · exact buffersOk_runLatched hs h
  · cases h
    exact buffersOk_busyTick hs

/-! ### Host accesses while BUSY = 1 -/

theorem busy_of_ne_idle {s : State} (h : s.phase ≠ .idle) : s.busy = true := decide_eq_true h

/-- At the host's turn a step is the host's, after a tick of the model's free time (log 3) where one is counted. -/
theorem step_of_hostTurn {s : State} (h : s.HostTurn) : ∃ b, step s = .next { s with busyLeft := b }.hostStep := by
  rcases step_cases s with ⟨-, e⟩ | ⟨hp, hb, -⟩ | ⟨hp, hb, -⟩ | ⟨hp, hb, -⟩ | ⟨-, -, e⟩
  · exact ⟨s.busyLeft, e⟩
  · simp [State.HostTurn, hp, hb] at h
  · simp [State.HostTurn, hp, hb] at h
  · simp [State.HostTurn, hp, hb] at h
  · exact ⟨s.busyLeft - 1, e⟩

/-- Any operation but WAIT leaves the host's list as it takes effect. -/
theorem step_of_ne_wait {s : State} (hturn : s.HostTurn) {op : HostOp} {rest : List HostOp} (h : s.host = op :: rest)
    (hop : op ≠ .wait) : ∃ b, step s = .next (State.doHostOp { s with host := rest, busyLeft := b } op) := by
  obtain ⟨b, e⟩ := step_of_hostTurn hturn
  exact ⟨b, by simp [e, State.hostStep, h, hop]⟩

/-- A WAIT that finds BUSY = 1 stays in the host's list (30_encoding.md R135). -/
theorem hostStep_of_wait {s : State} {rest : List HostOp} (h : s.host = .wait :: rest) (hb : s.busy = true) :
    s.hostStep = s.recordRead 0x014 := by simp [State.hostStep, h, hb, State.doHostOp]

theorem hostWrite_of_busy {s : State} (h : s.busy = true) (off : Offset) (v : Word) : s.hostWrite off v = s.ignoreWrite :=
  if_pos h

/-- Settles O11: a write of either form finds BUSY = 1, whatever its offset and word. -/
theorem busyWriteOnlySetsWrIgnored : Obligations.BusyWriteOnlySetsWrIgnored := by
  intro s off v rest hp hturn hhost
  have hbusy (b : Nat) : State.busy { s with host := rest, busyLeft := b } = true := busy_of_ne_idle hp
  rcases hhost with h | h
  · obtain ⟨b, e⟩ := step_of_ne_wait hturn h nofun
    exact ⟨b, e.trans (congrArg _ (hostWrite_of_busy (hbusy b) off v))⟩
  · obtain ⟨b, e⟩ := step_of_ne_wait hturn h nofun
    exact ⟨b, e.trans (congrArg _ (hostWrite_of_busy (hbusy b) off _))⟩

/-- The registers that stay readable while BUSY = 1 are control registers. -/
theorem busyReadable_control {p : Params} {off : Offset} (h : (regOf p off).busyReadable = true) : off.toNat < 0x100 := by
  by_contra hoff
  have freq : ∀ a, (freqReg a).busyReadable = false := fun a => by unfold freqReg; split_ifs <;> rfl
  have node : ∀ a, (nodeReg a).busyReadable = false := fun a => by unfold nodeReg; split_ifs <;> rfl
  have code : ∀ a, (codeReg a).busyReadable = false := fun a => by unfold codeReg; split_ifs <;> rfl
  have buffer : ∀ a, (bufferReg p a).busyReadable = false := fun a => by unfold bufferReg; split_ifs <;> rfl
  rw [regOf, wordOffset_eq, regAt, if_neg (by omega)] at h
  split_ifs at h <;> simp [freq, node, code, buffer] at h

/-- Which control registers stay readable while BUSY = 1: ID, VERSION, CFG_IN_BYTES, CFG_OUT_BYTES and STATUS. -/
theorem busyReadable_controlReg {k : Nat} (h : (controlReg k).busyReadable = true) :
    k = 0 ∨ k = 1 ∨ k = 2 ∨ k = 3 ∨ k = 5 := by
  unfold controlReg at h
  split at h <;> simp_all [HostReg.busyReadable]

/-- A word of the aperture that holds none of the five registers reads 0 while BUSY = 1. -/
theorem hostRead_masked {s : State} (hb : s.busy = true) {off : Offset}
    (h0 : off.toNat / 4 ≠ 0) (h1 : off.toNat / 4 ≠ 1) (h2 : off.toNat / 4 ≠ 2) (h3 : off.toNat / 4 ≠ 3)
    (h5 : off.toNat / 4 ≠ 5) : s.hostRead off = 0 := by
  have hr : (regOf s.params off).busyReadable = false := by
    rw [Bool.eq_false_iff]
    intro hr
    rw [regOf_control _ (busyReadable_control hr)] at hr
    have := busyReadable_controlReg hr
    omega
  simp [State.hostRead, hb, hr]

/-- A readable register, by its word. -/
theorem hostRead_word {s : State} {off : Offset} {k : Nat} (h : off.toNat / 4 = k) (hk : k < 0x40)
    (hr : (controlReg k).busyReadable = true) : s.hostRead off = s.regValue (controlReg k) := by
  subst h
  exact hostRead_control_of_busyReadable s (by omega) hr

/-- Settles O12: the step is one read by a busy engine, of STATUS where the host waits. -/
theorem busyReadIsMasked : Obligations.BusyReadIsMasked := by
  intro s off rest hp hturn
  refine ⟨fun hhost => ?_, fun hhost => ?_⟩
  · obtain ⟨b, e⟩ := step_of_hostTurn hturn
    refine ⟨b, e.trans (congrArg _ ?_)⟩
    rw [hostStep_of_wait (s := { s with busyLeft := b }) hhost (busy_of_ne_idle hp), State.recordRead,
      hostRead_control_of_busyReadable _ (by decide) rfl]
    rfl
  · obtain ⟨b, e⟩ := step_of_ne_wait hturn hhost nofun
    exact ⟨b, _, e, fun h => hostRead_word h (by decide) rfl, fun h => hostRead_word h (by decide) rfl,
      fun h => hostRead_word h (by decide) rfl, fun h => hostRead_word h (by decide) rfl,
      fun h => hostRead_word h (by decide) rfl, hostRead_masked (busy_of_ne_idle hp)⟩

/-! ### Address bits 1:0 -/

theorem regOf_congr (p : Params) {off off' : Offset} (h : off.toNat / 4 = off'.toNat / 4) : regOf p off = regOf p off' := by
  rw [regOf, regOf, wordOffset_eq, wordOffset_eq, h]

/-- Settles O13: an access acts on what its word's offset names. -/
theorem addressLowBitsAreIgnored : Obligations.AddressLowBitsAreIgnored := by
  intro s off off' v h
  rw [State.hostRead, State.hostRead, State.hostWrite, State.hostWrite, regOf_congr s.params h]
  exact ⟨rfl, rfl⟩

/-! ### The byte lanes of the buffer windows -/

/-- After a store, a byte stored reads as stored and any other as before, whatever an unwritten byte reads as. -/
theorem Memory.StoredAt.getD {m m' : Memory} {a : Nat} {bs : List Byte} (h : m.StoredAt m' a bs) (x : Nat) (d e : Byte) :
    (m'.read x).getD d = if a ≤ x ∧ x < a + bs.length then bs.getD (x - a) e else (m.read x).getD d := by
  rw [h x]
  split
  · rename_i hx
    rw [List.getD_eq_getElem _ _ (by omega), List.getElem?_eq_getElem (by omega), Option.getD_some]
  · rfl

/-- Byte lane j of a window's word is the byte at offset j from its first (20_memory.md R87). -/
theorem laneWord_extractLsb' (f : Nat → Byte) (a : Nat) {j : Nat} (hj : j < 4) :
    (laneWord f a).extractLsb' (8 * j) 8 = f (a + j) := by
  have skip {v : Nat} (hi : BitVec v) (lo : Byte) {start : Nat} (h : 8 ≤ start) :
      (hi ++ lo).extractLsb' start 8 = hi.extractLsb' (start - 8) 8 := BitVec.extractLsb'_append_eq_of_le h
  unfold laneWord
  match j, hj with
  | 0, _ => exact BitVec.extractLsb'_append_eq_right
  | 1, _ => exact (skip _ _ (by decide)).trans BitVec.extractLsb'_append_eq_right
  | 2, _ => exact (skip _ _ (by decide)).trans ((skip _ _ (by decide)).trans BitVec.extractLsb'_append_eq_right)
  | 3, _ => exact (skip _ _ (by decide)).trans ((skip _ _ (by decide)).trans BitVec.extractLsb'_append_eq_left)

/-- Settles O17: a window's word is stored and read as its four bytes, the least significant at the lowest offset. -/
theorem bufferWindowsAreLittleEndian : Obligations.BufferWindowsAreLittleEndian := by
  intro s k v hp hwf
  refine ⟨fun hk => ?_, fun hk => ?_⟩
  · have hstored := s.inBuf.storedAt_writeBytes (4 * k) (wordBytes v)
    simp only [hostWrite_of_idle hp, hostRead_of_idle hp, regOf_inWindow hwf hk]
    exact ⟨⟨_, rfl, hstored⟩, fun x => hstored.getD x _ 0, fun j hj => laneWord_extractLsb' _ _ hj,
      fun x b h => by simp [State.hostInByte, h]⟩
  · have hstored := s.outBuf.storedAt_writeBytes (4 * k) (wordBytes v)
    simp only [hostWrite_of_idle hp, hostRead_of_idle hp, regOf_outWindow hwf hk]
    exact ⟨⟨_, rfl, hstored⟩, fun x => hstored.getD x _ 0, fun j hj => laneWord_extractLsb' _ _ hj,
      fun x b h => by simp [State.hostOutByte, h]⟩

end Sys2Proof.Machine

/-! SUPPORT. The fields of a command word and the opcode map (30_encoding.md R120, R121). -/

namespace Sys2Proof

/-! ### A lookup by keys without repeats -/

/-- With no key listed twice, looking a key up finds exactly what is listed for it. -/
theorem lookup_eq_some_iff_mem {α β : Type} [BEq α] [LawfulBEq α] {l : List (α × β)} (h : (l.map Prod.fst).Nodup) {a : α}
    {b : β} : l.lookup a = some b ↔ (a, b) ∈ l := by
  induction l with
  | nil => simp
  | cons p l ih =>
    obtain ⟨k, v⟩ := p
    obtain ⟨hk, hl⟩ := List.nodup_cons.1 h
    by_cases hak : a = k
    · subst hak
      have hnot : (a, b) ∉ l := fun hm => hk (List.mem_map.2 ⟨_, hm, rfl⟩)
      simp [hnot, eq_comm]
    · simp [List.lookup_cons, beq_false_of_ne hak, hak, ih hl]

/-! ### The fields of a word -/

/-- RSV and OP make up a command word. -/
theorem rsvField_append_opField (w : Word) : rsvField w ++ opField w = w :=
  BitVec.extractLsb'_append_extractLsb'_eq_extractLsb' rfl |>.trans BitVec.extractLsb'_eq_self

theorem word_eq_iff_fields (w v : Word) : w = v ↔ rsvField w = rsvField v ∧ opField w = opField v := by
  refine ⟨fun h => h ▸ ⟨rfl, rfl⟩, fun ⟨hr, ho⟩ => ?_⟩
  rw [← rsvField_append_opField w, hr, ho, rsvField_append_opField]

/-- A command's word has zeros in its reserved bits. -/
@[simp] theorem rsvField_encode (i : Instr) : rsvField (encode i) = 0 := by
  cases i <;> decide

/-! ### The opcode map -/

/-- The opcode map lists each command once, under its own word's opcode. -/
theorem mem_opcodeMap_iff (b : Byte) (i : Instr) : (b, i) ∈ opcodeMap ↔ b = opField (encode i) := by
  cases i <;> simp [opcodeMap, encode, opField]

theorem opcodeMap_keys_nodup : (opcodeMap.map Prod.fst).Nodup := by decide

/-- A word the decoder accepts: reserved bits 0 and a row of the map for its opcode (30_encoding.md R121). -/
theorem decode_eq_ok_iff (w : Word) (i : Instr) : decode w = .ok i ↔ rsvField w = 0 ∧ (opField w, i) ∈ opcodeMap := by
  rw [← lookup_eq_some_iff_mem opcodeMap_keys_nodup]
  unfold decode
  split
  next hr => exact iff_of_false nofun fun h => hr h.1
  next hr => cases opcodeMap.lookup (opField w) <;> simp [not_not.1 hr]

end Sys2Proof

/-! Settled obligations: command words and the commands they select (30_encoding.md section 1). -/

namespace Sys2Proof

/-- Settles O1: the decoder's table is the opcode map, and no opcode stands in it twice. -/
theorem wordSelectsCommandIffInOpcodeMap : Obligations.WordSelectsCommandIffInOpcodeMap :=
  decode_eq_ok_iff

/-- Settles O2: a command's word is the one with reserved bits 0 and the opcode the map lists the command under. -/
theorem encodeInvertsDecode : Obligations.EncodeInvertsDecode := by
  intro w i _
  rw [decode_eq_ok_iff, mem_opcodeMap_iff, word_eq_iff_fields w (encode i), rsvField_encode]

/-- Settles O3: commands' words at the map's ends, then a reserved bit set and the two ends of the reserved opcodes. -/
theorem sampleWordsDecode : Obligations.SampleWordsDecode := by
  unfold Obligations.SampleWordsDecode
  decide

end Sys2Proof

/-! SUPPORT. What each command changes when it succeeds, and which stops of the model each command can end in. -/

namespace Sys2Proof.Machine

/-! ### The effect of each command -/

/-- The states each command can reach before its completion with success. -/
inductive CommandEffect (s : State) : Instr → State → Prop where
  | nop : CommandEffect s .nop s
  | build (nodes : Arena) (root : Ref) : CommandEffect s .build (s.installTree nodes root)
  | number (l : List (Fin 255)) : CommandEffect s .number { s with
      nodes := numberFrom (clearNumbers s.nodes) 0 l, status := { s.status with numbered := true } }
  | genCodes (c : CodeTable) : CommandEffect s .genCodes { s with
      code := c, status := { s.status with codesValid := true } }
  | serialize (a : Nat) (bs : List Byte) : CommandEffect s .serialize (s.outWrite a bs)
  | deserGeneral (nodes : Arena) (root : Ref) : CommandEffect s .deserGeneral (s.installTree nodes root)
  | deserPostorder (nodes : Arena) (root : Ref) : CommandEffect s .deserPostorder (s.installTree nodes root)
  | pack (a : Nat) (bs : List Byte) : CommandEffect s .pack (s.outWrite a bs)
  | unpackEmpty : CommandEffect s .unpack s
  | unpack (a : Nat) (bs : List Byte) : CommandEffect s .unpack (s.outWrite a bs)

/-- The commands that leave the tree, the numbers and the codes alone. -/
theorem CommandEffect.sameTree {i : Instr} {s u : State} (h : CommandEffect s i u)
    (hi : i ∈ [.nop, .serialize, .pack, .unpack]) : SameTree s u := by
  cases h with
  | nop | serialize | pack | unpackEmpty | unpack => exact ⟨rfl, rfl, rfl, rfl, rfl, rfl⟩
  | _ => simp at hi

/-- The commands that leave OUT alone (10_state.md R66). -/
theorem CommandEffect.outBuf {i : Instr} {s u : State} (h : CommandEffect s i u)
    (hi : i ∈ [.nop, .build, .number, .genCodes, .deserGeneral, .deserPostorder]) : u.outBuf = s.outBuf := by
  cases h with
  | nop | build | number | genCodes | deserGeneral | deserPostorder => rfl
  | _ => simp at hi

/-- The states each command can complete in. -/
inductive CommandCompletion (s : State) (i : Instr) : State → Prop where
  | error (c : ErrCode) : CommandCompletion s i (s.completeErr c)
  | success {u : State} (h : CommandEffect s i u) (r0 r1 : Word) : CommandCompletion s i (u.completeOk r0 r1)

/-- `exec_completion` command by command. -/
theorem exec_commandCompletion {i : Instr} {s t : State} (h : exec i s = .next t) : CommandCompletion s i t := by
  cases i with
  | nop =>
    cases h.symm.trans (execNop_eq s)
    exact .success .nop _ _
  | build =>
    rcases execBuild_cases s with ⟨-, e⟩ | ⟨-, e⟩ <;> cases h.symm.trans e
    exacts [.error _, .success (.build _ _) _ _]
  | number =>
    rcases execNumber_cases s with ⟨-, e⟩ | ⟨-, -, e⟩ | ⟨_, -, -, e⟩ <;> cases h.symm.trans e
    exacts [.error _, .success (.number _) _ _]
  | genCodes =>
    rcases execGenCodes_cases s with ⟨-, e⟩ | ⟨-, -, e⟩ | ⟨_, -, -, e⟩ <;> cases h.symm.trans e
    exacts [.error _, .success (.genCodes _) _ _]
  | serialize =>
    rcases execSerialize_cases s with
      ⟨-, e⟩ | ⟨-, -, e⟩ | ⟨-, -, ⟨-, e⟩ | ⟨_, -, ⟨-, e⟩ | ⟨_, -, ⟨-, e⟩ | ⟨-, e⟩⟩⟩⟩ <;> cases h.symm.trans e
    exacts [.error _, .error _, .error _, .success (.serialize _ _) _ _]
  | deserGeneral =>
    rcases execDeserGeneral_cases s with
      ⟨_, -, e⟩ | ⟨_, -, e⟩ | ⟨_, -, ⟨-, e⟩ | ⟨-, ⟨_, -, e⟩ | ⟨_, -, e⟩ | ⟨_, -, e⟩⟩⟩ <;> cases h.symm.trans e
    exacts [.error _, .error _, .error _, .success (.deserGeneral _ _) _ _]
  | deserPostorder =>
    rcases execDeserPostorder_cases s with ⟨_, -, e⟩ | ⟨_, -, e⟩ | ⟨_, -, ⟨_, -, e⟩ | ⟨_, -, e⟩ | ⟨_, -, e⟩⟩ <;>
    cases h.symm.trans e
    exacts [.error _, .error _, .success (.deserPostorder _ _) _ _]
  | pack =>
    rcases execPack_cases s with ⟨-, e⟩ | ⟨-, ⟨_, -, e⟩ | ⟨_, -, e⟩ | ⟨_, -, ⟨-, e⟩ | ⟨-, e⟩⟩⟩ <;> cases h.symm.trans e
    exacts [.error _, .error _, .error _, .success (.pack _ _) _ _]
  | unpack =>
    rcases execUnpack_cases s with ⟨-, e⟩ | ⟨-, ⟨-, e⟩ | ⟨-, ⟨_, -, e⟩ | ⟨_, -, e⟩ | ⟨_, -, ⟨-, e⟩ | ⟨-, ⟨-, e⟩ |
      ⟨-, ⟨-, e⟩ | ⟨-, ⟨_, -, e⟩ | ⟨_, -, e⟩ | ⟨_, _, -, e⟩⟩⟩⟩⟩⟩⟩ <;> cases h.symm.trans e
    exacts [.error _, .error _, .error _, .success .unpackEmpty _ _, .error _, .error _, .error _,
      .success (.unpack _ _) _ _]

/-! ### Stops -/

/-- A byte of the input range, ARG0 to ARG0 + ARG1 - 1, lies in IN and has not been written since reset. -/
def UnwrittenInput (s : State) : Prop :=
  ∃ a, s.opArg0 ≤ a ∧ a < s.opArg0 + s.opArg1 ∧ a < s.params.inBytes ∧ s.inBuf.read a = none

theorem unwrittenInput_of_offset {s : State} {j : Nat} (hr : s.opArg0 + s.opArg1 ≤ s.params.inBytes) (hj : j < s.opArg1)
    (h : s.inBuf.read (s.opArg0 + j) = none) : UnwrittenInput s :=
  ⟨s.opArg0 + j, by omega, by omega, by omega, h⟩

theorem not_unwrittenInput {s : State} (h : s.InWritten) : ¬ UnwrittenInput s := by
  rintro ⟨a, -, -, ha, hr⟩
  exact h a ha hr

theorem parseHeader_stop {s : State} {index : Bool} {f : Fault}
    (h : parseHeader s index s.headerArgs = .error (.stop f)) : f = .unwrittenIn ∧ UnwrittenInput s := by
  rcases parseHeader_error h with h | h | h | ⟨h, hr, j, hj, hx⟩ <;> cases h
  exact ⟨rfl, unwrittenInput_of_offset hr hj hx⟩

theorem execDeserGeneral_fault {s : State} {f : Fault} (h : execDeserGeneral s = .fault f) :
    f = .unwrittenIn ∧ UnwrittenInput s := by
  rcases execDeserGeneral_cases s with
    ⟨_, -, e⟩ | ⟨_, hp, e⟩ | ⟨_, -, ⟨-, e⟩ | ⟨-, ⟨_, -, e⟩ | ⟨_, hc, e⟩ | ⟨_, -, e⟩⟩⟩ <;> cases h.symm.trans e
  · exact parseHeader_stop hp
  · rcases visit_error hc with h | h <;> cases h

theorem execDeserPostorder_fault {s : State} {f : Fault} (h : execDeserPostorder s = .fault f) :
    f = .unwrittenIn ∧ UnwrittenInput s := by
  rcases execDeserPostorder_cases s with ⟨_, -, e⟩ | ⟨_, hp, e⟩ | ⟨_, -, ⟨_, -, e⟩ | ⟨_, hb, e⟩ | ⟨_, -, e⟩⟩ <;>
  cases h.symm.trans e
  · exact parseHeader_stop hp
  · cases buildPostorder_error hb

theorem execPack_fault {s : State} {f : Fault} (h : execPack s = .fault f) : f = .unwrittenIn ∧ UnwrittenInput s := by
  rcases execPack_cases s with ⟨-, e⟩ | ⟨hr, ⟨_, -, e⟩ | ⟨_, hc, e⟩ | ⟨_, -, ⟨-, e⟩ | ⟨-, e⟩⟩⟩ <;> cases h.symm.trans e
  rcases codeStream_error hc with h | ⟨h, j, hj, hx⟩ <;> cases h
  exact ⟨rfl, unwrittenInput_of_offset hr hj hx⟩

/-- UNPACK reads its size field and, of the payload behind it, whole bytes that the given length covers. -/
theorem execUnpack_fault {s : State} {f : Fault} (h : execUnpack s = .fault f) : f = .unwrittenIn ∧ UnwrittenInput s := by
  rcases execUnpack_cases s with ⟨-, e⟩ | ⟨hr, ⟨-, e⟩ | ⟨h4, ⟨_, -, e⟩ | ⟨_, hi, e⟩ | ⟨_, -, ⟨-, e⟩ | ⟨-, ⟨-, e⟩ |
    ⟨-, ⟨-, e⟩ | ⟨-, ⟨_, -, e⟩ | ⟨_, hd, e⟩ | ⟨_, _, -, e⟩⟩⟩⟩⟩⟩⟩ <;> cases h.symm.trans e
  · obtain ⟨h, j, hj, hx⟩ := inRead_error hi
    cases h
    exact ⟨rfl, unwrittenInput_of_offset hr (by omega) hx⟩
  · rcases decodeSymbols_error (Nat.zero_le _) hd with h | ⟨h, k, hk, hx⟩ <;> cases h
    rw [Nat.add_assoc] at hx
    exact ⟨rfl, unwrittenInput_of_offset hr (by omega) hx⟩

/-! ### Records of a numbered tree -/

/-- Every reference to a numbered slot, and every leaf, has an encoding (44_tree_serdes.md R230). -/
theorem encRef_isSome {nodes : Arena} {r : Ref} (h : ∀ i, r = .int i → ∃ k, nodes[i].num = some k) :
    ∃ p, encRef nodes r = some p := by
  cases r with
  | leaf x => exact ⟨_, rfl⟩
  | int i =>
    obtain ⟨k, hk⟩ := h i rfl
    exact ⟨_, by rw [encRef, hk]; rfl⟩

theorem slotRecord_isSome {nodes : Arena} {i : Fin 255}
    (h : ∀ j, nodes[i].left = .int j ∨ nodes[i].right = .int j → ∃ k, nodes[j].num = some k) :
    ∃ r, slotRecord nodes i = some r := by
  obtain ⟨p, hp⟩ := encRef_isSome (r := nodes[i].left) fun j hj => h j (.inl hj)
  obtain ⟨q, hq⟩ := encRef_isSome (r := nodes[i].right) fun j hj => h j (.inr hj)
  exact ⟨_, by rw [slotRecord, hp, hq]⟩

theorem slotRecords_isSome {nodes : Arena} {l : List (Fin 255)} (h : ∀ i ∈ l, ∃ r, slotRecord nodes i = some r) :
    ∃ rs, slotRecords nodes l = some rs := by
  induction l with
  | nil => exact ⟨_, rfl⟩
  | cons i l ih =>
    obtain ⟨r, hr⟩ := h i (by simp)
    obtain ⟨rs, hrs⟩ := ih fun j hj => h j (by simp [hj])
    exact ⟨_, by rw [slotRecords, hr, hrs]⟩

/-- With NUMBERED = 1 every slot of the tree has a number (10_state.md R55), so that SERIALIZE finds its records. -/
theorem treeRecords_isSome {s : State} (hn : s.NumbersOk) (hnum : s.status.numbered = true) {t : SlotTree}
    (ht : s.tree = some t) : ∃ recs, treeRecords s.nodes t = some recs := by
  obtain ⟨-, t', ht', hnums⟩ := hn.2 hnum
  cases ht.symm.trans ht'
  have numbered : ∀ j ∈ t.postorder, ∃ k, s.nodes[j].num = some k := fun j hj => by
    obtain ⟨k, hk⟩ := Option.isSome_iff_exists.1 (List.isSome_idxOf?.2 hj)
    exact ⟨slotOf k, by rw [hnums, hk]; rfl⟩
  cases t with
  | leaf x => exact ⟨_, rfl⟩
  | node i l r =>
    exact slotRecords_isSome fun i hi => slotRecord_isSome fun j hj => numbered j (mem_postorder_child ht hi hj)

/-! ### Commands in a state that meets the invariant -/

/-- While TREE_VALID = 1 there is a tree for a command to work on (10_state.md R54). -/
theorem tree_ne_none {s : State} (hs : s.TreeOk) (hv : s.status.treeValid = true) : s.tree ≠ none := by
  obtain ⟨t, ht, -⟩ := hs hv
  simp [ht]

theorem execNumber_ne_fault {s : State} (hs : s.TreeOk) (f : Fault) : execNumber s ≠ .fault f := by
  intro h
  rcases execNumber_cases s with ⟨-, e⟩ | ⟨hv, ht, -⟩ | ⟨_, -, -, e⟩
  · cases h.symm.trans e
  · exact tree_ne_none hs hv ht
  · cases h.symm.trans e

theorem execGenCodes_ne_fault {s : State} (hs : s.TreeOk) (f : Fault) : execGenCodes s ≠ .fault f := by
  intro h
  rcases execGenCodes_cases s with ⟨-, e⟩ | ⟨hv, ht, -⟩ | ⟨_, -, -, e⟩
  · cases h.symm.trans e
  · exact tree_ne_none hs hv ht
  · cases h.symm.trans e

theorem execSerialize_ne_fault {s : State} (hs : s.TreeOk) (hn : s.NumbersOk) (f : Fault) : execSerialize s ≠ .fault f := by
  intro h
  rcases execSerialize_cases s with
    ⟨-, e⟩ | ⟨-, -, e⟩ | ⟨hv, hnum, ⟨ht, -⟩ | ⟨_, ht, ⟨hr, -⟩ | ⟨_, -, ⟨-, e⟩ | ⟨-, e⟩⟩⟩⟩
  · cases h.symm.trans e
  · cases h.symm.trans e
  · exact tree_ne_none hs hv ht
  · obtain ⟨recs, hrecs⟩ := treeRecords_isSome hn hnum ht
    cases hr.symm.trans hrecs
  · cases h.symm.trans e
  · cases h.symm.trans e

/-- The commands that read IN (20_memory.md R88) are the only ones that stop the model, and only at a byte of their input
range that nothing has written since reset. -/
theorem exec_fault {i : Instr} {s : State} (hs : s.Inv) {f : Fault} (h : exec i s = .fault f) :
    i ∈ [.deserGeneral, .deserPostorder, .pack, .unpack] ∧ f = .unwrittenIn ∧ UnwrittenInput s := by
  cases i with
  | nop => cases h.symm.trans (execNop_eq s)
  | build => rcases execBuild_cases s with ⟨-, e⟩ | ⟨-, e⟩ <;> cases h.symm.trans e
  | number => exact absurd h (execNumber_ne_fault hs.tree f)
  | genCodes => exact absurd h (execGenCodes_ne_fault hs.tree f)
  | serialize => exact absurd h (execSerialize_ne_fault hs.tree hs.numbers f)
  | deserGeneral => exact ⟨by decide, execDeserGeneral_fault h⟩
  | deserPostorder => exact ⟨by decide, execDeserPostorder_fault h⟩
  | pack => exact ⟨by decide, execPack_fault h⟩
  | unpack => exact ⟨by decide, execUnpack_fault h⟩

/-- Every command is modelled: its meaning is the completion of a computation. -/
theorem exec_ne_refused (i : Instr) (s : State) (r : Refusal) : exec i s ≠ .refused r := by
  cases i <;> simp only [exec, execNop, execBuild, execNumber, execGenCodes, execSerialize, execDeserGeneral,
    execDeserPostorder, execPack, execUnpack] <;> exact finish_never_refuses s _ r

/-- With every IN byte written every command completes. -/
theorem exec_next_of_inWritten {s : State} (hs : s.Inv) (hin : s.InWritten) (i : Instr) : ∃ t, exec i s = .next t := by
  cases h : exec i s with
  | next t => exact ⟨t, rfl⟩
  | fault f => exact absurd (exec_fault hs h).2.2 (not_unwrittenInput hin)
  | refused r => exact absurd h (exec_ne_refused i s r)

/-- The latched word completes too, an illegal one with ILLEGAL. -/
theorem runLatched_next_of_inWritten {s : State} (hs : s.Inv) (hin : s.InWritten) : ∃ t, runLatched s = .next t := by
  rcases runLatched_cases s with ⟨i, -, e⟩ | ⟨_, -, e⟩ <;> rw [e]
  · exact exec_next_of_inWritten hs hin i
  · exact ⟨_, execIllegal_eq s⟩

end Sys2Proof.Machine

/-! SUPPORT. Steps while the engine is idle, acceptance and completion of a command word, and which offsets hold nothing a host
can write (20_memory.md R81). -/

namespace Sys2Proof.Machine

/-! ### Steps -/

/-- While the engine is idle a step is the host's next operation, WAIT included. -/
theorem step_of_idle {s : State} (hp : s.phase = .idle) {op : HostOp} {rest : List HostOp} (h : s.host = op :: rest) :
    step s = .next (State.doHostOp { s with host := rest } op) := by
  simp [step, hp, State.hostStep, h, busy_of_idle hp]

/-- Acceptance latches the word, with a drawn time. -/
theorem accept_eq (w : Word) (s : State) :
    ∃ b sch d, s.accept w = { s.latchCommand w with busyLeft := b, schedule := sch, draws := d } := drawBusy_eq _

/-- When an executing command's time is up, the step is its completion. -/
theorem step_of_exec {s : State} (hp : s.phase = .exec) (hb : s.busyLeft = 0) : step s = runLatched s := by
  simp [step, hp, hb]

/-- With time left, the step is the host's. -/
theorem step_of_exec_busy {s : State} (hp : s.phase = .exec) (hb : s.busyLeft ≠ 0) : step s = .next s.busyTick := by
  simp [step, hp, hb]

theorem runLatched_of_decode_ok {s : State} {i : Instr} (h : decode s.latch.word = .ok i) : runLatched s = exec i s := by
  rw [runLatched, h]

theorem runLatched_of_decode_error {s : State} {e : DecodeError} (h : decode s.latch.word = .error e) :
    runLatched s = .next (s.completeErr .illegal) := by
  rw [runLatched, h]
  exact execIllegal_eq s

/-- A word with a reserved bit set or an opcode of 9 and above selects no command (30_encoding.md R122). -/
theorem decode_error_of_outside {w : Word} (h : w.extractLsb' 8 24 ≠ 0 ∨ 9 ≤ (w.extractLsb' 0 8).toNat) :
    ∃ e, decode w = .error e := by
  cases hd : decode w with
  | error e => exact ⟨e, rfl⟩
  | ok i =>
    obtain ⟨hrsv, hop⟩ := (decode_eq_ok_iff w i).1 hd
    have keys : ∀ p ∈ opcodeMap, p.1.toNat ≤ 8 := by decide
    rcases h with h | h
    · exact absurd hrsv h
    · exact absurd (keys _ hop) (Nat.not_le.2 h)

/-- A command leaves the engine idle with DONE = 1 (40_control.md R152). -/
theorem Completion.idle_done {s t : State} (h : Completion s t) : t.phase = .idle ∧ t.status.done = true := by
  cases h <;> exact ⟨rfl, rfl⟩

/-! ### The invariant and the host's list along a run -/

/-- The invariant is kept by every step. -/
theorem State.Inv.step {s t : State} (hs : s.Inv) (h : Machine.step s = .next t) : t.Inv where
  buffers := stepKeepsBuffers s t hs.buffers h
  tree := stepKeepsTree s t hs.tree h
  numbers := stepKeepsNumbers s t hs.tree hs.numbers h
  codes := stepKeepsCodes s t hs.codes h
  status := stepKeepsStatus s t hs.status h

theorem regWrite_host (v : Word) (s : State) (r : HostReg) : (s.regWrite v r).host = s.host := by
  cases r <;> simp [State.regWrite]

theorem hostWrite_host (off : Offset) (v : Word) (s : State) : (s.hostWrite off v).host = s.host := by
  rcases hostWrite_cases off v s with ⟨-, e⟩ | ⟨-, e⟩ <;> rw [e]
  · rfl
  · exact regWrite_host v s _

theorem leaveReset_host (s : State) : s.leaveReset.host = s.host := by
  rcases leaveReset_cases s with e | e <;> rw [e]
  simp

/-- An operation's effect leaves the operations still to come alone. -/
theorem doHostOp_host (s : State) (op : HostOp) : (s.doHostOp op).host = s.host := by
  rcases doHostOp_cases s op with ⟨off, v, e⟩ | ⟨off, e⟩ | ⟨-, e⟩ | ⟨-, e⟩ | ⟨-, e⟩ <;> rw [e]
  exacts [hostWrite_host off v s, rfl, rfl, leaveReset_host s, rfl]

/-- A step of the host takes at most its first operation off the list. -/
theorem hostStep_host_subset (s : State) : s.hostStep.host ⊆ s.host := by
  rcases hostStep_cases s with ⟨-, e⟩ | ⟨_, -, -, e⟩ | ⟨op, rest, hs, -, e⟩ <;> rw [e]
  · exact List.Subset.refl _
  · exact List.Subset.refl _
  · rw [doHostOp_host, hs]
    exact List.subset_cons_self op rest

/-! ### Offsets that hold nothing to write -/

/-- The registers and windows a host write leaves alone (20_memory.md R83). -/
def HostReg.unwritable : HostReg → Bool
  | .cmd | .arg0 | .arg1 | .arg2 | .freqPresent _ | .freqCount _ | .inWord _ | .outWord _ => false
  | _ => true

theorem regWrite_unwritable {r : HostReg} (h : r.unwritable = true) (v : Word) (s : State) : s.regWrite v r = s := by
  cases r with
  | cmd | arg0 | arg1 | arg2 | freqPresent | freqCount | inWord | outWord => cases h
  | _ => rfl

theorem controlReg_reserved {k : Nat} (h : 12 ≤ k) : controlReg k = .reserved :=
  match k, h with
  | _ + 12, _ => rfl

/-- The reserved ranges begin and end at word boundaries, because buffer sizes are multiples of 4 (00_scope.md R12). -/
theorem regOf_reserved {p : Params} (hp : p.wellFormed = true) {off : Offset} (h : ReservedOffset p off.toNat) :
    regOf p off = .reserved := by
  obtain ⟨⟨hi, _, _⟩, ho, _, _⟩ := (params_wellFormed_iff p).1 hp
  unfold ReservedOffset at h
  rw [regOf, wordOffset_eq, regAt]
  split_ifs
  · exact controlReg_reserved (by omega)
  · rw [freqReg, if_neg (by omega), if_pos (by omega)]
  · rw [nodeReg, if_neg (by omega)]
  · rw [codeReg, if_neg (by omega), if_pos (by omega)]
  · unfold bufferReg
    split_ifs
    · rfl
    · omega
    · rfl
    · omega
    · rfl

/-- All control registers but CMD and the ARG registers. -/
theorem controlReg_unwritable {k : Nat} (h : k ≠ 4 ∧ k ≠ 6 ∧ k ≠ 7 ∧ k ≠ 8) : (controlReg k).unwritable = true := by
  unfold controlReg
  split <;> simp_all [HostReg.unwritable]

theorem regOf_readOnly (p : Params) {off : Offset} (h : ReadOnlyOffset off.toNat) : (regOf p off).unwritable = true := by
  unfold ReadOnlyOffset at h
  rw [regOf, wordOffset_eq, regAt]
  split_ifs
  · exact controlReg_unwritable (by omega)
  · omega
  · unfold nodeReg
    split_ifs <;> rfl
  · unfold codeReg
    split_ifs <;> rfl
  · omega

theorem hostWrite_unwritable {s : State} {off : Offset} (hp : s.phase = .idle) (hwf : s.params.wellFormed = true)
    (h : ReservedOffset s.params off.toNat ∨ ReadOnlyOffset off.toNat) (v : Word) : s.hostWrite off v = s := by
  rw [hostWrite_of_idle hp]
  refine regWrite_unwritable ?_ v s
  rcases h with h | h
  · rw [regOf_reserved hwf h]
    rfl
  · exact regOf_readOnly s.params h

end Sys2Proof.Machine

/-! Settled obligations: acceptance, execution and completion of a command (40_control.md). -/

namespace Sys2Proof.Machine

/-! ### Acceptance -/

theorem regOf_cmd (p : Params) {off : Offset} (h : off.toNat / 4 = 0x010 / 4) : regOf p off = .cmd := by
  rw [regOf_control p (by omega), h]
  rfl

/-- Settles O5: while IDLE the step is the write, which finds CMD and latches the word; while BUSY = 1 it is a write like any
other (20_memory.md R85). -/
theorem commandWriteIsAcceptedWhenIdle : Obligations.CommandWriteIsAcceptedWhenIdle := by
  intro s off w rest hhost hoff
  refine ⟨fun hp => ?_, fun hp hturn => ?_⟩
  · obtain ⟨b, sch, d, e⟩ := accept_eq w { s with host := rest }
    have hwrite : State.hostWrite off w { s with host := rest } = State.accept w { s with host := rest } := by
      rw [hostWrite_of_idle (s := { s with host := rest }) hp, regOf_cmd _ hoff, State.regWrite]
    exact ⟨b, sch, d, (step_of_idle hp hhost).trans (congrArg _ (hwrite.trans e))⟩
  · obtain ⟨b, e⟩ := busyWriteOnlySetsWrIgnored s off w rest hp hturn (.inl hhost)
    exact ⟨_, e, rfl, rfl, rfl⟩

/-! ### Execution -/

/-- Settles O4: the step is the latched word's run, and the word decodes. -/
theorem stepRunsLatchedInstruction : Obligations.StepRunsLatchedInstruction := by
  intro s i hp hb hd
  rw [step_of_exec hp hb, runLatched_of_decode_ok hd]

/-- Settles O28: NOP computes nothing, and acceptance of its word has cleared ERR and WR_IGNORED. -/
theorem nopCompletes : Obligations.NopCompletes := by
  intro s
  have hstep := stepRunsLatchedInstruction { s.latchCommand 0x00000000 with busyLeft := 0 } .nop rfl rfl sampleWordsDecode.1
  exact ⟨execNop_eq s, _, hstep.trans (execNop_eq _), rfl, rfl, rfl, rfl⟩

/-- Settles O6: such a word does not decode, so it completes with ILLEGAL in the state its acceptance left. -/
theorem illegalWordCompletesWithIllegal : Obligations.IllegalWordCompletesWithIllegal := by
  intro s w hw
  obtain ⟨e, he⟩ := decode_error_of_outside hw
  have hstep : step { s.latchCommand w with busyLeft := 0 } = runLatched { s.latchCommand w with busyLeft := 0 } :=
    step_of_exec rfl rfl
  exact hstep.trans (runLatched_of_decode_error (s := { s.latchCommand w with busyLeft := 0 }) he)

/-- Settles O54: with the invariant no command finds a tree or a number missing, so only a read of IN can stop it. -/
theorem commandsStopOnlyOnUnwrittenInput : Obligations.CommandsStopOnlyOnUnwrittenInput := by
  intro i s hs
  refine ⟨fun f h => ?_, exec_ne_refused i s, fun hin => exec_next_of_inWritten hs hin i⟩
  obtain ⟨hi, hf, hin⟩ := exec_fault hs h
  exact ⟨hf, hi, hin⟩

/-- Settles O23, by induction on the host operations that still land: each leaves the command executing, and the step after
the last of them completes it. -/
theorem executingCommandCompletes : Obligations.ExecutingCommandCompletes := by
  intro s
  generalize hb : s.busyLeft = b
  induction b generalizing s with
  | zero =>
    intro hs hin hp _ _
    obtain ⟨t, ht⟩ := runLatched_next_of_inWritten hs hin
    exact ⟨1, t, run_succ_of_next 0 ((step_of_exec hp hb).trans ht), (runLatched_completion ht).idle_done⟩
  | succ b ih =>
    intro hs hin hp hreset hpower
    obtain ⟨t, hstep, hphase, hleft, -, -, -, -, -, -, -, -, hbuf, -, -, -, hparams, -⟩ :=
      executingCommandIsUndisturbed s hp (by omega) (fun h => hreset (List.mem_of_mem_head? h))
        (fun h => hpower (List.mem_of_mem_head? h))
    have hsub : t.host ⊆ s.host := by
      cases hstep.symm.trans (step_of_exec_busy hp (by omega))
      exact hostStep_host_subset _
    obtain ⟨n, u, hrun, hu⟩ := ih t (by omega) (hs.step hstep) (by rwa [State.InWritten, hparams, hbuf]) hphase
      (fun h => hreset (hsub h)) (fun h => hpower (hsub h))
    exact ⟨n + 1, u, (run_succ_of_next n hstep).trans hrun, hu⟩

/-! ### Completion -/

/-- Settles O7: no effect of a command, and neither completion, touches these fields. -/
theorem completionFrame : Obligations.CompletionFrame := by
  intro i s t h
  replace h := exec_completion h
  cases h with
  | error => and_intros <;> rfl
  | success h => cases h <;> and_intros <;> rfl

/-- Settles O10: a completion changes none of this, nor does an error, so each clause is about the command's effect. -/
theorem treeCodeAndOutFrame : Obligations.TreeCodeAndOutFrame := by
  intro i s t h
  replace h := exec_commandCompletion h
  cases h with
  | error c => exact ⟨fun _ => ⟨rfl, rfl, rfl, rfl, rfl, rfl⟩, fun _ => ⟨rfl, rfl, rfl, rfl, fun _ => ⟨rfl, rfl⟩⟩,
      fun _ => ⟨rfl, rfl, rfl, rfl⟩, fun _ _ => rfl⟩
  | @success u h r0 r1 =>
    refine ⟨fun hi => ?tree, ?number, ?genCodes, fun hi a => congrArg (Memory.read · a) (h.outBuf hi)⟩
    case tree =>
      obtain ⟨hn, hr, hc, hv, hnum, hcodes⟩ := h.sameTree hi
      exact ⟨hn, hr, hc, hv, hnum, hcodes⟩
    case number =>
      rintro rfl
      cases h with
      | number l =>
        refine ⟨rfl, rfl, rfl, rfl, fun j => ?_⟩
        obtain ⟨hl, hr⟩ := numberFrom_children l (clearNumbers s.nodes) 0 j
        exact ⟨hl.trans (by simp), hr.trans (by simp)⟩
    case genCodes =>
      rintro rfl
      cases h with
      | genCodes c => exact ⟨rfl, rfl, rfl, rfl⟩

/-! ### Host accesses while IDLE -/

/-- Settles O14: while IDLE a step is the host's next operation, and reserved and read-only offsets name nothing a write
changes. -/
theorem reservedAndReadOnlyOffsets : Obligations.ReservedAndReadOnlyOffsets := by
  intro s off v rest hp hwf
  refine ⟨step_of_idle hp, fun h => ?_, fun h => ?_, step_of_idle hp, step_of_idle hp, fun h => ⟨?_, ?_⟩⟩
  · rw [hostRead_of_idle hp, regOf_reserved hwf h]
    rfl
  · have hread : State.hostRead 0x014 { s with host := rest } = s.statusWord :=
      hostRead_control_of_busyReadable _ (by decide) rfl
    rw [step_of_idle hp h, ← hread]
    rfl
  · exact hostWrite_unwritable hp hwf h v
  · have hwrite (w : Word) : State.hostWrite off w { s with host := rest } = { s with host := rest } :=
      hostWrite_unwritable (s := { s with host := rest }) hp hwf h w
    rintro (hw | hw)
    · exact (step_of_idle hp hw).trans (congrArg _ (hwrite v))
    · exact (step_of_idle hp hw).trans (congrArg _ (hwrite _))

end Sys2Proof.Machine

/-! SUPPORT. What SELECT returns: the two lightest entries of the pool (41_tree_builder.md R172, R173). -/

namespace Sys2Proof.Machine

/-! ### The entries SELECT takes are in the pool -/

theorem mem_dropLabel {l : Nat} {p : Pool} {e : PoolEntry} : e ∈ dropLabel l p ↔ e ∈ p ∧ e.label ≠ l := by
  simp [dropLabel]

/-- Where labels are distinct, an entry is in the pool without `a` just when it is another entry. -/
theorem mem_dropLabel_of_nodup {p : Pool} (hp : (p.map PoolEntry.label).Nodup) {a e : PoolEntry} (ha : a ∈ p) :
    e ∈ dropLabel a.label p ↔ e ∈ p ∧ e ≠ a := by
  rw [mem_dropLabel]
  refine and_congr_right fun he => not_congr ⟨fun h => List.inj_on_of_nodup_map hp he ha h, fun h => h ▸ rfl⟩

theorem mem_of_selectFirst {sel : Select} {p : Pool} {a : PoolEntry} (h : selectFirst sel p = some a) : a ∈ p := by
  by_cases hp : p = []
  · subst hp
    cases sel <;> cases h
  · obtain ⟨e, he, hm⟩ := selectFirst_mem sel hp
    exact Option.some.inj (h.symm.trans he) ▸ hm

theorem mem_of_selectSecond {sel : Select} {whole p : Pool} {b : PoolEntry} (h : selectSecond sel whole p = some b) :
    b ∈ p := by
  by_cases hp : p = []
  · subst hp
    cases sel <;> cases h
  · obtain ⟨e, he, hm⟩ := selectSecond_mem sel whole hp
    exact Option.some.inj (h.symm.trans he) ▸ hm

theorem selectPair_eq_some {sel : Select} {p : Pool} {a b : PoolEntry} :
    selectPair sel p = some (a, b) ↔
      selectFirst sel p = some a ∧ selectSecond sel p (dropLabel a.label p) = some b := by
  unfold selectPair
  constructor
  · intro h
    split at h
    · cases h
    next c hc =>
      split at h
      · cases h
      next d hd =>
        cases h
        exact ⟨hc, hd⟩
  · rintro ⟨ha, hb⟩
    simp [ha, hb]

/-- The pair SELECT returns is split off the pool. -/
theorem perm_of_selectPair {sel : Select} {p : Pool} {a b : PoolEntry} (hp : (p.map PoolEntry.label).Nodup)
    (h : selectPair sel p = some (a, b)) : p.Perm (a :: b :: dropLabel b.label (dropLabel a.label p)) := by
  obtain ⟨ha, hb⟩ := selectPair_eq_some.1 h
  have hrest := perm_cons_dropLabel (hp.sublist ((dropLabel_sublist a.label p).map _)) (mem_of_selectSecond hb)
  exact (perm_cons_dropLabel hp (mem_of_selectFirst ha)).trans (hrest.cons a)

/-! ### They are the lightest -/

theorem eq_nil_of_minWeight {p : Pool} (h : minWeight p = none) : p = [] := by
  by_contra hp
  obtain ⟨e, -, he⟩ := exists_minWeight hp
  cases h.symm.trans he

theorem eq_nil_of_leastRef {p : Pool} (h : leastRef p = none) : p = [] := by
  by_contra hp
  obtain ⟨e, he, -⟩ := leastRef_mem hp
  cases h.symm.trans he

theorem minWeight_le {p : Pool} {w : Nat} (h : minWeight p = some w) : ∀ e ∈ p, w ≤ e.w := by
  induction p generalizing w with
  | nil => cases h
  | cons f p ih =>
    rw [minWeight] at h
    intro e he
    cases hp : minWeight p with
    | none =>
      simp only [hp, Option.some.injEq] at h
      cases eq_nil_of_minWeight hp
      subst h
      rw [List.mem_singleton.1 he]
    | some v =>
      simp only [hp, Option.some.injEq] at h
      subst h
      rcases List.mem_cons.1 he with rfl | he
      · exact min_le_left ..
      · exact (min_le_right ..).trans (ih hp e he)

theorem lightest_le {p : Pool} {e f : PoolEntry} (he : e ∈ lightest p) (hf : f ∈ p) : e.w ≤ f.w :=
  minWeight_le (of_decide_eq_true (List.mem_filter.1 he).2).symm f hf

theorem pickLightest_le {tie : Nat} {p : Pool} {e f : PoolEntry} (h : pickLightest tie p = some e) (hf : f ∈ p) :
    e.w ≤ f.w :=
  lightest_le (List.mem_of_getElem? h) hf

theorem refBefore_iff {e f : PoolEntry} : refBefore e f = true ↔ e.w < f.w ∨ (e.w = f.w ∧ e.label < f.label) := by
  simp [refBefore]

/-- No entry of a pool comes before the one SELECT_REF picks. -/
theorem not_refBefore_leastRef {p : Pool} {e : PoolEntry} (h : leastRef p = some e) :
    ∀ f ∈ p, ¬ refBefore f e = true := by
  induction p generalizing e with
  | nil => cases h
  | cons g p ih =>
    rw [leastRef] at h
    cases hp : leastRef p with
    | none =>
      cases eq_nil_of_leastRef hp
      cases h
      simp [refBefore]
    | some c =>
      simp only [hp, Option.some.injEq] at h
      intro f hf
      split at h <;> subst h
      next hcg =>
        rcases List.mem_cons.1 hf with rfl | hf
        · rw [refBefore_iff] at hcg ⊢
          omega
        · exact ih hp f hf
      next hcg =>
        rcases List.mem_cons.1 hf with rfl | hf
        · simp [refBefore_iff]
        · have hfc := ih hp f hf
          rw [refBefore_iff] at hcg hfc ⊢
          omega

theorem leastRef_le {p : Pool} {e f : PoolEntry} (h : leastRef p = some e) (hf : f ∈ p) : e.w ≤ f.w := by
  have := mt refBefore_iff.2 (not_refBefore_leastRef h f hf)
  omega

/-- Where labels are distinct, SELECT_REF picks the strictly least entry. -/
theorem refBefore_of_leastRef {p : Pool} (hp : (p.map PoolEntry.label).Nodup) {e f : PoolEntry} (h : leastRef p = some e)
    (he : e ∈ p) (hf : f ∈ p) (hne : f ≠ e) : e.w < f.w ∨ (e.w = f.w ∧ e.label < f.label) := by
  have hlabel : f.label ≠ e.label := fun h => hne (List.inj_on_of_nodup_map hp hf he h)
  have := mt refBefore_iff.2 (not_refBefore_leastRef h f hf)
  omega

theorem selectFirst_le {sel : Select} {p : Pool} {a e : PoolEntry} (h : selectFirst sel p = some a) (he : e ∈ p) :
    a.w ≤ e.w := by
  cases sel with
  | ref => exact leastRef_le h he
  | free k => exact pickLightest_le h he

theorem selectSecond_le {sel : Select} {whole p : Pool} {b e : PoolEntry} (h : selectSecond sel whole p = some b)
    (he : e ∈ p) : b.w ≤ e.w := by
  cases sel with
  | ref => exact leastRef_le h he
  | free k => exact pickLightest_le h he

/-! ### Weights -/

theorem initialPool_weight_le (freq : FreqTable) : ∀ w ∈ (initialPool freq).map PoolEntry.w, w ≤ 2 ^ 32 - 1 := by
  rw [initialPool_eq, List.map_map]
  intro w hw
  obtain ⟨i, -, rfl⟩ := List.mem_map.1 hw
  exact Nat.le_sub_one_of_lt freq[i].count.isLt

end Sys2Proof.Machine

/-! Settled obligations: SELECT and the weights of a pool (41_tree_builder.md R172, R173, R178). -/

namespace Sys2Proof.Machine

/-- Settles O29: the picks have least weight in the pool and in the pool without the first. -/
theorem selectReturnsLightestPair : Obligations.SelectReturnsLightestPair := by
  intro sel p hp h2
  obtain ⟨a, b, hsel, -⟩ := selectPair_perm sel hp h2
  obtain ⟨ha, hb⟩ := selectPair_eq_some.1 hsel
  have hmem := mem_of_selectFirst ha
  have hrest (e : PoolEntry) := mem_dropLabel_of_nodup hp (e := e) hmem
  obtain ⟨hbp, hba⟩ := (hrest b).1 (mem_of_selectSecond hb)
  exact ⟨a, b, hsel, hmem, hbp, hba.symm, fun e he => selectFirst_le ha he,
    fun e he hea => selectSecond_le hb ((hrest e).2 ⟨he, hea⟩)⟩

/-- Settles O30: with distinct labels SELECT_REF's order has one least entry, in the pool and in the pool without it. -/
theorem selectRefTakesLeastWeightThenLabel : Obligations.SelectRefTakesLeastWeightThenLabel := by
  intro p hp h2
  obtain ⟨a, b, hsel, -⟩ := selectPair_perm .ref hp h2
  obtain ⟨ha, hb⟩ := selectPair_eq_some.1 hsel
  have hmem := mem_of_selectFirst ha
  have hrest (e : PoolEntry) := mem_dropLabel_of_nodup hp (e := e) hmem
  have hbmem := mem_of_selectSecond hb
  obtain ⟨hbp, hba⟩ := (hrest b).1 hbmem
  exact ⟨a, b, hsel, hmem, fun e he hea => refBefore_of_leastRef hp ha hmem he hea, hbp, hba, fun e he hea heb =>
    refBefore_of_leastRef (hp.sublist ((dropLabel_sublist a.label p).map _)) hb hbmem ((hrest e).2 ⟨he, hea⟩) heb⟩

/-- Settles O33: at most 256 counts of 32 bits, and a merge puts back the weights it takes. -/
theorem weightsFitFortyBits : Obligations.WeightsFitFortyBits := by
  refine ⟨fun freq => ⟨?_, by norm_num⟩, fun sel p a b top k hp hsel => ?_⟩
  · calc
      ((initialPool freq).map PoolEntry.w).sum
      _ ≤ ((initialPool freq).map PoolEntry.w).length • (2 ^ 32 - 1) := List.sum_le_card_nsmul _ _ (initialPool_weight_le freq)
      _ ≤ 256 * (2 ^ 32 - 1) := by
        rw [List.length_map, smul_eq_mul]
        exact Nat.mul_le_mul_right _ (initialPool_length_le freq)
  · have hsum := ((perm_of_selectPair hp hsel).map PoolEntry.w).sum_eq
    simp only [List.map_cons, List.sum_cons] at hsum
    simp only [List.map_append, List.map_cons, List.map_nil, List.sum_append, List.sum_cons, List.sum_nil, mergedEntry]
    omega

end Sys2Proof.Machine

/-! SUPPORT. The pools of R174, one per merge, and what BUILD leaves in the arena (41_tree_builder.md R174 to R177). -/

namespace Sys2Proof.Machine

/-! ### The initial pool, by symbol -/

/-- The entry of a present symbol in the initial pool (R171). -/
def leafEntry (freq : FreqTable) (x : Byte) : PoolEntry := { ref := .leaf x, w := countOf freq x, label := x.toNat }

theorem initialPool_eq_map (freq : FreqTable) : initialPool freq = (presentSymbols freq).map (leafEntry freq) := by
  rw [initialPool_eq, presentSymbols, List.map_map]
  refine List.map_congr_left fun i _ => ?_
  simp [leafEntry, countOf]

theorem initialPool_length (freq : FreqTable) : (initialPool freq).length = (presentSymbols freq).length := by
  rw [initialPool_eq_map, List.length_map]

theorem foldl_max_label_mem (p : Pool) (m : Nat) :
    p.foldl (fun m e => max m e.label) m = m ∨ ∃ e ∈ p, e.label = p.foldl (fun m e => max m e.label) m := by
  induction p generalizing m with
  | nil => exact .inl rfl
  | cons f p ih =>
    rw [List.foldl_cons]
    rcases ih (max m f.label) with h | ⟨e, he, h⟩
    · rw [h]
      rcases max_choice m f.label with hm | hf
      · exact .inl hm
      · exact .inr ⟨f, by simp, hf.symm⟩
    · exact .inr ⟨e, List.mem_cons_of_mem _ he, h⟩

theorem le_maxLabel_of_present {freq : FreqTable} {x : Byte} (hx : x ∈ presentSymbols freq) :
    x.toNat ≤ maxLabel (initialPool freq) :=
  le_maxLabel (e := leafEntry freq x) (initialPool_eq_map freq ▸ List.mem_map_of_mem hx)

/-- M is a present symbol (R174). -/
theorem exists_maxLabel {freq : FreqTable} (h : presentSymbols freq ≠ []) :
    ∃ top ∈ presentSymbols freq, maxLabel (initialPool freq) = top.toNat := by
  rcases foldl_max_label_mem (initialPool freq) 0 with h0 | ⟨e, he, hmax⟩
  · obtain ⟨x, hx⟩ := List.exists_mem_of_ne_nil _ h
    have hle := le_maxLabel_of_present hx
    exact ⟨x, hx, by rw [maxLabel] at hle ⊢; omega⟩
  · rw [initialPool_eq_map] at he
    obtain ⟨x, hx, rfl⟩ := List.mem_map.1 he
    exact ⟨x, hx, hmax.symm⟩

/-! ### The pools -/

/-- The pool after merge `k` of the pool `p` (R174); empty if SELECT takes no pair. -/
def nextPool (sel : Select) (maxSym k : Nat) (p : Pool) : Pool :=
  match selectPair sel p with
  | none => []
  | some (a, b) => dropLabel b.label (dropLabel a.label p) ++ [mergedEntry maxSym k a b]

theorem nextPool_of_some {sel : Select} {maxSym k : Nat} {p : Pool} {a b : PoolEntry} (h : selectPair sel p = some (a, b)) :
    nextPool sel maxSym k p = dropLabel b.label (dropLabel a.label p) ++ [mergedEntry maxSym k a b] := by
  simp [nextPool, h]

/-- The pool before merge `k` of BUILD (R174). -/
def buildPool (sel : Select) (freq : FreqTable) : Nat → Pool
  | 0 => initialPool freq
  | k + 1 => nextPool sel (maxLabel (initialPool freq)) k (buildPool sel freq k)

@[simp] theorem buildPool_zero (sel : Select) (freq : FreqTable) : buildPool sel freq 0 = initialPool freq := rfl

/-- The arena after BUILD (R174). -/
def buildArena (sel : Select) (freq : FreqTable) : Arena :=
  arenaOf (mergeLoop sel (maxLabel (initialPool freq)) ((initialPool freq).length - 1) 0 (initialPool freq))

theorem selectPair_nil (sel : Select) : selectPair sel [] = none := by
  cases sel <;> rfl

/-- As long as SELECT finds a pair, it has found one in every pool before. -/
theorem selectPair_buildPool_ne_none {sel : Select} {freq : FreqTable} {k j : Nat} (hkj : k ≤ j)
    (h : selectPair sel (buildPool sel freq j) ≠ none) : selectPair sel (buildPool sel freq k) ≠ none := by
  induction hkj with
  | refl => exact h
  | step _ ih => exact ih fun hnone => h (by simp [buildPool, nextPool, hnone, selectPair_nil])

/-- The loop of R174 from merge `k` on makes the node of merge `k + j` out of the pair SELECT takes from that merge's pool. -/
theorem mergeLoop_buildPool {sel : Select} {freq : FreqTable} {n j k : Nat} {a b : PoolEntry} (hj : j < n)
    (h : selectPair sel (buildPool sel freq (k + j)) = some (a, b)) :
    (mergeLoop sel (maxLabel (initialPool freq)) n k (buildPool sel freq k)).getD j .cleared = mergedNode a b := by
  induction n generalizing j k with
  | zero => exact absurd hj (Nat.not_lt_zero j)
  | succ n ih =>
    obtain ⟨⟨c, d⟩, hk⟩ := Option.ne_none_iff_exists'.1
      (selectPair_buildPool_ne_none (Nat.le_add_right k j) (h ▸ Option.some_ne_none (a, b)))
    cases j with
    | zero =>
      cases hk.symm.trans h
      simp [mergeLoop, hk]
    | succ j =>
      have hnext := ih (k := k + 1) (Nat.lt_of_succ_lt_succ hj) (by rwa [Nat.add_right_comm])
      rw [buildPool, nextPool_of_some hk] at hnext
      simpa [mergeLoop, hk] using hnext

theorem buildArena_slot {sel : Select} {freq : FreqTable} {k : Nat} {a b : PoolEntry}
    (hk : k + 1 < (initialPool freq).length) (h : selectPair sel (buildPool sel freq k) = some (a, b)) :
    (buildArena sel freq)[slotOf k] = mergedNode a b := by
  have hle := initialPool_length_le freq
  have hget := mergeLoop_buildPool (k := 0) (n := (initialPool freq).length - 1) (j := k) (by omega)
    (by rwa [Nat.zero_add])
  simpa [buildArena, slotOf_val (show k < 255 by omega)] using hget

theorem mergeLoop_length_le (sel : Select) (maxSym n k : Nat) (p : Pool) : (mergeLoop sel maxSym n k p).length ≤ n := by
  induction n generalizing k p with
  | zero => simp [mergeLoop]
  | succ n ih =>
    rw [mergeLoop]
    split
    · simp
    · simpa using ih ..

/-- A slot that no merge fills is cleared (R176). -/
theorem buildArena_cleared (sel : Select) {freq : FreqTable} {i : Fin 255} (hi : (initialPool freq).length - 1 ≤ i.val) :
    (buildArena sel freq)[i] = .cleared := by
  rw [buildArena, Fin.getElem_fin, arenaOf_getElem]
  exact List.getD_eq_default _ _ ((mergeLoop_length_le ..).trans hi)

/-! ### What the merges keep -/

/-- Merge `k` takes the two lightest entries `a` and `b` off the pool `p`, leaves `rest`, and has its node in the arena (R172,
R174). -/
structure GreedyMerge (nodes : Arena) (maxSym k : Nat) (p rest : Pool) (a b : PoolEntry) : Prop where
  slot : k < 255
  ready : PoolReady nodes maxSym k p
  node : nodes[slotOf k] = mergedNode a b
  split : p.Perm (a :: b :: rest)
  first_le : ∀ e ∈ p, a.w ≤ e.w
  second_le : ∀ e ∈ rest, b.w ≤ e.w

theorem greedyMerge_of_selectPair {sel : Select} {nodes : Arena} {maxSym k : Nat} {p : Pool} {a b : PoolEntry} (hk : k < 255)
    (hready : PoolReady nodes maxSym k p) (hnode : nodes[slotOf k] = mergedNode a b) (h : selectPair sel p = some (a, b)) :
    GreedyMerge nodes maxSym k p (dropLabel b.label (dropLabel a.label p)) a b := by
  obtain ⟨ha, hb⟩ := selectPair_eq_some.1 h
  exact ⟨hk, hready, hnode, perm_of_selectPair hready.labels h, fun e he => selectFirst_le ha he,
    fun e he => selectSecond_le hb ((dropLabel_sublist _ _).subset he)⟩

theorem GreedyMerge.first_mem {nodes : Arena} {maxSym k : Nat} {p rest : Pool} {a b : PoolEntry}
    (h : GreedyMerge nodes maxSym k p rest a b) : a ∈ p := h.split.symm.subset (by simp)

theorem GreedyMerge.second_mem {nodes : Arena} {maxSym k : Nat} {p rest : Pool} {a b : PoolEntry}
    (h : GreedyMerge nodes maxSym k p rest a b) : b ∈ p := h.split.symm.subset (by simp)

theorem GreedyMerge.rest_subset {nodes : Arena} {maxSym k : Nat} {p rest : Pool} {a b : PoolEntry}
    (h : GreedyMerge nodes maxSym k p rest a b) : rest ⊆ p := fun _ he => h.split.symm.subset (by simp [he])

/-- What holds of the initial pool and is kept by every greedy merge holds of the pool before each merge and after the last. -/
theorem buildPool_induction (sel : Select) {freq : FreqTable} {P : Pool → Prop} (init : P (initialPool freq))
    (merge : ∀ k p rest a b, GreedyMerge (buildArena sel freq) (maxLabel (initialPool freq)) k p rest a b → P p →
      P (rest ++ [mergedEntry (maxLabel (initialPool freq)) k a b]))
    {k : Nat} (hk : k < (initialPool freq).length) :
    PoolReady (buildArena sel freq) (maxLabel (initialPool freq)) k (buildPool sel freq k) ∧
      (buildPool sel freq k).length + k = (initialPool freq).length ∧ P (buildPool sel freq k) := by
  induction k with
  | zero => exact ⟨initialPool_ready _ freq, rfl, init⟩
  | succ k ih =>
    obtain ⟨hready, hlen, hP⟩ := ih (by omega)
    have hle := initialPool_length_le freq
    obtain ⟨a, b, hsel, hperm⟩ := selectPair_perm sel hready.labels (by omega)
    have hmerge := greedyMerge_of_selectPair (by omega) hready (buildArena_slot hk hsel) hsel
    have hcount := hperm.length_eq
    rw [buildPool, nextPool_of_some hsel]
    refine ⟨hready.merge hperm hmerge.slot hmerge.node, ?_, merge k _ _ a b hmerge hP⟩
    simp only [List.length_cons, List.length_append, List.length_nil] at hcount ⊢
    omega

/-- The pool before merge `k` is ready for it, and `k` entries shorter than the first. -/
theorem buildPool_ready (sel : Select) {freq : FreqTable} {k : Nat} (hk : k < (initialPool freq).length) :
    PoolReady (buildArena sel freq) (maxLabel (initialPool freq)) k (buildPool sel freq k) ∧
      (buildPool sel freq k).length + k = (initialPool freq).length := by
  obtain ⟨hready, hlen, -⟩ := buildPool_induction sel (P := fun _ => True) trivial (fun _ _ _ _ _ _ h => h) hk
  exact ⟨hready, hlen⟩

/-- SELECT takes a pair for each merge, and the next pool is the rest with the merged entry (R174). -/
theorem exists_selectPair_buildPool (sel : Select) {freq : FreqTable} {k : Nat} (hk : k + 1 < (initialPool freq).length) :
    ∃ a b, selectPair sel (buildPool sel freq k) = some (a, b) ∧ buildPool sel freq (k + 1) =
      dropLabel b.label (dropLabel a.label (buildPool sel freq k)) ++ [mergedEntry (maxLabel (initialPool freq)) k a b] := by
  obtain ⟨hready, hlen⟩ := buildPool_ready sel (show k < (initialPool freq).length by omega)
  obtain ⟨a, b, hsel, -⟩ := selectPair_perm sel hready.labels (by omega)
  exact ⟨a, b, hsel, nextPool_of_some hsel⟩

/-- After the last merge one entry is left, and ROOT is its reference. -/
theorem exists_last_entry (sel : Select) {freq : FreqTable} (h : initialPool freq ≠ []) :
    ∃ e, buildPool sel freq ((initialPool freq).length - 1) = [e] ∧ e.ref = builtRoot (initialPool freq) := by
  have hpos := List.length_pos_iff.2 h
  obtain ⟨-, hlen⟩ := buildPool_ready sel (show (initialPool freq).length - 1 < (initialPool freq).length by omega)
  obtain ⟨e, he⟩ := List.length_eq_one_iff.1 (show (buildPool sel freq ((initialPool freq).length - 1)).length = 1 by omega)
  refine ⟨e, he, ?_⟩
  cases hm : (initialPool freq).length - 1 with
  | zero =>
    rw [hm, buildPool_zero] at he
    simp [he, builtRoot]
  | succ k =>
    obtain ⟨a, b, -, hnext⟩ := exists_selectPair_buildPool sel (freq := freq) (k := k) (by omega)
    rw [hm, hnext, List.append_eq_singleton_iff] at he
    rw [builtRoot_of_two_le (by omega), show (initialPool freq).length - 2 = k by omega]
    rcases he with ⟨-, hmerged⟩ | ⟨-, hmerged⟩ <;> cases hmerged
    rfl

end Sys2Proof.Machine

/-! SUPPORT. The trees of BUILD's pool: their leaves, weights and path lengths (41_tree_builder.md R176, R178, R179). -/

namespace Sys2Proof.Machine

/-! ### Leaves, weight and path length of a tree -/

theorem SlotTree.abs_leaves (t : SlotTree) : t.abs.leaves = t.leaves := by
  induction t with
  | leaf s => rfl
  | node i l r ihl ihr => simp [SlotTree.abs, AbsTree.leaves, SlotTree.leaves, ihl, ihr]

/-- The sum of the counts at the leaves of a tree. -/
def AbsTree.weight (freq : FreqTable) (t : AbsTree) : Nat := (t.leaves.map (countOf freq)).sum

@[simp] theorem AbsTree.weight_leaf (freq : FreqTable) (x : Byte) : (AbsTree.leaf x).weight freq = countOf freq x := by
  simp [AbsTree.weight, AbsTree.leaves]

@[simp] theorem AbsTree.weight_node (freq : FreqTable) (l r : AbsTree) :
    (AbsTree.node l r).weight freq = l.weight freq + r.weight freq := by
  simp [AbsTree.weight, AbsTree.leaves]

/-- One level further down a tree costs its weight once more. -/
theorem AbsTree.pathLength_succ (freq : FreqTable) (t : AbsTree) (d : Nat) :
    t.pathLength freq (d + 1) = t.pathLength freq d + t.weight freq := by
  induction t generalizing d with
  | leaf s => simp [AbsTree.pathLength, Nat.succ_mul]
  | node l r ihl ihr =>
    simp only [AbsTree.pathLength, ihl, ihr, AbsTree.weight_node]
    omega

/-- Joining two trees costs the weight of the joined tree: the merged-weight identity of R179. -/
theorem AbsTree.pathLength_node (freq : FreqTable) (l r : AbsTree) :
    (AbsTree.node l r).pathLength freq 0 =
      l.pathLength freq 0 + r.pathLength freq 0 + (l.weight freq + r.weight freq) := by
  simp only [AbsTree.pathLength, AbsTree.pathLength_succ]
  omega

/-! ### The tree under a reference -/

/-- The abstract tree under a reference, if there is one. -/
def treeOf (nodes : Arena) (r : Ref) : AbsTree := ((readTree nodes 255 r).map SlotTree.abs).getD (.leaf 0)

theorem treeOf_eq {nodes : Arena} {r : Ref} {t : SlotTree} (h : readTree nodes 255 r = some t) :
    treeOf nodes r = t.abs := by simp [treeOf, h]

@[simp] theorem treeOf_leaf (nodes : Arena) (x : Byte) : treeOf nodes (.leaf x) = .leaf x :=
  treeOf_eq (readTree_leaf nodes 255 x)

/-- The slot that joins two trees of a forest holds the tree with these two children. -/
theorem treeOf_join {nodes : Arena} {k : Nat} {a b : Ref} {rs : List Ref} (h : Forest nodes k (a :: b :: rs)) (hk : k < 255)
    (ha : nodes[slotOf k].left = a) (hb : nodes[slotOf k].right = b) :
    treeOf nodes (.int (slotOf k)) = .node (treeOf nodes a) (treeOf nodes b) := by
  obtain ⟨t, ht⟩ := (h.join hk ha hb).reads _ List.mem_cons_self
  obtain ⟨n, l, r, hn, rfl, hl, hr⟩ := readTree_int ht
  have hl' := readTree_mono hl
  have hr' := readTree_mono hr
  rw [ha, ← hn] at hl'
  rw [hb, ← hn] at hr'
  rw [treeOf_eq ht, treeOf_eq hl', treeOf_eq hr', SlotTree.abs]

/-- The tree of the entry that a merge adds. -/
theorem GreedyMerge.treeOf_mergedEntry {nodes : Arena} {maxSym k : Nat} {p rest : Pool} {a b : PoolEntry}
    (h : GreedyMerge nodes maxSym k p rest a b) :
    treeOf nodes (mergedEntry maxSym k a b).ref = .node (treeOf nodes a.ref) (treeOf nodes b.ref) :=
  treeOf_join (h.ready.forest.perm (h.split.map PoolEntry.ref).symm) h.slot (by rw [h.node]; rfl) (by rw [h.node]; rfl)

/-! ### The trees of a pool -/

/-- The trees of a pool together have each present symbol on one leaf, and each entry weighs what its leaves weigh. -/
structure PoolTrees (nodes : Arena) (freq : FreqTable) (p : Pool) : Prop where
  leaves : (p.flatMap fun e => (treeOf nodes e.ref).leaves).Perm (presentSymbols freq)
  weights : ∀ e ∈ p, (treeOf nodes e.ref).weight freq = e.w

theorem initialPool_trees (nodes : Arena) (freq : FreqTable) : PoolTrees nodes freq (initialPool freq) := by
  rw [initialPool_eq_map]
  refine ⟨?_, fun e he => ?_⟩
  · simp [List.flatMap_map, leafEntry, AbsTree.leaves]
  · obtain ⟨x, -, rfl⟩ := List.mem_map.1 he
    simp [leafEntry]

theorem PoolTrees.merge {nodes : Arena} {freq : FreqTable} {maxSym k : Nat} {p rest : Pool} {a b : PoolEntry}
    (h : PoolTrees nodes freq p) (hm : GreedyMerge nodes maxSym k p rest a b) :
    PoolTrees nodes freq (rest ++ [mergedEntry maxSym k a b]) := by
  have hperm : (rest ++ [mergedEntry maxSym k a b]).Perm (mergedEntry maxSym k a b :: rest) := List.perm_append_singleton ..
  refine ⟨?_, fun e he => ?_⟩
  · refine (hperm.flatMap_right _).trans (.trans (.of_eq ?_) ((hm.split.flatMap_right _).symm.trans h.leaves))
    simp only [List.flatMap_cons, hm.treeOf_mergedEntry, AbsTree.leaves, List.append_assoc]
  · rcases List.mem_cons.1 (hperm.subset he) with rfl | he
    · rw [hm.treeOf_mergedEntry, AbsTree.weight_node, h.weights a hm.first_mem, h.weights b hm.second_mem, mergedEntry]
    · exact h.weights e (hm.rest_subset he)

theorem buildPool_trees (sel : Select) {freq : FreqTable} {k : Nat} (hk : k < (initialPool freq).length) :
    PoolTrees (buildArena sel freq) freq (buildPool sel freq k) :=
  (buildPool_induction sel (initialPool_trees _ freq) (fun _ _ _ _ _ hm h => h.merge hm) hk).2.2

/-- The tree BUILD makes: it stands on the slots of the merges, each once, and on the present symbols, each once (R176). -/
theorem exists_built_tree (sel : Select) {freq : FreqTable} (h : initialPool freq ≠ []) :
    ∃ t, readTree (buildArena sel freq) 255 (builtRoot (initialPool freq)) = some t ∧
      t.postorder.Perm (slotsBelow ((initialPool freq).length - 1)) ∧ t.leaves.Perm (presentSymbols freq) := by
  have hpos := List.length_pos_iff.2 h
  have hk : (initialPool freq).length - 1 < (initialPool freq).length := by omega
  obtain ⟨e, he, hroot⟩ := exists_last_entry sel h
  have hforest := (buildPool_ready sel hk).1.forest
  have hleaves := (buildPool_trees sel hk).leaves
  rw [he, List.map_singleton, hroot] at hforest
  obtain ⟨t, ht⟩ := hforest.reads _ (List.mem_singleton_self _)
  rw [he, List.flatMap_singleton, hroot, treeOf_eq ht, SlotTree.abs_leaves] at hleaves
  exact ⟨t, ht, by simpa [slotsOf_eq ht] using hforest.slots, hleaves⟩

theorem mem_slotsBelow {k : Nat} (hk : k ≤ 255) {i : Fin 255} : i ∈ slotsBelow k ↔ i.val < k := by
  rw [slotsBelow, List.mem_map]
  constructor
  · rintro ⟨j, hj, rfl⟩
    have := List.mem_range.1 hj
    rwa [slotOf_val (by omega)]
  · exact fun hi => ⟨i.val, List.mem_range.2 hi, slotOf_self i⟩

end Sys2Proof.Machine

/-! SUPPORT. No tree has a smaller weighted path length than the one that merging the two lightest makes (R179): Kraft's sum
of the leaf depths stands for the other tree. -/

namespace Sys2Proof.Machine

/-! ### Weights with depths -/

/-- The cost of a list of weights, each with a depth. -/
def depthCost (l : List (Nat × Nat)) : Nat := (l.map fun x => x.2 * x.1).sum

@[simp] theorem depthCost_cons (x : Nat × Nat) (l : List (Nat × Nat)) : depthCost (x :: l) = x.2 * x.1 + depthCost l := by
  simp [depthCost]

@[simp] theorem depthCost_append (l l' : List (Nat × Nat)) : depthCost (l ++ l') = depthCost l + depthCost l' := by
  simp [depthCost]

/-- Kraft's sum of a list of depths. -/
def kraftSum (ds : List Nat) : ℚ := (ds.map fun d => (1 / 2 : ℚ) ^ d).sum

@[simp] theorem kraftSum_cons (d : Nat) (ds : List Nat) : kraftSum (d :: ds) = (1 / 2 : ℚ) ^ d + kraftSum ds := by
  simp [kraftSum]

@[simp] theorem kraftSum_append (ds ds' : List Nat) : kraftSum (ds ++ ds') = kraftSum ds + kraftSum ds' := by
  simp [kraftSum]

theorem kraftSum_perm {ds ds' : List Nat} (h : ds.Perm ds') : kraftSum ds = kraftSum ds' := (h.map _).sum_eq

/-- The leaves of a tree: the count of each with its depth. -/
def AbsTree.depths (freq : FreqTable) : AbsTree → (depth : Nat) → List (Nat × Nat)
  | .leaf s, d => [(countOf freq s, d)]
  | .node l r, d => l.depths freq (d + 1) ++ r.depths freq (d + 1)

theorem AbsTree.depths_fst (freq : FreqTable) (t : AbsTree) (d : Nat) :
    (t.depths freq d).map Prod.fst = t.leaves.map (countOf freq) := by
  induction t generalizing d with
  | leaf s => rfl
  | node l r ihl ihr => simp [AbsTree.depths, AbsTree.leaves, ihl, ihr]

theorem AbsTree.depthCost_depths (freq : FreqTable) (t : AbsTree) (d : Nat) :
    depthCost (t.depths freq d) = t.pathLength freq d := by
  induction t generalizing d with
  | leaf s => simp [AbsTree.depths, depthCost, AbsTree.pathLength]
  | node l r ihl ihr => rw [AbsTree.depths, depthCost_append, ihl, ihr, AbsTree.pathLength]

/-- The leaves of a tree at depth `d` take up exactly the share of one node at depth `d`. -/
theorem AbsTree.kraftSum_depths (freq : FreqTable) (t : AbsTree) (d : Nat) :
    kraftSum ((t.depths freq d).map Prod.snd) = (1 / 2 : ℚ) ^ d := by
  induction t generalizing d with
  | leaf s => simp [AbsTree.depths, kraftSum]
  | node l r ihl ihr =>
    rw [AbsTree.depths, List.map_append, kraftSum_append, ihl, ihr, pow_succ]
    ring

/-! ### The exchange -/

/-- A least weight can be given the greatest depth, in exchange for its own, at no cost. -/
theorem exists_deepest_first (a x : Nat) (l : List (Nat × Nat)) (ha : ∀ w ∈ l.map Prod.fst, a ≤ w) :
    ∃ d l', l'.map Prod.fst = l.map Prod.fst ∧ (d :: l'.map Prod.snd).Perm (x :: l.map Prod.snd) ∧
      (∀ y ∈ l'.map Prod.snd, y ≤ d) ∧ depthCost ((a, d) :: l') ≤ depthCost ((a, x) :: l) := by
  induction l with
  | nil => exact ⟨x, [], rfl, .refl _, by simp, le_rfl⟩
  | cons u l ih =>
    obtain ⟨w, y⟩ := u
    rw [List.map_cons, List.forall_mem_cons] at ha
    obtain ⟨haw, ha⟩ := ha
    obtain ⟨d, l', hfst, hsnd, hmax, hcost⟩ := ih ha
    have hswap : (d :: y :: l'.map Prod.snd).Perm (x :: y :: l.map Prod.snd) :=
      (List.Perm.swap ..).trans ((hsnd.cons y).trans (.swap ..))
    simp only [depthCost_cons] at hcost ⊢
    rcases le_total y d with hyd | hdy
    · refine ⟨d, (w, y) :: l', by simp [hfst], hswap, by simpa [hyd] using hmax, ?_⟩
      simp only [depthCost_cons]
      omega
    · refine ⟨y, (w, d) :: l', by simp [hfst], (List.Perm.swap ..).trans hswap, ?_, ?_⟩
      · simpa [hdy] using fun z w hz => (hmax z (List.mem_map_of_mem hz)).trans hdy
      · have hexchange : d * w + y * a ≤ d * a + y * w := mul_add_mul_le_mul_add_mul hdy haw
        simp only [depthCost_cons]
        omega

/-- The same, for a least weight that stands anywhere in the list. -/
theorem exists_deepest {a : Nat} {ws : List Nat} {l : List (Nat × Nat)} (hl : (l.map Prod.fst).Perm (a :: ws))
    (ha : ∀ w ∈ ws, a ≤ w) :
    ∃ d l', (l'.map Prod.fst).Perm ws ∧ (d :: l'.map Prod.snd).Perm (l.map Prod.snd) ∧
      (∀ y ∈ l'.map Prod.snd, y ≤ d) ∧ depthCost ((a, d) :: l') ≤ depthCost l := by
  obtain ⟨⟨_, x⟩, hx, rfl⟩ := List.mem_map.1 (hl.symm.subset List.mem_cons_self)
  have hsplit := List.perm_cons_erase hx
  have hrest := List.Perm.cons_inv ((hsplit.map Prod.fst).symm.trans hl)
  obtain ⟨d, l', hfst, hsnd, hmax, hcost⟩ := exists_deepest_first _ x _ fun w hw => ha w (hrest.subset hw)
  refine ⟨d, l', hfst ▸ hrest, hsnd.trans (hsplit.map Prod.snd).symm, hmax, hcost.trans (le_of_eq ?_)⟩
  exact ((hsplit.map _).sum_eq).symm

/-- Where no depth exceeds `d`, Kraft's sum is a whole number of shares of a node at depth `d`. -/
theorem exists_kraftSum_eq {d : Nat} {ds : List Nat} (h : ∀ y ∈ ds, y ≤ d) :
    ∃ n : Nat, kraftSum ds = n * (1 / 2 : ℚ) ^ d := by
  induction ds with
  | nil => exact ⟨0, by simp [kraftSum]⟩
  | cons y ds ih =>
    rw [List.forall_mem_cons] at h
    obtain ⟨hy, h⟩ := h
    obtain ⟨n, hn⟩ := ih h
    obtain ⟨c, rfl⟩ := Nat.exists_eq_add_of_le hy
    have hshare : (2 : ℚ) ^ c * (1 / 2) ^ (y + c) = (1 / 2) ^ y := by
      rw [pow_add, mul_left_comm, pow_mul_pow_eq_one c (by norm_num), mul_one]
    refine ⟨2 ^ c + n, ?_⟩
    rw [kraftSum_cons, hn]
    push_cast
    rw [add_mul, hshare]

/-- Under the two deepest leaves there is room for one leaf a level higher. -/
theorem kraftSum_join {c d : Nat} {ds : List Nat} (hdc : d ≤ c) (h : ∀ y ∈ ds, y ≤ d) (hk : kraftSum (c :: d :: ds) ≤ 1) :
    0 < d ∧ kraftSum ((d - 1) :: ds) ≤ 1 := by
  obtain ⟨n, hn⟩ := exists_kraftSum_eq h
  have hc : 0 < (1 / 2 : ℚ) ^ c := by positivity
  have hone : (2 : ℚ) ^ d * (1 / 2 : ℚ) ^ d = 1 := pow_mul_pow_eq_one d (by norm_num)
  have hd : 0 < (1 / 2 : ℚ) ^ d := by positivity
  simp only [kraftSum_cons, hn] at hk ⊢
  have hlt : ((1 + n : Nat) : ℚ) < ((2 ^ d : Nat) : ℚ) := by
    push_cast
    refine lt_of_mul_lt_mul_right ?_ hd.le
    linarith
  have hle : ((1 + n + 1 : Nat) : ℚ) ≤ ((2 ^ d : Nat) : ℚ) := Nat.cast_le.2 (Nat.succ_le_of_lt (Nat.cast_lt.1 hlt))
  push_cast at hle
  have hroom : (1 + n + 1) * (1 / 2 : ℚ) ^ d ≤ 1 := (mul_le_mul_of_nonneg_right hle hd.le).trans_eq hone
  cases d with
  | zero =>
    norm_num at hle
    linarith
  | succ d =>
    refine ⟨Nat.succ_pos d, ?_⟩
    rw [pow_succ] at hroom ⊢
    rw [Nat.add_sub_cancel]
    linarith

/-- The two least weights may be taken as siblings: joined, they cost less by the weight of the merge. -/
theorem exists_merged_depths {a b : Nat} {ws : List Nat} {l : List (Nat × Nat)} (hl : (l.map Prod.fst).Perm (a :: b :: ws))
    (ha : ∀ w ∈ b :: ws, a ≤ w) (hb : ∀ w ∈ ws, b ≤ w) (hk : kraftSum (l.map Prod.snd) ≤ 1) :
    ∃ l', (l'.map Prod.fst).Perm ((a + b) :: ws) ∧ kraftSum (l'.map Prod.snd) ≤ 1 ∧
      depthCost l' + (a + b) ≤ depthCost l := by
  obtain ⟨c, l₁, hfst₁, hsnd₁, hmax₁, hcost₁⟩ := exists_deepest hl ha
  obtain ⟨d, l₂, hfst₂, hsnd₂, hmax₂, hcost₂⟩ := exists_deepest hfst₁ hb
  have hdc : d ≤ c := hmax₁ d (hsnd₂.subset List.mem_cons_self)
  rw [← kraftSum_perm ((hsnd₂.cons c).trans hsnd₁)] at hk
  obtain ⟨hd, hk⟩ := kraftSum_join hdc hmax₂ hk
  refine ⟨(a + b, d - 1) :: l₂, hfst₂.cons _, hk, ?_⟩
  obtain ⟨d, rfl⟩ := Nat.exists_eq_succ_of_ne_zero hd.ne'
  have hca : (d + 1) * a ≤ c * a := Nat.mul_le_mul_right a hdc
  simp only [depthCost_cons, Nat.add_sub_cancel, Nat.succ_eq_add_one, Nat.succ_mul, Nat.mul_add] at hcost₁ hcost₂ hca ⊢
  omega

/-! ### The merges against another tree -/

/-- The path lengths of the trees of a pool, with the best way to put these trees under one root, are within `bound`. -/
def PoolWithin (nodes : Arena) (freq : FreqTable) (bound : Nat) (p : Pool) : Prop :=
  ∃ l : List (Nat × Nat), (l.map Prod.fst).Perm (p.map PoolEntry.w) ∧ kraftSum (l.map Prod.snd) ≤ 1 ∧
    depthCost l + (p.map fun e => (treeOf nodes e.ref).pathLength freq 0).sum ≤ bound

/-- Any tree over the present symbols is a way to put the initial pool under one root. -/
theorem initialPool_within (nodes : Arena) {freq : FreqTable} {other : AbsTree}
    (h : other.leaves.Perm (presentSymbols freq)) : PoolWithin nodes freq (other.pathLength freq 0) (initialPool freq) := by
  refine ⟨other.depths freq 0, ?_, by simp [other.kraftSum_depths freq 0], ?_⟩
  · rw [other.depths_fst, initialPool_eq_map, List.map_map]
    exact h.map _
  · rw [other.depthCost_depths, initialPool_eq_map, List.map_map]
    simp [leafEntry, AbsTree.pathLength, Function.comp_def]

theorem PoolWithin.merge {nodes : Arena} {freq : FreqTable} {bound maxSym k : Nat} {p rest : Pool} {a b : PoolEntry}
    (h : PoolWithin nodes freq bound p) (ht : PoolTrees nodes freq p) (hm : GreedyMerge nodes maxSym k p rest a b) :
    PoolWithin nodes freq bound (rest ++ [mergedEntry maxSym k a b]) := by
  obtain ⟨l, hl, hk, hcost⟩ := h
  have hperm : (rest ++ [mergedEntry maxSym k a b]).Perm (mergedEntry maxSym k a b :: rest) := List.perm_append_singleton ..
  have ha : ∀ w ∈ (b :: rest).map PoolEntry.w, a.w ≤ w :=
    List.forall_mem_map.2 fun e he => hm.first_le e (hm.split.symm.subset (List.mem_cons_of_mem _ he))
  obtain ⟨l', hl', hk', hcost'⟩ :=
    exists_merged_depths (hl.trans (hm.split.map _)) ha (List.forall_mem_map.2 hm.second_le) hk
  refine ⟨l', hl'.trans (hperm.map PoolEntry.w).symm, hk', ?_⟩
  rw [(hm.split.map _).sum_eq] at hcost
  rw [(hperm.map _).sum_eq]
  simp only [List.map_cons, List.sum_cons, hm.treeOf_mergedEntry, AbsTree.pathLength_node, ht.weights a hm.first_mem,
    ht.weights b hm.second_mem] at hcost ⊢
  omega

theorem buildPool_within (sel : Select) {freq : FreqTable} {other : AbsTree} (h : other.leaves.Perm (presentSymbols freq))
    {k : Nat} (hk : k < (initialPool freq).length) :
    PoolWithin (buildArena sel freq) freq (other.pathLength freq 0) (buildPool sel freq k) :=
  (buildPool_induction sel
    (P := fun p => PoolTrees (buildArena sel freq) freq p ∧ PoolWithin (buildArena sel freq) freq (other.pathLength freq 0) p)
    ⟨initialPool_trees _ freq, initialPool_within _ h⟩
    (fun _ _ _ _ _ hm ⟨ht, hw⟩ => ⟨ht.merge hm, hw.merge ht hm⟩) hk).2.2.2

/-- The tree BUILD makes costs no more than any other over the present symbols (R179). -/
theorem built_pathLength_le (sel : Select) {freq : FreqTable} (hne : initialPool freq ≠ []) {other : AbsTree}
    (h : other.leaves.Perm (presentSymbols freq)) :
    (treeOf (buildArena sel freq) (builtRoot (initialPool freq))).pathLength freq 0 ≤ other.pathLength freq 0 := by
  have hpos := List.length_pos_iff.2 hne
  obtain ⟨e, he, hroot⟩ := exists_last_entry sel hne
  obtain ⟨l, -, -, hcost⟩ := buildPool_within sel h (k := (initialPool freq).length - 1) (by omega)
  rw [he, List.map_singleton, List.sum_singleton, hroot] at hcost
  exact (Nat.le_add_left ..).trans hcost

end Sys2Proof.Machine

/-! Settled obligations: what BUILD makes (41_tree_builder.md R174, R176, R179, R182). -/

namespace Sys2Proof.Machine

theorem execBuild_of_empty {s : State} (h : initialPool s.freq = []) : execBuild s = .next (s.completeErr .emptyFreq) := by
  rcases execBuild_cases s with ⟨-, he⟩ | ⟨hne, -⟩
  · exact he
  · exact absurd h hne

theorem execBuild_of_nonempty {s : State} (h : initialPool s.freq ≠ []) :
    execBuild s = .next (((s.installTree (buildArena s.params.select s.freq) (builtRoot (initialPool s.freq))).completeOk
      (toWord (initialPool s.freq).length) (toWord ((initialPool s.freq).length - 1)))) := by
  rcases execBuild_cases s with ⟨he, -⟩ | ⟨-, hb⟩
  · exact absurd he h
  · exact hb

theorem initialPool_ne_nil {freq : FreqTable} (h : 1 ≤ (presentSymbols freq).length) : initialPool freq ≠ [] := by
  rw [← initialPool_length] at h
  exact List.ne_nil_of_length_pos h

/-- BUILD succeeds only where a symbol is present. -/
theorem initialPool_ne_nil_of_success {s t : State} (h : execBuild s = .next t) (ht : t.status.err = false) :
    initialPool s.freq ≠ [] := by
  intro hnil
  cases (execBuild_of_empty hnil).symm.trans h
  cases ht

/-- Settles O31: the pools are `buildPool`, and each slot holds the pair SELECT takes from its pool. -/
theorem buildMergesGreedily : Obligations.BuildMergesGreedily := by
  intro s m
  have hm : (initialPool s.freq).length = m := initialPool_length s.freq
  refine ⟨fun h0 => execBuild_of_empty (List.eq_nil_of_length_eq_zero (hm.trans h0)), fun h1 => ?_⟩
  have hne := initialPool_ne_nil h1
  obtain ⟨top, htop, hmax⟩ := exists_maxLabel (List.ne_nil_of_length_pos h1)
  refine ⟨buildArena s.params.select s.freq, builtRoot (initialPool s.freq), buildPool s.params.select s.freq, top, ?_,
    initialPool_eq_map s.freq, htop, fun x hx => hmax ▸ le_maxLabel_of_present hx, fun k hk => ?slot,
    fun k hk => buildArena_cleared _ (hm ▸ hk), fun h => ?leaf, fun h => ?last⟩
  · rw [← hm]
    exact execBuild_of_nonempty hne
  case slot =>
    have hk' : k.val + 1 < (initialPool s.freq).length := by omega
    obtain ⟨a, b, hsel, hnext⟩ := exists_selectPair_buildPool s.params.select hk'
    have hnode := buildArena_slot hk' hsel
    simp only [slotOf_self] at hnode
    refine ⟨a, b, hsel, hnode, ?_⟩
    rw [hnext, mergedEntry, slotOf_self, hmax, dropLabel, dropLabel, List.filter_filter]
    simp [Bool.and_comm]
  case leaf =>
    obtain ⟨x, hx⟩ := List.length_eq_one_iff.1 (show (presentSymbols s.freq).length = 1 from h)
    rw [hx, List.mem_singleton] at htop
    rw [initialPool_eq_map, hx, htop]
    rfl
  case last =>
    rw [builtRoot_of_two_le (hm ▸ h), hm]

/-- Settles O32: the merges use the next free slot each, and join trees without a common leaf. -/
theorem builtTreeShape : Obligations.BuiltTreeShape := by
  intro s t h2 h m
  have hm : (initialPool s.freq).length = m := initialPool_length s.freq
  have hle := initialPool_length_le s.freq
  have hne := initialPool_ne_nil (show 1 ≤ (presentSymbols s.freq).length by omega)
  cases (execBuild_of_nonempty hne).symm.trans h
  obtain ⟨tr, htr, hslots, hleaves⟩ := exists_built_tree s.params.select hne
  rw [hm] at hslots
  refine ⟨?_, ⟨tr, htr, hslots.nodup_iff.2 (slotsBelow_nodup (by omega)), fun k => ?_, hleaves⟩,
    fun k hk => buildArena_cleared _ (hm ▸ hk)⟩
  · exact (builtRoot_of_two_le (hm ▸ h2)).trans (by rw [hm])
  · rw [hslots.mem_iff, mem_slotsBelow (by omega)]

/-- Settles O35: each merge keeps what the trees made so far and the best completion of them cost within any other tree's path
length. -/
theorem builtTreeIsOptimal : Obligations.BuiltTreeIsOptimal := by
  intro s t h ht
  have hne := initialPool_ne_nil_of_success h ht
  cases (execBuild_of_nonempty hne).symm.trans h
  obtain ⟨tr, htr, -, -⟩ := exists_built_tree s.params.select hne
  exact ⟨tr, htr, fun other hother => treeOf_eq htr ▸ built_pathLength_le s.params.select hne hother⟩

/-- Settles O34: the pool comes from FREQ, the merges from the pool and SELECT. -/
theorem buildDependsOnFreqAndSelectOnly : Obligations.BuildDependsOnFreqAndSelectOnly := by
  intro s s' t t' hfreq hsel h h'
  by_cases hne : initialPool s.freq = []
  · cases (execBuild_of_empty hne).symm.trans h
    cases (execBuild_of_empty (hfreq ▸ hne)).symm.trans h'
    exact ⟨rfl, rfl, rfl, fun herr => by cases herr⟩
  · cases (execBuild_of_nonempty hne).symm.trans h
    cases (execBuild_of_nonempty (hfreq ▸ hne)).symm.trans h'
    simp [hfreq, hsel]

end Sys2Proof.Machine

/-! SUPPORT. The code of a symbol in a tree, and the two numbers GENCODES reports of a code table (42_code_table.md R190 to
R196). -/

namespace Sys2Proof.Machine

/-! ### The paths that give codes -/

theorem codePaths_fst (t : SlotTree) : t.codePaths.map Prod.fst = t.leaves := by
  cases t with
  | leaf s => rfl
  | node i l r => exact leafPaths_fst (.node i l r) []

/-- At an internal root both subtrees start their paths with a bit, and a leaf root has the path "0" (R192). -/
theorem codePaths_ne_nil {t : SlotTree} {q : Byte × BitStr} (h : q ∈ t.codePaths) : q.2 ≠ [] := by
  cases t with
  | leaf s =>
    cases List.mem_singleton.1 h
    exact List.cons_ne_nil _ _
  | node i l r =>
    rw [SlotTree.codePaths, SlotTree.leafPaths, leafPaths_append l, leafPaths_append r, List.mem_append] at h
    rcases h with h | h <;> obtain ⟨_, -, rfl⟩ := List.mem_map.1 h <;> simp

theorem codePaths_length_le {nodes : Arena} {fuel : Nat} {r : Ref} {t : SlotTree} (h : readTree nodes fuel r = some t)
    (hfuel : 0 < fuel) {q : Byte × BitStr} (hq : q ∈ t.codePaths) : q.2.length ≤ fuel := by
  cases t with
  | leaf s =>
    cases List.mem_singleton.1 hq
    exact hfuel
  | node i l r => simpa using leafPaths_length h [] q hq

/-- A lone path has no other to be a prefix of; else these are the paths to distinct leaves of one tree (R196). -/
theorem codePaths_prefixFree (t : SlotTree) :
    t.codePaths.Pairwise fun q q' => ¬ q.2 <+: q'.2 ∧ ¬ q'.2 <+: q.2 := by
  cases t with
  | leaf s => exact List.pairwise_singleton _ _
  | node i l r => exact leafPaths_prefixFree (.node i l r) []

/-! ### The code of a symbol -/

/-- A symbol's code is the path of the first leaf in walk order that carries it (R195). -/
theorem codeOf_eq_some_iff {t : SlotTree} {x : Byte} {path : BitStr} : t.codeOf x = some path ↔
    ∃ pre post, t.codePaths = pre ++ (x, path) :: post ∧ ∀ q ∈ pre, q.1 ≠ x := by
  simp only [SlotTree.codeOf, List.lookup_eq_some_iff, bne_iff_ne, ne_eq, @eq_comm _ x]

theorem codeOf_eq_none_iff {t : SlotTree} {x : Byte} : t.codeOf x = none ↔ x ∉ t.leaves := by
  rw [SlotTree.codeOf, List.lookup_eq_none_iff, ← codePaths_fst, List.mem_map]
  simp only [bne_iff_ne, ne_eq, @eq_comm _ x, not_exists, not_and]

theorem codeOf_leaf (x y : Byte) : (SlotTree.leaf x).codeOf y = if y = x then some [false] else none := by
  split
  next h =>
    subst h
    exact List.lookup_cons_self
  next h => exact codeOf_eq_none_iff.2 (by simpa [SlotTree.leaves] using h)

theorem mem_codePaths_of_codeOf {t : SlotTree} {x : Byte} {path : BitStr} (h : t.codeOf x = some path) :
    (x, path) ∈ t.codePaths := by
  obtain ⟨pre, post, hsplit, -⟩ := codeOf_eq_some_iff.1 h
  simp [hsplit]

/-- Codes of distinct symbols stand at different places of the walk. -/
theorem codeOf_prefixFree {t : SlotTree} {x y : Byte} {a b : BitStr} (hxy : x ≠ y) (ha : t.codeOf x = some a)
    (hb : t.codeOf y = some b) : ¬ a <+: b := by
  have hsymm : Std.Symm fun q q' : Byte × BitStr => ¬ q.2 <+: q'.2 ∧ ¬ q'.2 <+: q.2 := ⟨fun _ _ => And.symm⟩
  have hne : (x, a) ≠ (y, b) := fun h => hxy (congrArg Prod.fst h)
  exact ((codePaths_prefixFree t).forall (mem_codePaths_of_codeOf ha) (mem_codePaths_of_codeOf hb) hne).1

/-! ### The code table -/

theorem symbolOf_surjective : Function.Surjective symbolOf :=
  fun x => ⟨x.toFin, BitVec.eq_of_toNat_eq (symbolOf_toNat x.toFin)⟩

/-- A tree has a leaf, so some symbol has a code. -/
theorem exists_codeOf_eq_some (t : SlotTree) : ∃ (i : Fin 256) (bits : BitStr), t.codeOf (symbolOf i) = some bits := by
  obtain ⟨x, hx⟩ := List.exists_mem_of_ne_nil _ (leaves_ne_nil t)
  obtain ⟨i, rfl⟩ := symbolOf_surjective x
  exact ⟨i, Option.ne_none_iff_exists'.1 fun h => codeOf_eq_none_iff.1 h hx⟩

theorem codeTable_entries (table : CodeTable) : table.toList = (List.finRange 256).map fun i => table[i] :=
  List.ext_getElem (by simp) (by simp)

theorem codeCount_eq (table : CodeTable) : codeCount table = ((List.finRange 256).filter fun i => table[i].isSome).length := by
  rw [codeCount, codeTable_entries, List.filter_map, List.length_map]
  rfl

theorem foldl_max_le_iff {α : Type} (f : α → Nat) (l : List α) (m n : Nat) :
    l.foldl (fun m e => max m (f e)) m ≤ n ↔ m ≤ n ∧ ∀ e ∈ l, f e ≤ n := by
  induction l generalizing m with
  | nil => simp
  | cons e l ih => rw [List.foldl_cons, ih, max_le_iff, List.forall_mem_cons, and_assoc]

theorem longestCode_le_iff {table : CodeTable} {n : Nat} :
    longestCode table ≤ n ↔ ∀ (i : Fin 256) (bits : BitStr), table[i] = some bits → bits.length ≤ n := by
  have hlen (e : Option BitStr) : (e.map List.length).getD 0 ≤ n ↔ ∀ bits, e = some bits → bits.length ≤ n := by
    cases e <;> simp
  rw [longestCode, foldl_max_le_iff, codeTable_entries, List.forall_mem_map]
  simp only [hlen, Nat.zero_le, true_and, List.mem_finRange, true_implies]

/-- Where some symbol has a code, the bound `longestCode` is reached: else one less would be a bound too. -/
theorem exists_length_eq_longestCode {table : CodeTable} {i : Fin 256} {bits : BitStr} (h : table[i] = some bits) :
    ∃ (j : Fin 256) (b : BitStr), table[j] = some b ∧ b.length = longestCode table := by
  by_contra! hne
  have hle := longestCode_le_iff.1 (le_refl (longestCode table))
  have hpred : longestCode table ≤ longestCode table - 1 :=
    longestCode_le_iff.2 fun j b hb => Nat.le_sub_one_of_lt ((hle j b hb).lt_of_ne (hne j b hb))
  have := hle i bits h
  have := hne i bits h
  omega

/-! ### GENCODES on a tree, and the code table invariant -/

theorem execGenCodes_of_noTree {s : State} (h : s.status.treeValid = false) :
    execGenCodes s = .next (s.completeErr .noTree) := by
  rcases execGenCodes_cases s with ⟨-, e⟩ | ⟨hv, -, -⟩ | ⟨_, hv, -, -⟩
  · exact e
  · cases h.symm.trans hv
  · cases h.symm.trans hv

theorem execGenCodes_of_tree {s : State} (h : s.status.treeValid = true) {t : SlotTree} (ht : s.tree = some t) :
    execGenCodes s = .next
      ({ s with code := t.codeTable, status := { s.status with codesValid := true } }.completeOk
        (toWord (codeCount t.codeTable)) (toWord (longestCode t.codeTable))) := by
  rcases execGenCodes_cases s with ⟨hv, -⟩ | ⟨-, hn, -⟩ | ⟨_, -, hu, e⟩
  · cases h.symm.trans hv
  · cases ht.symm.trans hn
  · cases ht.symm.trans hu
    exact e

/-- Under the invariant an entry of CODE is a code of the current tree (10_state.md R62). -/
theorem State.CodesOk.exists_codeOf {s : State} (hs : s.CodesOk) {i : Fin 256} {bits : BitStr}
    (h : s.code[i] = some bits) : ∃ t, s.tree = some t ∧ t.codeOf (symbolOf i) = some bits := by
  obtain ⟨hcleared, hfilled⟩ := hs
  cases hv : s.status.codesValid with
  | false => cases h.symm.trans (hcleared hv i)
  | true =>
    obtain ⟨-, t, ht, hcode⟩ := hfilled hv
    exact ⟨t, ht, (hcode i).symm.trans h⟩

end Sys2Proof.Machine

/-! Settled obligations: the code table (42_code_table.md R190, R193, R194, R196). -/

namespace Sys2Proof.Machine

/-- Settles O38: the table holds each symbol's `codeOf`, and a tree has a leaf, so its longest code is some symbol's. -/
theorem gencodesFillsCodeTable : Obligations.GencodesFillsCodeTable := by
  intro s
  refine ⟨execGenCodes_of_noTree, fun hv tr ht => ?_⟩
  have hcode (i : Fin 256) : tr.codeTable[i] = tr.codeOf (symbolOf i) := codeTable_getElem tr i i.isLt
  obtain ⟨i, bits, hcoded⟩ := exists_codeOf_eq_some tr
  refine ⟨tr.codeTable, longestCode tr.codeTable, ?_, ?leafRoot, ?internalRoot,
    exists_length_eq_longestCode ((hcode i).trans hcoded), longestCode_le_iff.1 le_rfl⟩
  · rw [← codeCount_eq]
    exact execGenCodes_of_tree hv ht
  case leafRoot =>
    rintro x rfl i
    exact (hcode i).trans (codeOf_leaf x (symbolOf i))
  case internalRoot =>
    rintro k l r rfl i
    rw [hcode i]
    exact ⟨codeOf_eq_none_iff.2, fun pre post path hsplit hpre => codeOf_eq_some_iff.2 ⟨pre, post, hsplit, hpre⟩⟩

/-- Settles O39: both codes are paths of one tree's walk. -/
theorem codesArePrefixFree : Obligations.CodesArePrefixFree := by
  intro s hs _ i j a b hij ha hb
  obtain ⟨t, ht, hca⟩ := hs.exists_codeOf ha
  obtain ⟨u, hu, hcb⟩ := hs.exists_codeOf hb
  cases ht.symm.trans hu
  exact codeOf_prefixFree (symbolOf_injective.ne hij) hca hcb

/-- Settles O40: a code is a path of the walk, never empty and no longer than the tree is deep. -/
theorem codeLengthsFitTheirField : Obligations.CodeLengthsFitTheirField := by
  intro s hs i bits h
  obtain ⟨t, ht, hcode⟩ := hs.exists_codeOf h
  have hmem := mem_codePaths_of_codeOf hcode
  exact ⟨List.length_pos_iff.2 (codePaths_ne_nil hmem), codePaths_length_le ht (by decide) hmem⟩

end Sys2Proof.Machine

/-! SUPPORT. NUMBER on a tree, and the number it gives a slot of the tree (43_tree_numberer.md R211 to R213). -/

namespace Sys2Proof.Machine

theorem execNumber_of_noTree {s : State} (h : s.status.treeValid = false) :
    execNumber s = .next (s.completeErr .noTree) := by
  rcases execNumber_cases s with ⟨-, e⟩ | ⟨hv, -, -⟩ | ⟨_, hv, -, -⟩
  · exact e
  · cases h.symm.trans hv
  · cases h.symm.trans hv

theorem execNumber_of_tree {s : State} (h : s.status.treeValid = true) {t : SlotTree} (ht : s.tree = some t) :
    execNumber s = .next
      ({ s with
          nodes := numberFrom (clearNumbers s.nodes) 0 t.postorder
          status := { s.status with numbered := true } }.completeOk (toWord t.postorder.length) 0) := by
  rcases execNumber_cases s with ⟨hv, -⟩ | ⟨-, hn, -⟩ | ⟨_, -, hu, e⟩
  · cases h.symm.trans hv
  · cases ht.symm.trans hn
  · cases ht.symm.trans hu
    exact e

/-- A NUMBER that raises no error leaves the tree in the arena, each slot numbered with its place in postorder (R212). -/
theorem execNumber_numbers_tree {s t : State} (hs : s.TreeOk) (h : execNumber s = .next t) (hok : t.status.err = false) :
    ∃ tr, t.tree = some tr ∧ tr.postorder.Nodup ∧ ∀ i : Fin 255, t.nodes[i].num = (tr.postorder.idxOf? i).map slotOf := by
  cases hv : s.status.treeValid with
  | false =>
    cases (execNumber_of_noTree hv).symm.trans h
    cases hok
  | true =>
    obtain ⟨tr, htr, hnd⟩ := hs hv
    cases (execNumber_of_tree hv htr).symm.trans h
    refine ⟨tr, ?_, hnd, numberFrom_clearNumbers_num hnd s.nodes⟩
    exact (readTree_numberFrom_clearNumbers s.nodes 0 tr.postorder 255 s.root).trans htr

/-- An element of a list is found at its first position. -/
theorem idxOf?_of_mem {α : Type} [BEq α] [LawfulBEq α] {l : List α} {i : α} (h : i ∈ l) :
    l.idxOf? i = some (l.idxOf i) := by
  obtain ⟨k, hk⟩ := Option.isSome_iff_exists.1 (List.isSome_idxOf?.2 h)
  rw [List.idxOf_eq_getD_idxOf?, hk, Option.getD_some]

/-- The root comes last in postorder (R213), and nowhere before. -/
theorem idxOf_root_postorder {nodes : Arena} {fuel : Nat} {i : Fin 255} {t : SlotTree}
    (h : readTree nodes fuel (.int i) = some t) (hnd : t.postorder.Nodup) :
    i ∈ t.postorder ∧ t.postorder.idxOf i = t.postorder.length - 1 := by
  obtain ⟨_, l, r, -, rfl, -, -⟩ := readTree_int h
  rw [SlotTree.postorder, List.nodup_append'] at hnd
  obtain ⟨-, -, hdisj⟩ := hnd
  have hbefore : i ∉ l.postorder ++ r.postorder := fun hi => hdisj hi (List.mem_singleton_self i)
  refine ⟨List.mem_append_right _ (List.mem_singleton_self i), ?_⟩
  rw [SlotTree.postorder, List.idxOf_append_of_notMem hbefore]
  simp

end Sys2Proof.Machine

/-! Settled obligations: NUMBER (43_tree_numberer.md R212, R213). -/

namespace Sys2Proof.Machine

/-- Settles O36: NUMBER clears all numbers and then numbers the slots in postorder, none of which comes twice. -/
theorem numberAssignsPostorder : Obligations.NumberAssignsPostorder := by
  intro s
  refine ⟨execNumber_of_noTree, fun hv tr htr hnd => ⟨_, execNumber_of_tree hv htr, fun i => ?_⟩⟩
  obtain ⟨hleft, hright⟩ := numberFrom_children tr.postorder (clearNumbers s.nodes) 0 i
  exact ⟨hleft.trans (by simp), hright.trans (by simp), numberFrom_clearNumbers_num hnd s.nodes i⟩

/-- Settles O37: a slot's number is its position in a list without repetition that ends with the root. -/
theorem numbersAreDistinctAndRootIsLast : Obligations.NumbersAreDistinctAndRootIsLast := by
  intro s t hs h hok
  obtain ⟨tr, htr, hnd, hnum⟩ := execNumber_numbers_tree hs h hok
  have number_of_mem {i : Fin 255} (hi : i ∈ tr.postorder) : t.nodes[i].num = some (slotOf (tr.postorder.idxOf i)) := by
    rw [hnum, idxOf?_of_mem hi, Option.map_some]
  have val_of_mem {i : Fin 255} (hi : i ∈ tr.postorder) :
      (slotOf (tr.postorder.idxOf i)).val = tr.postorder.idxOf i :=
    slotOf_val ((List.idxOf_lt_length_of_mem hi).trans_le (postorder_length_le hnd))
  refine ⟨tr, htr, fun i hi => ?below, fun i hi j hj hij => ?distinct, fun i hroot => ?rootLast⟩
  case below =>
    exact ⟨_, number_of_mem hi, (val_of_mem hi).trans_lt (List.idxOf_lt_length_of_mem hi)⟩
  case distinct =>
    rw [number_of_mem hi, number_of_mem hj, Option.some_inj] at hij
    have hpos : tr.postorder.idxOf i = tr.postorder.idxOf j := by rw [← val_of_mem hi, hij, val_of_mem hj]
    exact (List.idxOf_inj hi).1 hpos
  case rootLast =>
    rw [State.tree, hroot] at htr
    obtain ⟨hmem, hlast⟩ := idxOf_root_postorder htr hnd
    rw [number_of_mem hmem, hlast]

end Sys2Proof.Machine

/-! SUPPORT. What parse_header answers on the bytes that stand in IN (44_tree_serdes.md R240 to R242). -/

namespace Sys2Proof.Machine

/-! ### Ranges and type bytes -/

theorem inRange_of_le {a n size : Nat} (h : a + n ≤ size) : inRange a n size = true := decide_eq_true h

/-- A field holds a leaf or an internal node (30_encoding.md R129). -/
theorem typeLegal_iff {t : Byte} : typeLegal t = true ↔ t = 0 ∨ t = 1 := by simp [typeLegal]

theorem typesLegal_iff {recs : List NodeRec} :
    typesLegal recs = true ↔ ∀ r ∈ recs, (r.lType = 0 ∨ r.lType = 1) ∧ (r.rType = 0 ∨ r.rType = 1) := by
  simp only [typesLegal, List.all_eq_true, Bool.and_eq_true, typeLegal_iff]

theorem typesLegal_eq_false_iff {recs : List NodeRec} :
    typesLegal recs = false ↔ ∃ r ∈ recs, (r.lType ≠ 0 ∧ r.lType ≠ 1) ∨ (r.rType ≠ 0 ∧ r.rType ≠ 1) := by
  simp only [← Bool.not_eq_true, typesLegal_iff, not_forall, exists_prop, not_and_or, not_or, ne_eq]

/-- check_types looks at type bytes only. -/
theorem typesLegal_map_asRead (index : Bool) (recs : List NodeRec) :
    typesLegal (recs.map (NodeRec.asRead index)) = typesLegal recs := by
  simp [typesLegal, Function.comp_def]

/-! ### parse_header, check by check -/

section
variable {s : State} {index : Bool} {a : HeaderArgs}

theorem parseHeader_of_outOfRange (h : s.params.inBytes < a.src + a.len) :
    parseHeader s index a = .error (.raise .range) := by
  have hrange : inRange a.src a.len s.params.inBytes = false := decide_eq_false (Nat.not_le.2 h)
  simp [parseHeader, hrange]

theorem parseHeader_of_empty (hr : a.src + a.len ≤ s.params.inBytes) (h : a.len = 0) :
    parseHeader s index a = .error (.raise .malformed) := by
  have hlen : decide (a.len < 1) = true := decide_eq_true (by omega)
  simp only [parseHeader, inRange_of_le hr, hlen, Bool.not_true, raiseIf_false, raiseIf_true, engine_ok_bind,
    engine_error_bind]

/-- The checks that follow once node_count is read. -/
theorem parseHeader_of_count (hr : a.src + a.len ≤ s.params.inBytes) (hl : 1 ≤ a.len) {n : Byte}
    (hn : s.inBuf.read a.src = some n) :
    parseHeader s index a =
      if n = 0 ∨ a.len < 1 + 4 * n.toNat then raise .malformed
      else readRecords s index n.toNat (a.src + 1) >>= fun recs =>
        if typesLegal recs = false then raise .malformed
        else if n.toNat ≤ a.root then raise .dangling
        else .ok recs := by
  have hlen : decide (a.len < 1) = false := decide_eq_false (Nat.not_lt.2 hl)
  have hzero : n.toNat = 0 ↔ n = 0 := BitVec.toNat_inj (y := 0)
  simp only [parseHeader, inRange_of_le hr, hlen, inByte_ok.2 hn, Bool.not_true, raiseIf_false, engine_ok_bind, hzero]
  by_cases h0 : n = 0
  · rw [if_pos (.inl h0), decide_eq_true h0]
    rfl
  by_cases h1 : a.len < 1 + 4 * n.toNat
  · rw [if_pos (.inr h1), decide_eq_false h0, decide_eq_true h1]
    rfl
  rw [if_neg (not_or_intro h0 h1), decide_eq_false h0, decide_eq_false h1]
  refine congrArg (readRecords s index n.toNat (a.src + 1) >>= ·) (funext fun recs => ?_)
  cases typesLegal recs
  · rfl
  · by_cases hroot : n.toNat ≤ a.root <;> simp [hroot]

/-- The checks that follow once the records are read. -/
theorem parseHeader_of_records (hr : a.src + a.len ≤ s.params.inBytes) {n : Byte} (hn : s.inBuf.read a.src = some n)
    (h0 : n ≠ 0) (hl : 1 + 4 * n.toNat ≤ a.len) {recs : List NodeRec} (hlen : recs.length = n.toNat)
    (hrecs : s.inBuf.HoldsRecords index (a.src + 1) recs) :
    parseHeader s index a =
      if typesLegal recs = false then raise .malformed
      else if n.toNat ≤ a.root then raise .dangling
      else .ok (recs.map (NodeRec.asRead index)) := by
  rw [parseHeader_of_count hr (by omega) hn, if_neg (not_or_intro h0 (Nat.not_lt.2 hl)), ← hlen, readRecords_of_holds hrecs,
    engine_ok_bind, typesLegal_map_asRead]

end

/-- A header in order is parsed to its records, as they are read. -/
theorem State.HeaderReady.parseHeader {s : State} {index : Bool} {recs : List NodeRec} (h : s.HeaderReady index recs) :
    parseHeader s index s.headerArgs = .ok (recs.map (NodeRec.asRead index)) := by
  have hlen : recs.length = (BitVec.ofNat 8 recs.length).toNat := by
    rw [BitVec.toNat_ofNat, Nat.mod_eq_of_lt (Nat.lt_succ_of_le h.most)]
  have hne : BitVec.ofNat 8 recs.length ≠ 0 := fun h0 => by
    rw [h0] at hlen
    exact absurd h.least (by simp [hlen])
  refine (parseHeader_of_records h.range h.count hne (hlen ▸ h.fits) hlen h.bytes).trans ?_
  rw [if_neg (by simp [typesLegal_iff.2 h.types]), if_neg (Nat.not_le.2 (hlen ▸ h.root))]

/-! ### Failing deserializers -/

/-- A deserializer whose header does not parse fails with the parser's error. -/
theorem exec_of_parseHeader_raise {i : Instr} (hi : i = .deserGeneral ∨ i = .deserPostorder) {s : State} {c : ErrCode}
    (h : parseHeader s (i = .deserGeneral) s.headerArgs = .error (.raise c)) : exec i s = .next (s.failedWith c) := by
  rcases hi with rfl | rfl
  · have h : parseHeader s true s.headerArgs = .error (.raise c) := h
    simp [exec, execDeserGeneral, h]
    rfl
  · have h : parseHeader s false s.headerArgs = .error (.raise c) := h
    simp [exec, execDeserPostorder, h]
    rfl

end Sys2Proof.Machine

/-! SUPPORT. DESER_GENERAL: check_shape passes exactly the lists whose records reachable from root_index form a tree
(44_tree_serdes.md R246). -/

namespace Sys2Proof.Machine

/-! ### Induction over a tree as it is read -/

/-- What holds of leaves, and of a node if it holds of the slot's two subtrees, holds of every tree read from the arena. -/
theorem readTree_induction {nodes : Arena} {P : Nat → Ref → SlotTree → Prop} (leaf : ∀ fuel x, P fuel (.leaf x) (.leaf x))
    (node : ∀ fuel (i : Fin 255) l r, readTree nodes fuel nodes[i].left = some l → readTree nodes fuel nodes[i].right = some r →
      P fuel nodes[i].left l → P fuel nodes[i].right r → P (fuel + 1) (.int i) (.node i l r))
    {fuel : Nat} {r : Ref} {t : SlotTree} (ht : readTree nodes fuel r = some t) : P fuel r t := by
  induction fuel generalizing r t with
  | zero =>
    cases r with
    | leaf x =>
      cases ht
      exact leaf 0 x
    | int i => cases ht
  | succ fuel ih =>
    cases r with
    | leaf x =>
      cases ht
      exact leaf (fuel + 1) x
    | int i =>
      obtain ⟨_, l, r, he, rfl, hl, hr⟩ := readTree_int ht
      cases he
      exact node fuel i l r hl hr (ih hl) (ih hr)

/-- Slots reached by references that stay below `n` are below `n`. -/
theorem postorder_lt {nodes : Arena} {n : Nat}
    (hchild : ∀ i j : Fin 255, i.val < n → nodes[i].left = .int j ∨ nodes[i].right = .int j → j.val < n)
    {fuel : Nat} {r : Ref} {t : SlotTree} (ht : readTree nodes fuel r = some t) (hr : ∀ i, r = .int i → i.val < n) :
    ∀ i ∈ t.postorder, i.val < n := by
  refine readTree_induction (P := fun _ r t => (∀ i, r = .int i → i.val < n) → ∀ i ∈ t.postorder, i.val < n)
    (fun _ _ _ => List.forall_mem_nil _) (fun _ i l r _ _ ihl ihr hr => ?_) ht hr
  have hi := hr i rfl
  simp only [SlotTree.postorder, List.forall_mem_append, List.forall_mem_singleton]
  exact ⟨⟨ihl fun j hj => hchild i j hi (.inl hj), ihr fun j hj => hchild i j hi (.inr hj)⟩, hi⟩

/-- Distinct slots below `n` are at most `n`. -/
theorem length_le_of_slots_lt {l : List (Fin 255)} {n : Nat} (hl : l.Nodup) (h : ∀ i ∈ l, i.val < n) : l.length ≤ n := by
  have hsub : l.map Fin.val ⊆ List.range n := fun x hx => by
    obtain ⟨i, hi, rfl⟩ := List.mem_map.1 hx
    exact List.mem_range.2 (h i hi)
  simpa using ((hl.map Fin.val_injective).subperm hsub).length_le

/-! ### Records whose values are positions of the list -/

theorem indicesInRange_iff {recs : List NodeRec} : indicesInRange recs = true ↔
    ∀ r ∈ recs, (r.lType = 1 → r.lData.toNat < recs.length) ∧ (r.rType = 1 → r.rData.toNat < recs.length) := by
  simp only [indicesInRange, List.all_eq_true, decide_eq_true_eq, ne_eq, imp_iff_not_or]

theorem indicesInRange_eq_false_iff {recs : List NodeRec} : indicesInRange recs = false ↔
    ∃ r ∈ recs, (r.lType = 1 ∧ recs.length ≤ r.lData.toNat) ∨ (r.rType = 1 ∧ recs.length ≤ r.rData.toNat) := by
  simp only [← Bool.not_eq_true, indicesInRange_iff, not_forall, exists_prop, not_and_or, not_lt]

section
variable {recs : List NodeRec}

/-- On such a list a visit fails only where it comes to a record again. -/
theorem visit_error_eq_shape (hrange : indicesInRange recs = true) {fuel j : Nat} (hj : j < recs.length) {seen : List Nat}
    {e : Abort} (h : visit recs fuel j seen = .error e) : e = .raise .shape := by
  induction fuel generalizing j seen with
  | zero =>
    cases h
    rfl
  | succ fuel ih =>
    obtain ⟨hl, hr⟩ := indicesInRange_iff.1 hrange recs[j] (List.getElem_mem hj)
    rw [visit] at h
    split at h
    · cases h
      rfl
    · simp only [List.getElem?_eq_getElem hj, engine_bind_error] at h
      rcases h with h | ⟨_, -, h⟩ <;> split at h
      · exact ih (hl ‹_›) h
      · cases h
      · exact ih (hr ‹_›) h
      · cases h

/-- A visit that raises nothing adds no slots to those seen but the tree's. -/
theorem visit_ok_mem (hrecs : recs.length ≤ 255) {fuel j : Nat} {seen seen' : List Nat} (h : visit recs fuel j seen = .ok seen')
    (hseen : seen.Nodup) {t : SlotTree} (ht : readTree (arenaOf (recs.map recNode)) fuel (.int (slotOf j)) = some t) :
    seen'.Nodup ∧ ∀ i : Fin 255, i.val ∈ seen' → i ∈ t.postorder ∨ i.val ∈ seen := by
  obtain ⟨hnd, t', ht', hperm⟩ := visit_reads hrecs h hseen
  cases ht.symm.trans ht'
  exact ⟨hnd, fun i hi => by simpa [Fin.val_inj] using hperm.subset hi⟩

/-- Where the records form a tree of slots not yet seen, a visit comes to no slot again. -/
theorem visit_of_tree (hrecs : recs.length ≤ 255) (hrange : indicesInRange recs = true) {fuel j : Nat}
    (hj : j < recs.length) {t : SlotTree} (ht : readTree (arenaOf (recs.map recNode)) fuel (.int (slotOf j)) = some t)
    (hnd : t.postorder.Nodup) {seen : List Nat} (hseen : seen.Nodup) (hnew : ∀ i ∈ t.postorder, i.val ∉ seen) :
    ∃ seen', visit recs fuel j seen = .ok seen' := by
  induction fuel generalizing j t seen with
  | zero => cases ht
  | succ fuel ih =>
    have hget := List.getElem?_eq_getElem hj
    have hval := slotOf_val (hj.trans_le hrecs)
    obtain ⟨hl, hr⟩ := indicesInRange_iff.1 hrange recs[j] (List.getElem_mem hj)
    obtain ⟨_, l, r, he, rfl, htl, htr⟩ := readTree_int ht
    cases he
    rw [arenaOf_recNode hget (hj.trans_le hrecs)] at htl htr
    simp only [SlotTree.postorder, List.nodup_append', List.mem_append, List.mem_singleton,
      List.disjoint_singleton] at hnd hnew
    obtain ⟨⟨hnl, hnr, hlr⟩, -, hroot⟩ := hnd
    have field : ∀ {t d : Byte} {u : SlotTree} {seen : List Nat}, (t = 1 → d.toNat < recs.length) →
        readTree (arenaOf (recs.map recNode)) fuel (refOf t d) = some u → u.postorder.Nodup → seen.Nodup →
        (∀ i ∈ u.postorder, i.val ∉ seen) →
        ∃ seen', (if t = 1 then visit recs fuel d.toNat seen else .ok seen : Engine (List Nat)) = .ok seen' ∧
          seen'.Nodup ∧ ∀ i : Fin 255, i.val ∈ seen' → i ∈ u.postorder ∨ i.val ∈ seen := by
      intro t d u seen hd hu hn hs hnew
      unfold refOf at hu
      split at hu
      · obtain ⟨seen', h⟩ := ih (hd ‹_›) hu hn hs hnew
        exact ⟨seen', (if_pos ‹_›).trans h, visit_ok_mem hrecs h hs hu⟩
      · exact ⟨seen, if_neg ‹_›, hs, fun i hi => .inr hi⟩
    have hseen' : (j :: seen).Nodup := List.nodup_cons.2 ⟨hval ▸ hnew _ (.inr rfl), hseen⟩
    have hunseen : ∀ i : Fin 255, i ≠ slotOf j → i.val ∉ seen → i.val ∉ j :: seen := fun i hi hs hm =>
      (List.mem_cons.1 hm).elim (fun h => hi (Fin.ext (h.trans hval.symm))) hs
    obtain ⟨mid, hmid, hmidnd, hmem⟩ := field hl htl hnl hseen' fun i hi =>
      hunseen i (fun h => hroot (.inl (h ▸ hi))) (hnew i (.inl (.inl hi)))
    obtain ⟨last, hlast, -, -⟩ := field hr htr hnr hmidnd fun i hi hm =>
      (hmem i hm).elim (fun h => hlr h hi)
        (hunseen i (fun h => hroot (.inr (h ▸ hi))) (hnew i (.inl (.inr hi))))
    refine ⟨last, ?_⟩
    rw [visit, if_neg (List.nodup_cons.1 hseen').1]
    simp only [hget]
    exact engine_bind_ok.2 ⟨mid, hmid, hlast⟩

/-! ### check_shape -/

/-- The children of a record's slot are positions of the list. -/
theorem recNode_child_lt (hrecs : recs.length ≤ 255) (hrange : indicesInRange recs = true) (i j : Fin 255)
    (hi : i.val < recs.length)
    (h : (arenaOf (recs.map recNode))[i].left = .int j ∨ (arenaOf (recs.map recNode))[i].right = .int j) :
    j.val < recs.length := by
  obtain ⟨hl, hr⟩ := indicesInRange_iff.1 hrange recs[i.val] (List.getElem_mem hi)
  have hnode : (arenaOf (recs.map recNode))[i] = recNode recs[i.val] := by
    simpa only [slotOf_self] using arenaOf_recNode (List.getElem?_eq_getElem hi) i.isLt
  have field : ∀ {t d : Byte}, (t = 1 → d.toNat < recs.length) → refOf t d = .int j → j.val < recs.length := by
    intro t d hd hj
    unfold refOf at hj
    split at hj <;> cases hj
    rw [slotOf_val ((hd ‹_›).trans_le hrecs)]
    exact hd ‹_›
  rw [hnode] at h
  exact h.elim (field hl) (field hr)

/-- A tree passes: its slots are positions of the list, so that the fuel does not run out (log 18). -/
theorem checkShape_of_tree (hrecs : recs.length ≤ 255) (hrange : indicesInRange recs = true) {root : Nat}
    (hroot : root < recs.length)
    (h : ∃ t, readTree (arenaOf (recs.map recNode)) 255 (.int (slotOf root)) = some t ∧ t.postorder.Nodup) :
    ∃ seen, checkShape recs root = .ok seen := by
  obtain ⟨t, ht, hnd⟩ := h
  have hlt : ∀ i ∈ t.postorder, i.val < recs.length :=
    postorder_lt (recNode_child_lt hrecs hrange) ht fun i hi => by
      cases hi
      rwa [slotOf_val (hroot.trans_le hrecs)]
  have hfuel : t.postorder.length ≤ recs.length + 1 := (length_le_of_slots_lt hnd hlt).trans (Nat.le_succ _)
  exact visit_of_tree hrecs hrange hroot (readTree_of_length_le ht hfuel) hnd List.nodup_nil fun _ _ => List.not_mem_nil

theorem checkShape_of_not_tree (hrecs : recs.length ≤ 255) (hrange : indicesInRange recs = true) {root : Nat}
    (hroot : root < recs.length)
    (h : ¬ ∃ t, readTree (arenaOf (recs.map recNode)) 255 (.int (slotOf root)) = some t ∧ t.postorder.Nodup) :
    checkShape recs root = .error (.raise .shape) := by
  cases hc : checkShape recs root with
  | ok seen => exact absurd (checkShape_makes_tree hrecs hc) h
  | error e => rw [visit_error_eq_shape hrange hroot hc]

end

/-! ### DESER_GENERAL on a header in order -/

section
variable {s : State} {recs : List NodeRec} (h : s.HeaderReady true recs)
include h

theorem State.HeaderReady.parseHeader_true : Machine.parseHeader s true s.headerArgs = .ok recs := by
  rw [h.parseHeader, List.map_id'' NodeRec.asRead_true]

theorem execDeserGeneral_of_dangling (hrange : indicesInRange recs = false) :
    execDeserGeneral s = .next (s.completeErr .dangling) := by
  simp [execDeserGeneral, h.parseHeader_true, hrange]

theorem execDeserGeneral_of_tree (hrange : indicesInRange recs = true)
    (htree : ∃ t, readTree (arenaOf (recs.map recNode)) 255 (.int (slotOf s.opArg2)) = some t ∧ t.postorder.Nodup) :
    execDeserGeneral s = .next
      ((s.installTree (arenaOf (recs.map recNode)) (.int (slotOf s.opArg2))).completeOk
        (toWord (1 + 4 * recs.length)) (toWord recs.length)) := by
  obtain ⟨seen, hseen⟩ := checkShape_of_tree h.most hrange h.root htree
  have hroot : s.headerArgs.root = s.opArg2 := rfl
  simp [execDeserGeneral, h.parseHeader_true, hrange, hroot, hseen]

theorem execDeserGeneral_of_not_tree (hrange : indicesInRange recs = true)
    (htree : ¬ ∃ t, readTree (arenaOf (recs.map recNode)) 255 (.int (slotOf s.opArg2)) = some t ∧ t.postorder.Nodup) :
    execDeserGeneral s = .next (s.completeErr .shape) := by
  have hroot : s.headerArgs.root = s.opArg2 := rfl
  simp [execDeserGeneral, h.parseHeader_true, hrange, hroot, checkShape_of_not_tree h.most hrange h.root htree]

end

end Sys2Proof.Machine

/-! SUPPORT. DESER_POSTORDER: the stack record by record, and what the loop builds (44_tree_serdes.md R250 to R253). -/

namespace Sys2Proof.Machine

/-! ### The stack -/

/-- Record `j`, if there is one, finds its internal children on the stack. -/
def StackHolds (recs : List NodeRec) (j : Nat) : Prop :=
  (recs[j]?.map NodeRec.internals).getD 0 ≤ (postorderStack recs j).length

theorem sum_internals_take_succ (recs : List NodeRec) (j : Nat) :
    ((recs.take (j + 1)).map NodeRec.internals).sum =
      ((recs.take j).map NodeRec.internals).sum + (recs[j]?.map NodeRec.internals).getD 0 := by
  rw [List.take_add_one, List.map_append, List.sum_append]
  cases recs[j]? <;> simp

/-- While no record takes more than the stack holds, each one before `n` has pushed one subtree, and popped as many as it has
internal children. -/
theorem postorderStack_length {recs : List NodeRec} {n : Nat} (h : ∀ j < n, StackSuffices recs j) :
    (postorderStack recs n).length + ((recs.take n).map NodeRec.internals).sum = n := by
  induction n with
  | zero => simp [postorderStack]
  | succ n ih =>
    have hlen := ih fun j hj => h j (by omega)
    have hn := h n (by omega)
    rw [StackSuffices, sum_internals_take_succ] at hn
    rw [sum_internals_take_succ, postorderStack, List.length_cons, List.length_drop]
    omega

/-- `StackSuffices` counts what the stack holds. -/
theorem stackHolds_iff_stackSuffices (recs : List NodeRec) (n : Nat) :
    (∀ j < n, StackHolds recs j) ↔ ∀ j < n, StackSuffices recs j := by
  induction n with
  | zero => simp
  | succ n ih =>
    rw [Nat.forall_lt_succ_right, Nat.forall_lt_succ_right, ih]
    refine and_congr_right fun h => ?_
    have hlen := postorderStack_length h
    rw [StackHolds, StackSuffices, sum_internals_take_succ]
    omega

/-- The stack holds positions of records already built. -/
theorem lt_of_mem_postorderStack {recs : List NodeRec} {j x : Nat} (h : x ∈ postorderStack recs j) : x < j := by
  induction j with
  | zero => cases h
  | succ j ih =>
    rcases List.mem_cons.1 h with rfl | h
    · exact Nat.lt_succ_self _
    · exact Nat.lt_succ_of_lt (ih (List.mem_of_mem_drop h))

/-- The record built last stands on top. -/
theorem postorderStack_top {recs : List NodeRec} {j : Nat} (h : 0 < (postorderStack recs j).length) :
    0 < j ∧ (postorderStack recs j)[0]? = some (j - 1) := by
  cases j with
  | zero => cases h
  | succ j => exact ⟨Nat.succ_pos j, rfl⟩

/-- Under it stand earlier ones. -/
theorem postorderStack_second {recs : List NodeRec} {j x : Nat} (h : (postorderStack recs j)[1]? = some x) : x + 1 < j := by
  cases j with
  | zero => cases h
  | succ j => exact Nat.succ_lt_succ (lt_of_mem_postorderStack (List.mem_of_mem_drop (List.mem_of_getElem? h)))

/-! ### Fields and records -/

/-- How many subtrees a field of a given type takes off the stack. -/
def popCount (t : Byte) : Nat := if t = 1 then 1 else 0

theorem internals_eq_popCount (r : NodeRec) : r.internals = popCount r.lType + popCount r.rType := rfl

/-- The reference a field becomes over a stack that holds what it takes. -/
def poppedRef (t d : Byte) (stack : List Nat) : Ref := if t = 1 then .int (slotOf (stack.getD 0 0)) else .leaf d

theorem poppedRef_of_internal {t d : Byte} {stack : List Nat} {x : Nat} (ht : t = 1) (hx : stack[0]? = some x) :
    poppedRef t d stack = .int (slotOf x) := by
  rw [poppedRef, if_pos ht, List.getD_eq_getElem?_getD, hx, Option.getD_some]

theorem poppedRef_of_leaf {t d : Byte} {stack : List Nat} (ht : t = 0) : poppedRef t d stack = .leaf d := by
  rw [poppedRef, ht, if_neg (by decide)]

theorem popRef_of_le {t d : Byte} {stack : List Nat} (h : popCount t ≤ stack.length) :
    popRef t d stack = .ok (poppedRef t d stack, stack.drop (popCount t)) := by
  unfold popRef poppedRef popCount at *
  split
  · cases stack with
    | nil => simp [*] at h
    | cons top rest => rfl
  · rfl

theorem popRef_of_lt {t d : Byte} {stack : List Nat} (h : stack.length < popCount t) :
    popRef t d stack = .error (.raise .dangling) := by
  unfold popRef popCount at *
  split
  · rw [if_pos ‹_›, Nat.lt_one_iff, List.length_eq_zero_iff] at h
    subst h
    rfl
  · rw [if_neg ‹_›] at h
    exact absurd h (Nat.not_lt_zero _)

/-- The node a record becomes: its right child is popped first (R250). -/
def poppedNode (stack : List Nat) (r : NodeRec) : Node where
  left := poppedRef r.lType r.lData (stack.drop (popCount r.rType))
  right := poppedRef r.rType r.rData stack
  num := none

/-- A record that takes no more than the stack holds is built, and its position pushed. -/
theorem buildPostorder_cons_of_le {r : NodeRec} {stack : List Nat} (h : r.internals ≤ stack.length) (j : Nat)
    (rs : List NodeRec) :
    buildPostorder j stack (r :: rs) =
      buildPostorder (j + 1) (j :: stack.drop r.internals) rs >>= fun nodes => .ok (poppedNode stack r :: nodes) := by
  rw [internals_eq_popCount] at h ⊢
  have hleft : popCount r.lType ≤ (stack.drop (popCount r.rType)).length := by
    rw [List.length_drop]
    omega
  simp only [buildPostorder, popRef_of_le (show popCount r.rType ≤ stack.length by omega), popRef_of_le hleft, engine_ok_bind,
    List.drop_drop, Nat.add_comm (popCount r.rType), poppedNode]

/-- A record that takes more is refused. -/
theorem buildPostorder_cons_of_lt {r : NodeRec} {stack : List Nat} (h : stack.length < r.internals) (j : Nat)
    (rs : List NodeRec) : buildPostorder j stack (r :: rs) = .error (.raise .dangling) := by
  rw [internals_eq_popCount] at h
  by_cases hr : stack.length < popCount r.rType
  · rw [buildPostorder, popRef_of_lt hr, engine_error_bind]
  · have hleft : (stack.drop (popCount r.rType)).length < popCount r.lType := by
      rw [List.length_drop]
      omega
    simp only [buildPostorder, popRef_of_le (Nat.not_lt.1 hr), popRef_of_lt hleft, engine_ok_bind, engine_error_bind]

/-! ### The children of a built record -/

section
variable {recs : List NodeRec} {j : Nat} {r : NodeRec} (hr : recs[j]? = some r) (hs : StackHolds recs j)
include hr

theorem postorderStack_succ : postorderStack recs (j + 1) = j :: (postorderStack recs j).drop r.internals := by
  rw [postorderStack, hr, Option.map_some, Option.getD_some]

theorem stackHolds_iff : StackHolds recs j ↔ r.internals ≤ (postorderStack recs j).length := by
  rw [StackHolds, hr, Option.map_some, Option.getD_some]

include hs

/-- An internal right child is the record just before. -/
theorem poppedNode_right_of_internal (h1 : r.rType = 1) :
    (poppedNode (postorderStack recs j) r).right = .int (slotOf (j - 1)) ∧ (postorderStack recs j)[0]? = some (j - 1) := by
  have hpop : popCount r.rType = 1 := if_pos h1
  have hle := (stackHolds_iff hr).1 hs
  rw [internals_eq_popCount] at hle
  obtain ⟨-, htop⟩ := postorderStack_top (recs := recs) (j := j) (by omega)
  exact ⟨poppedRef_of_internal h1 htop, htop⟩

/-- An internal left child is what then stands on top. -/
theorem poppedNode_left_of_internal (hj : j < 255) (h1 : r.lType = 1) :
    ∃ k : Fin 255, (poppedNode (postorderStack recs j) r).left = .int k ∧
      (postorderStack recs j)[if r.rType = 1 then 1 else 0]? = some k.val ∧
      (r.rType = 0 → k.val + 1 = j) ∧ (r.rType = 1 → k.val + 1 < j) := by
  have hpop : popCount r.lType = 1 := if_pos h1
  have hle := (stackHolds_iff hr).1 hs
  rw [internals_eq_popCount] at hle
  obtain ⟨x, hx⟩ : ∃ x, (postorderStack recs j)[popCount r.rType]? = some x :=
    ⟨_, List.getElem?_eq_getElem (by omega)⟩
  have hval : (slotOf x).val = x := slotOf_val ((lt_of_mem_postorderStack (List.mem_of_getElem? hx)).trans hj)
  refine ⟨slotOf x, poppedRef_of_internal h1 (by rwa [List.getElem?_drop]), hx.trans (by rw [hval]), fun h0 => ?_,
    fun h1 => ?_⟩
  · obtain ⟨hpos, htop⟩ := postorderStack_top (recs := recs) (j := j) (by omega)
    rw [popCount, h0, if_neg (by decide), htop, Option.some_inj] at hx
    omega
  · rw [popCount, if_pos h1] at hx
    rw [hval]
    exact postorderStack_second hx

end

/-! ### The loop -/

/-- The loop over consecutive records, of which record `j` comes first: it succeeds where the stack holds what each record
takes. -/
theorem buildPostorder_ok_iff {recs rs : List NodeRec} {j : Nat} (h : ∀ k < rs.length, recs[k + j]? = rs[k]?)
    {l : List Node} :
    buildPostorder j (postorderStack recs j) rs = .ok l ↔
      (∀ k < rs.length, StackHolds recs (k + j)) ∧ l = rs.mapIdx fun k => poppedNode (postorderStack recs (k + j)) := by
  induction rs generalizing j l with
  | nil => simp [buildPostorder, eq_comm]
  | cons r rs ih =>
    have hshift (k : Nat) : k + 1 + j = k + (j + 1) := Nat.succ_add_eq_add_succ k j
    simp only [List.length_cons, Nat.forall_lt_succ_left, hshift, List.getElem?_cons_zero,
      List.getElem?_cons_succ, List.mapIdx_cons, Nat.zero_add] at h ⊢
    obtain ⟨hr, hrs⟩ := h
    rw [stackHolds_iff hr, and_assoc]
    by_cases hle : r.internals ≤ (postorderStack recs j).length
    · rw [buildPostorder_cons_of_le hle, ← postorderStack_succ hr, engine_bind_ok]
      simp only [ih hrs, Except.ok.injEq, and_iff_right hle, and_assoc, exists_and_left, exists_eq_left, eq_comm]
    · simp [buildPostorder_cons_of_lt (Nat.not_le.1 hle), hle]

/-- The nodes of the first `n` records. -/
def builtNodes (recs : List NodeRec) (n : Nat) : List Node :=
  (recs.take n).mapIdx fun j => poppedNode (postorderStack recs j)

theorem arenaOf_builtNodes_of_lt {recs : List NodeRec} {n : Nat} {j : Fin 255} {r : NodeRec} (hj : j.val < n)
    (hr : recs[j.val]? = some r) : (arenaOf (builtNodes recs n))[j] = poppedNode (postorderStack recs j.val) r := by
  simp [builtNodes, List.getElem?_take_of_lt hj, hr]

theorem arenaOf_builtNodes_of_le {recs : List NodeRec} {n : Nat} {j : Fin 255} (hj : n ≤ j.val) :
    (arenaOf (builtNodes recs n))[j] = .cleared := by
  simp [builtNodes, Nat.not_lt.2 hj]

/-- The loop of R252: each record up to root_index finds its internal children on the stack. -/
theorem buildPostorder_take_ok_iff {recs : List NodeRec} {n : Nat} (hn : n ≤ recs.length) {l : List Node} :
    buildPostorder 0 [] (recs.take n) = .ok l ↔
      (∀ j < n, StackSuffices recs j) ∧ l = builtNodes recs n := by
  have hlen : (recs.take n).length = n := List.length_take_of_le hn
  have hsame : ∀ k < (recs.take n).length, recs[k + 0]? = (recs.take n)[k]? := fun k hk => by
    rw [Nat.add_zero, List.getElem?_take_of_lt (hlen ▸ hk)]
  rw [← stackHolds_iff_stackSuffices]
  simpa only [builtNodes, postorderStack, hlen, Nat.add_zero] using buildPostorder_ok_iff hsame (l := l)

theorem buildPostorder_take_of_not {recs : List NodeRec} {n : Nat} (hn : n ≤ recs.length)
    (h : ¬ ∀ j < n, StackSuffices recs j) :
    buildPostorder 0 [] (recs.take n) = .error (.raise .dangling) := by
  cases hb : buildPostorder 0 [] (recs.take n) with
  | ok l => exact absurd ((buildPostorder_take_ok_iff hn).1 hb).1 h
  | error e => rw [buildPostorder_error hb]

/-- The loop looks at no data byte of an internal field (R251). -/
theorem buildPostorder_map_asRead (index : Bool) (j : Nat) (stack : List Nat) (recs : List NodeRec) :
    buildPostorder j stack (recs.map (NodeRec.asRead index)) = buildPostorder j stack recs := by
  have field (t d : Byte) (stack : List Nat) :
      popRef t (if t = 1 ∧ index = false then 0 else d) stack = popRef t d stack := by
    unfold popRef
    split
    · rfl
    · rw [if_neg (not_and_of_not_left _ ‹_›)]
  induction recs generalizing j stack with
  | nil => rfl
  | cons r recs ih => simp only [List.map_cons, buildPostorder, NodeRec.asRead, field, ih]

/-! ### DESER_POSTORDER on a header in order -/

section
variable {s : State} {recs : List NodeRec} (h : s.HeaderReady false recs)
include h

theorem execDeserPostorder_of_ok {l : List Node} (hb : buildPostorder 0 [] (recs.take (s.opArg2 + 1)) = .ok l) :
    execDeserPostorder s = .next
      ((s.installTree (arenaOf l) (.int (slotOf s.opArg2))).completeOk
        (toWord (1 + 4 * recs.length)) (toWord recs.length)) := by
  have hroot : s.headerArgs.root = s.opArg2 := rfl
  simp [execDeserPostorder, h.parseHeader, hroot, ← List.map_take, buildPostorder_map_asRead, hb]

theorem execDeserPostorder_of_raise {c : ErrCode}
    (hb : buildPostorder 0 [] (recs.take (s.opArg2 + 1)) = .error (.raise c)) :
    execDeserPostorder s = .next (s.completeErr c) := by
  have hroot : s.headerArgs.root = s.opArg2 := rfl
  simp [execDeserPostorder, h.parseHeader, hroot, ← List.map_take, buildPostorder_map_asRead, hb]

end

end Sys2Proof.Machine

/-! SUPPORT. SERIALIZE: the records of a numbered tree, its internal children given by their places in postorder
(44_tree_serdes.md R235 to R238). -/

namespace Sys2Proof.Machine

/-! ### Records of a numbered tree -/

/-- The type and data bytes of a reference, an internal node's number being its place in a list of slots (R236). -/
def refBytes (l : List (Fin 255)) : Ref → Byte × Byte
  | .leaf x => (0, x)
  | .int i => (1, BitVec.ofNat 8 (l.idxOf i))

/-- The record of a slot. -/
def placeRecord (nodes : Arena) (l : List (Fin 255)) (i : Fin 255) : NodeRec where
  lType := (refBytes l nodes[i].left).1
  lData := (refBytes l nodes[i].left).2
  rType := (refBytes l nodes[i].right).1
  rData := (refBytes l nodes[i].right).2

/-- The records of a tree's slots, in postorder. -/
def slotTreeRecords (nodes : Arena) (t : SlotTree) : List NodeRec := t.postorder.map (placeRecord nodes t.postorder)

@[simp] theorem slotTreeRecords_length (nodes : Arena) (t : SlotTree) :
    (slotTreeRecords nodes t).length = t.postorder.length := List.length_map _

/-- The records of a tree whose slots have their places in postorder as numbers. -/
def numberedRecords (nodes : Arena) : SlotTree → List NodeRec
  | .leaf x => [{ lType := 0, lData := x, rType := 0, rData := x }]
  | .node i l r => slotTreeRecords nodes (.node i l r)

section
variable {nodes : Arena} {l : List (Fin 255)} (hl : l.length ≤ 255)
  (hnum : ∀ i : Fin 255, nodes[i].num = (l.idxOf? i).map slotOf)
include hl hnum

theorem encRef_of_mem {r : Ref} (hr : ∀ i, r = .int i → i ∈ l) : encRef nodes r = some (refBytes l r) := by
  cases r with
  | leaf x => rfl
  | int i =>
    have hi := hr i rfl
    have hval := slotOf_val ((List.idxOf_lt_length_of_mem hi).trans_le hl)
    rw [encRef, hnum, idxOf?_of_mem hi, Option.map_some, Option.map_some, hval, refBytes]

theorem slotRecords_of_mem {l' : List (Fin 255)}
    (hchild : ∀ i ∈ l', ∀ j, nodes[i].left = .int j ∨ nodes[i].right = .int j → j ∈ l) :
    slotRecords nodes l' = some (l'.map (placeRecord nodes l)) := by
  induction l' with
  | nil => rfl
  | cons i l' ih =>
    have hi := hchild i List.mem_cons_self
    have hrecord : slotRecord nodes i = some (placeRecord nodes l i) := by
      rw [slotRecord, encRef_of_mem hl hnum fun j hj => hi j (.inl hj), encRef_of_mem hl hnum fun j hj => hi j (.inr hj)]
      rfl
    rw [slotRecords, hrecord, ih fun j hj => hchild j (List.mem_cons_of_mem i hj)]
    rfl

end

/-- With NUMBERED = 1 the number of a slot of the tree is its place in postorder (10_state.md R55). -/
theorem treeRecords_of_numbersOk {s : State} (hn : s.NumbersOk) (hnum : s.status.numbered = true) {t : SlotTree}
    (ht : s.tree = some t) (hnd : t.postorder.Nodup) : treeRecords s.nodes t = some (numberedRecords s.nodes t) := by
  obtain ⟨-, t', ht', hnums⟩ := hn.2 hnum
  cases ht.symm.trans ht'
  cases t with
  | leaf x => rfl
  | node i l r =>
    exact slotRecords_of_mem (postorder_length_le hnd) hnums fun i hi j hj => mem_postorder_child ht hi hj

/-! ### SERIALIZE with a tree -/

theorem execSerialize_of_noTree {s : State} (h : s.status.treeValid = false) :
    execSerialize s = .next (s.completeErr .noTree) := by
  simp [execSerialize, h]

theorem execSerialize_of_notNumbered {s : State} (hv : s.status.treeValid = true) (h : s.status.numbered = false) :
    execSerialize s = .next (s.completeErr .notNumbered) := by
  simp [execSerialize, hv, h]

section
variable {s : State} (hv : s.status.treeValid = true) (hnum : s.status.numbered = true) {t : SlotTree} (ht : s.tree = some t)
  {recs : List NodeRec} (hr : treeRecords s.nodes t = some recs)
include hv hnum ht hr

theorem execSerialize_of_outOfRange (h : s.params.outBytes < s.opArg0 + (headerBytes recs).length) :
    execSerialize s = .next (s.completeErr .range) := by
  rw [headerBytes_length] at h
  have hrange : inRange s.headerDst (1 + 4 * recs.length) s.params.outBytes = false := decide_eq_false (Nat.not_le.2 h)
  simp [execSerialize, State.theTree, hv, hnum, ht, hr, hrange]

theorem execSerialize_of_inRange (h : s.opArg0 + (headerBytes recs).length ≤ s.params.outBytes) :
    execSerialize s = .next ((s.outWrite s.opArg0 (headerBytes recs)).completeOk
      (toWord (headerBytes recs).length) (toWord recs.length)) := by
  rw [headerBytes_length] at h ⊢
  have hrange : inRange s.headerDst (1 + 4 * recs.length) s.params.outBytes = true := inRange_of_le h
  simp only [execSerialize, State.theTree, hv, hnum, ht, hr, hrange, Bool.not_true, raiseIf_false, orStop_some, engine_ok_bind]
  rfl

end

/-- A SERIALIZE that raises no error has written the header of a numbered tree. -/
theorem execSerialize_writes_header {s t : State} (hs : s.TreeOk) (hn : s.NumbersOk) (h : execSerialize s = .next t)
    (hok : t.status.err = false) :
    ∃ tr, s.tree = some tr ∧ tr.postorder.Nodup ∧
      t = (s.outWrite s.opArg0 (headerBytes (numberedRecords s.nodes tr))).completeOk
        (toWord (1 + 4 * (numberedRecords s.nodes tr).length)) (toWord (numberedRecords s.nodes tr).length) := by
  rcases execSerialize_cases s with
    ⟨-, e⟩ | ⟨-, -, e⟩ | ⟨hv, hnum, ⟨-, e⟩ | ⟨tr, ht, ⟨-, e⟩ | ⟨recs, hr, ⟨-, e⟩ | ⟨-, e⟩⟩⟩⟩ <;> cases h.symm.trans e
  · cases hok
  · cases hok
  · cases hok
  · obtain ⟨tr', ht', hnd⟩ := hs hv
    cases ht.symm.trans ht'
    cases hr.symm.trans (treeRecords_of_numbersOk hn hnum ht hnd)
    exact ⟨tr, ht, hnd, rfl⟩

end Sys2Proof.Machine

/-! SUPPORT. The tree that the records of a numbered tree describe: the original, its slots renumbered to their places in
postorder (44_tree_serdes.md R256, R257). -/

namespace Sys2Proof.Machine

/-! ### Renaming slots -/

def renameRef (f : Fin 255 → Fin 255) : Ref → Ref
  | .leaf x => .leaf x
  | .int i => .int (f i)

def SlotTree.rename (f : Fin 255 → Fin 255) : SlotTree → SlotTree
  | .leaf x => .leaf x
  | .node i l r => .node (f i) (l.rename f) (r.rename f)

theorem SlotTree.rename_abs (f : Fin 255 → Fin 255) (t : SlotTree) : (t.rename f).abs = t.abs := by
  induction t with
  | leaf x => rfl
  | node i l r ihl ihr => rw [rename, abs, ihl, ihr, abs]

theorem SlotTree.rename_postorder (f : Fin 255 → Fin 255) (t : SlotTree) : (t.rename f).postorder = t.postorder.map f := by
  induction t with
  | leaf x => rfl
  | node i l r ihl ihr => simp only [rename, postorder, ihl, ihr, List.map_append, List.map_cons, List.map_nil]

/-- An arena with the slots of a tree renamed holds the renamed tree. -/
theorem readTree_rename {m n : Arena} {f : Fin 255 → Fin 255} {fuel : Nat} {r : Ref} {t : SlotTree}
    (ht : readTree m fuel r = some t)
    (h : ∀ i ∈ t.postorder, n[f i].left = renameRef f m[i].left ∧ n[f i].right = renameRef f m[i].right) :
    readTree n fuel (renameRef f r) = some (t.rename f) := by
  refine readTree_induction (P := fun fuel r t =>
      (∀ i ∈ t.postorder, n[f i].left = renameRef f m[i].left ∧ n[f i].right = renameRef f m[i].right) →
      readTree n fuel (renameRef f r) = some (t.rename f))
    (fun fuel x _ => readTree_leaf n fuel x) (fun fuel i l r _ _ ihl ihr h => ?_) ht h
  simp only [SlotTree.postorder, List.forall_mem_append, List.forall_mem_singleton] at h
  obtain ⟨⟨hl, hr⟩, hleft, hright⟩ := h
  rw [renameRef, readTree, hleft, hright, ihl hl, ihr hr, SlotTree.rename]

/-! ### Places in a list of slots -/

/-- The slot numbered as a slot's place in a list. -/
def placeSlot (l : List (Fin 255)) (i : Fin 255) : Fin 255 := slotOf (l.idxOf i)

theorem map_idxOf_self {l : List (Fin 255)} (hnd : l.Nodup) : l.map l.idxOf = List.range l.length :=
  List.ext_getElem (by simp) fun k hk _ => by simp [hnd.idxOf_getElem]

section
variable {nodes : Arena} {l : List (Fin 255)} (hl : l.length ≤ 255)
include hl

theorem map_placeSlot_nodup (hnd : l.Nodup) : (l.map (placeSlot l)).Nodup := by
  have hmap : l.map (placeSlot l) = slotsBelow l.length := by rw [slotsBelow, ← map_idxOf_self hnd, List.map_map]; rfl
  rw [hmap]
  exact slotsBelow_nodup hl

/-- A place fits a data byte. -/
theorem ofNat_idxOf_toNat (i : Fin 255) : (BitVec.ofNat 8 (l.idxOf i)).toNat = l.idxOf i := by
  rw [BitVec.toNat_ofNat, Nat.mod_eq_of_lt (Nat.lt_succ_of_le (List.idxOf_le_length.trans hl))]

theorem refOf_refBytes (r : Ref) : refOf (refBytes l r).1 (refBytes l r).2 = renameRef (placeSlot l) r := by
  cases r with
  | leaf x => rfl
  | int i => rw [refBytes, refOf, if_pos rfl, ofNat_idxOf_toNat hl, renameRef, placeSlot]

theorem recNode_placeRecord (i : Fin 255) : recNode (placeRecord nodes l i) =
    { left := renameRef (placeSlot l) nodes[i].left, right := renameRef (placeSlot l) nodes[i].right, num := none } := by
  rw [recNode, placeRecord, refOf_refBytes hl, refOf_refBytes hl]

/-- The record of a slot of the list goes to the slot numbered as its place. -/
theorem arenaOf_placeRecord {i : Fin 255} (hi : i ∈ l) :
    (arenaOf ((l.map (placeRecord nodes l)).map recNode))[placeSlot l i] = recNode (placeRecord nodes l i) :=
  arenaOf_recNode (by rw [List.getElem?_map, List.getElem?_idxOf hi, Option.map_some])
    ((List.idxOf_lt_length_of_mem hi).trans_le hl)

end

/-- Both deserializers are to make this tree: the original with its slots renamed. -/
theorem readTree_placeRecord {nodes : Arena} {fuel : Nat} {r : Ref} {t : SlotTree} (ht : readTree nodes fuel r = some t)
    (hnd : t.postorder.Nodup) :
    readTree (arenaOf ((slotTreeRecords nodes t).map recNode)) fuel
      (renameRef (placeSlot t.postorder) r) = some (t.rename (placeSlot t.postorder)) := by
  have hl := postorder_length_le hnd
  refine readTree_rename ht fun i hi => ?_
  rw [slotTreeRecords, arenaOf_placeRecord hl hi, recNode_placeRecord hl]
  exact ⟨rfl, rfl⟩

/-! ### The records are a header in order -/

theorem refBytes_type (l : List (Fin 255)) (r : Ref) : (refBytes l r).1 = 0 ∨ (refBytes l r).1 = 1 := by
  cases r with
  | leaf x => exact .inl rfl
  | int i => exact .inr rfl

theorem placeRecord_types (nodes : Arena) (l l' : List (Fin 255)) : ∀ r ∈ l'.map (placeRecord nodes l),
    (r.lType = 0 ∨ r.lType = 1) ∧ (r.rType = 0 ∨ r.rType = 1) :=
  List.forall_mem_map.2 fun _ _ => ⟨refBytes_type l _, refBytes_type l _⟩

/-- Every internal child is a slot of the tree, so that its place is a position of the list. -/
theorem indicesInRange_placeRecord {nodes : Arena} {fuel : Nat} {r : Ref} {t : SlotTree} (ht : readTree nodes fuel r = some t)
    (hnd : t.postorder.Nodup) : indicesInRange (slotTreeRecords nodes t) = true := by
  have hl := postorder_length_le hnd
  have field {q : Ref} (hq : ∀ j, q = .int j → j ∈ t.postorder) (h1 : (refBytes t.postorder q).1 = 1) :
      (refBytes t.postorder q).2.toNat < (slotTreeRecords nodes t).length := by
    cases q with
    | leaf x => cases h1
    | int j =>
      rw [refBytes, ofNat_idxOf_toNat hl, slotTreeRecords_length]
      exact List.idxOf_lt_length_of_mem (hq j rfl)
  refine indicesInRange_iff.2 (List.forall_mem_map.2 fun i hi => ⟨field fun j hj => ?_, field fun j hj => ?_⟩)
  · exact mem_postorder_child ht hi (.inl hj)
  · exact mem_postorder_child ht hi (.inr hj)

/-! ### The stack over a subtree (R257) -/

/-- The stack after a subtree's records, the first of them record `j`: its root, built last, stands on top. -/
def SlotTree.push (t : SlotTree) (j : Nat) (stack : List Nat) : List Nat :=
  match t with
  | .leaf _ => stack
  | .node _ _ _ => (j + t.postorder.length - 1) :: stack

/-- The slots of a tree have consecutive places in a list, the first of them place `j`. -/
def PlacesFrom (l : List (Fin 255)) (j : Nat) (t : SlotTree) : Prop :=
  t.postorder.map l.idxOf = List.range' j t.postorder.length

theorem placesFrom_self {t : SlotTree} (hnd : t.postorder.Nodup) : PlacesFrom t.postorder 0 t := by
  rw [PlacesFrom, map_idxOf_self hnd, List.range_eq_range']

/-- The left subtree's slots come first, then the right subtree's, then the root. -/
theorem PlacesFrom.of_node {l : List (Fin 255)} {j : Nat} {i : Fin 255} {lt rt : SlotTree}
    (h : PlacesFrom l j (.node i lt rt)) :
    PlacesFrom l j lt ∧ PlacesFrom l (j + lt.postorder.length) rt ∧
      l.idxOf i = j + lt.postorder.length + rt.postorder.length := by
  simp only [PlacesFrom, SlotTree.postorder, List.map_append, List.length_append, List.length_singleton,
    ← List.range'_append_1] at h
  obtain ⟨h, hi⟩ := List.append_inj h (by simp)
  obtain ⟨hl, hr⟩ := List.append_inj h (by simp)
  exact ⟨hl, hr, by simpa [Nat.add_assoc] using hi⟩

/-- A field takes its subtree's root off the stack, whose place its data byte gives. -/
theorem popRef_push {nodes : Arena} {l : List (Fin 255)} {fuel : Nat} {r : Ref} {t : SlotTree}
    (ht : readTree nodes fuel r = some t) {j : Nat} (hpos : PlacesFrom l j t) (stack : List Nat) :
    popRef (refBytes l r).1 (refBytes l r).2 (t.push j stack) = .ok (renameRef (placeSlot l) r, stack) := by
  cases r with
  | leaf x =>
    rw [readTree_leaf] at ht
    cases ht
    rfl
  | int i =>
    obtain ⟨_, lt, rt, -, rfl, -, -⟩ := readTree_int ht
    obtain ⟨-, -, hi⟩ := hpos.of_node
    have htop : j + (SlotTree.node i lt rt).postorder.length - 1 = l.idxOf i := by simp [SlotTree.postorder, hi]; omega
    rw [refBytes, SlotTree.push, htop]
    rfl

/-- The loop over a subtree's records, which stand in postorder, makes the nodes that their data bytes describe. -/
theorem buildPostorder_subtree {nodes : Arena} {l : List (Fin 255)} (hl : l.length ≤ 255) {fuel : Nat} {r : Ref}
    {t : SlotTree} (ht : readTree nodes fuel r = some t) {j : Nat} (hpos : PlacesFrom l j t) (stack : List Nat)
    (rest : List NodeRec) :
    buildPostorder j stack (t.postorder.map (placeRecord nodes l) ++ rest) =
      buildPostorder (j + t.postorder.length) (t.push j stack) rest >>= fun ns =>
        .ok ((t.postorder.map (placeRecord nodes l)).map recNode ++ ns) := by
  refine readTree_induction (P := fun _ _ t => ∀ j stack rest, PlacesFrom l j t →
      buildPostorder j stack (t.postorder.map (placeRecord nodes l) ++ rest) =
        buildPostorder (j + t.postorder.length) (t.push j stack) rest >>= fun ns =>
          .ok ((t.postorder.map (placeRecord nodes l)).map recNode ++ ns))
    (fun _ _ j stack rest _ => ?leaf) (fun _ i lt rt hlt hrt ihl ihr j stack rest hpos => ?node) ht j stack rest hpos
  case leaf => exact (bind_pure (m := Except Abort) _).symm
  case node =>
    obtain ⟨hposl, hposr, -⟩ := hpos.of_node
    have hlen : j + (SlotTree.node i lt rt).postorder.length = j + lt.postorder.length + rt.postorder.length + 1 := by
      simp [SlotTree.postorder, Nat.add_assoc]
    have hroot : buildPostorder (j + lt.postorder.length + rt.postorder.length)
        (rt.push (j + lt.postorder.length) (lt.push j stack)) (placeRecord nodes l i :: rest) =
        buildPostorder (j + lt.postorder.length + rt.postorder.length + 1)
          ((j + lt.postorder.length + rt.postorder.length) :: stack) rest >>= fun ns =>
            .ok (recNode (placeRecord nodes l i) :: ns) := by
      simp only [buildPostorder, placeRecord, popRef_push hrt hposr, popRef_push hlt hposl, engine_ok_bind, recNode,
        refOf_refBytes hl]
    rw [SlotTree.push, hlen, Nat.add_sub_cancel]
    simp only [SlotTree.postorder, List.map_append, List.map_cons, List.map_nil, List.append_assoc, List.cons_append,
      List.nil_append, ihl _ _ _ hposl, ihr _ _ _ hposr, hroot, bind_assoc, engine_ok_bind]

/-- DESER_POSTORDER makes of the records of a tree the nodes that DESER_GENERAL makes (R256). -/
theorem buildPostorder_placeRecord {nodes : Arena} {fuel : Nat} {r : Ref} {t : SlotTree} (ht : readTree nodes fuel r = some t)
    (hnd : t.postorder.Nodup) :
    buildPostorder 0 [] (slotTreeRecords nodes t) =
      .ok ((slotTreeRecords nodes t).map recNode) := by
  simpa [buildPostorder, slotTreeRecords] using buildPostorder_subtree (postorder_length_le hnd) ht (placesFrom_self hnd) [] []

/-! ### The header's bytes in a buffer -/

theorem Memory.holds_cons {m : Memory} {a : Nat} {b : Byte} {bs : List Byte} :
    m.Holds a (b :: bs) ↔ m.read a = some b ∧ m.Holds (a + 1) bs := by
  rw [Memory.Holds, List.length_cons, Nat.forall_lt_succ_left]
  exact and_congr (by simp) (forall₂_congr fun j _ => by
    rw [List.getElem?_cons_succ, Nat.add_assoc a 1 j, Nat.add_comm 1 j])

/-- The bytes of records are records as DESER_GENERAL reads them. -/
theorem Memory.holdsRecords_of_holds {m : Memory} {a : Nat} {recs : List NodeRec}
    (h : m.Holds a (recs.flatMap NodeRec.bytes)) : m.HoldsRecords true a recs := by
  induction recs generalizing a with
  | nil => exact fun j r hr => by simp at hr
  | cons r recs ih =>
    simp only [List.flatMap_cons, NodeRec.bytes, List.cons_append, List.nil_append, Memory.holds_cons] at h
    obtain ⟨h0, h1, h2, h3, h⟩ := h
    exact Memory.holdsRecords_cons.2 ⟨⟨h0, fun _ => h1, h2, fun _ => h3⟩, ih h⟩

theorem Memory.HoldsRecords.of_true {m : Memory} {a : Nat} {recs : List NodeRec} (h : m.HoldsRecords true a recs)
    (index : Bool) : m.HoldsRecords index a recs := by
  intro j r hr
  obtain ⟨h0, h1, h2, h3⟩ := h j r hr
  exact ⟨h0, fun _ => h1 (.inl rfl), h2, fun _ => h3 (.inl rfl)⟩

/-- A header in IN that both deserializers can read. -/
theorem headerReady_of_holds {s : State} {recs : List NodeRec} (index : Bool) (hr : s.opArg0 + s.opArg1 ≤ s.params.inBytes)
    (hfits : 1 + 4 * recs.length ≤ s.opArg1) (hmost : recs.length ≤ 255)
    (hbytes : s.inBuf.Holds s.opArg0 (headerBytes recs))
    (htypes : ∀ r ∈ recs, (r.lType = 0 ∨ r.lType = 1) ∧ (r.rType = 0 ∨ r.rType = 1)) (hroot : s.opArg2 < recs.length) :
    s.HeaderReady index recs where
  range := hr
  fits := hfits
  least := Nat.one_le_of_lt hroot
  most := hmost
  count := (Memory.holds_cons.1 hbytes).1
  bytes := (Memory.holdsRecords_of_holds (Memory.holds_cons.1 hbytes).2).of_true index
  types := htypes
  root := hroot

/-- What a store wrote stands in every buffer that agrees with the stored bytes. -/
theorem Memory.StoredAt.holds {m out m' : Memory} {a a' : Nat} {bs : List Byte} (h : m.StoredAt out a bs)
    (hcopy : ∀ j, j < bs.length → m'.read (a' + j) = out.read (a + j)) : m'.Holds a' bs := by
  intro j hj
  rw [hcopy j hj, h (a + j), if_pos ⟨Nat.le_add_right a j, Nat.add_lt_add_left hj a⟩, Nat.add_sub_cancel_left]

/-! ### Both deserializers on the records of a tree -/

/-- Both deserializers rebuild the tree whose records stand in IN, with its slots renamed to their places in postorder. -/
theorem deserializers_rebuild {nodes : Arena} {i : Fin 255} {tr : SlotTree} (htr : readTree nodes 255 (.int i) = some tr)
    (hnd : tr.postorder.Nodup) {s : State} (hr : s.opArg0 + s.opArg1 ≤ s.params.inBytes)
    (hfits : 1 + 4 * tr.postorder.length ≤ s.opArg1)
    (hbytes : s.inBuf.Holds s.opArg0 (headerBytes (slotTreeRecords nodes tr)))
    (hroot : s.opArg2 = tr.postorder.length - 1) :
    ∃ u v, exec .deserGeneral s = .next u ∧ exec .deserPostorder s = .next v ∧ u.status.err = false ∧
      v.status.err = false ∧ u.nodes = v.nodes ∧ u.root = v.root ∧ u.tree = some (tr.rename (placeSlot tr.postorder)) := by
  have hl := postorder_length_le hnd
  obtain ⟨hmem, hlast⟩ := idxOf_root_postorder htr hnd
  have hpos := List.length_pos_of_mem hmem
  have hlen : (slotTreeRecords nodes tr).length = tr.postorder.length := slotTreeRecords_length _ _
  have ready (index : Bool) : s.HeaderReady index (slotTreeRecords nodes tr) :=
    headerReady_of_holds index hr (by rwa [hlen]) (by rwa [hlen]) hbytes (placeRecord_types _ _ _) (by omega)
  have htree : readTree (arenaOf ((slotTreeRecords nodes tr).map recNode)) 255
      (.int (slotOf s.opArg2)) = some (tr.rename (placeSlot tr.postorder)) := by
    rw [hroot, ← hlast]
    exact readTree_placeRecord htr hnd
  have hnd' : (tr.rename (placeSlot tr.postorder)).postorder.Nodup := by
    rw [SlotTree.rename_postorder]
    exact map_placeSlot_nodup hl hnd
  have hbuild : buildPostorder 0 [] ((slotTreeRecords nodes tr).take (s.opArg2 + 1)) =
      .ok ((slotTreeRecords nodes tr).map recNode) := by
    rw [List.take_of_length_le (by omega)]
    exact buildPostorder_placeRecord htr hnd
  exact ⟨_, _, execDeserGeneral_of_tree (ready true) (indicesInRange_placeRecord htr hnd) ⟨_, htree, hnd'⟩,
    execDeserPostorder_of_ok (ready false) hbuild, rfl, rfl, rfl, rfl, htree⟩

end Sys2Proof.Machine

/-! Settled obligations: the serializer and the deserializers (44_tree_serdes.md R235 to R256). -/

namespace Sys2Proof.Machine

/-- Settles O41: with NUMBERED = 1 the number of a slot is its place in postorder, and the store writes the header only. -/
theorem serializeWritesHeader : Obligations.SerializeWritesHeader := by
  intro s
  refine ⟨execSerialize_of_noTree, execSerialize_of_notNumbered, fun hv hnum hs hn tr htr => ?_⟩
  obtain ⟨tr', htr', hnd⟩ := hs hv
  cases htr.symm.trans htr'
  have hrecs := treeRecords_of_numbersOk hn hnum htr hnd
  intro l child header
  have hheader : headerBytes (numberedRecords s.nodes tr) = header := by
    cases tr with
    | leaf x => rfl
    | node i lt rt =>
      have hchild (r : Ref) : [(refBytes l r).1, (refBytes l r).2] = child r := by cases r <;> rfl
      have hbytes (i : Fin 255) : (placeRecord s.nodes l i).bytes = child s.nodes[i].left ++ child s.nodes[i].right := by
        rw [← hchild, ← hchild]
        rfl
      exact congrArg₂ List.cons (by rw [numberedRecords, slotTreeRecords_length])
        ((List.flatMap_map _ _ _).trans (congrArg (List.flatMap · l) (funext hbytes)))
  have hlen : (numberedRecords s.nodes tr).length = (header.length - 1) / 4 := by
    rw [← hheader, headerBytes_length]
    omega
  rw [← hlen, ← hheader]
  exact ⟨execSerialize_of_outOfRange hv hnum htr hrecs, fun hb =>
    ⟨_, Memory.storedAt_writeBytes _ _ _, execSerialize_of_inRange hv hnum htr hrecs hb⟩⟩

/-- Settles O42: each clause is the first check of parse_header that fails. -/
theorem headerChecksInOrder : Obligations.HeaderChecksInOrder := by
  intro i s hi
  refine ⟨fun h => ?_, fun hr => ⟨fun h => ?_, fun hl n hn => ⟨fun h0 => ?_, fun h0 h => ?_,
    fun recs h0 hl hlen hrecs => ⟨fun htypes => ?_, fun htypes hroot => ?_⟩⟩⟩⟩ <;> apply exec_of_parseHeader_raise hi
  · exact parseHeader_of_outOfRange h
  · exact parseHeader_of_empty hr h
  · exact (parseHeader_of_count hr hl hn).trans (if_pos (.inl h0))
  · exact (parseHeader_of_count hr hl hn).trans (if_pos (.inr h))
  · exact (parseHeader_of_records hr hn h0 hl hlen hrecs).trans (if_pos (typesLegal_eq_false_iff.2 htypes))
  · refine (parseHeader_of_records hr hn h0 hl hlen hrecs).trans ?_
    exact (if_neg (by simp [typesLegal_iff.2 htypes])).trans (if_pos hroot)

/-- Settles O43: check_shape, the last check, passes exactly when the records from root_index form a tree. -/
theorem deserGeneralBuildsOrRejects : Obligations.DeserGeneralBuildsOrRejects := by
  intro s recs h
  refine ⟨fun hout => execDeserGeneral_of_dangling h (indicesInRange_eq_false_iff.2 hout), fun hin => ?_⟩
  have hrange := indicesInRange_iff.2 hin
  exact ⟨execDeserGeneral_of_tree h hrange, execDeserGeneral_of_not_tree h hrange⟩

/-- Settles O44: the loop succeeds when every record finds its children on the stack, and a slot is what its record pops. -/
theorem deserPostorderBuildsOrRejects : Obligations.DeserPostorderBuildsOrRejects := by
  intro s recs h
  have hle : s.opArg2 + 1 ≤ recs.length := h.root
  refine ⟨fun hall => ?builds, fun hbad => ?rejects⟩
  case builds =>
    have hsuff : ∀ j < s.opArg2 + 1, StackSuffices recs j := fun j hj => hall j (Nat.le_of_lt_succ hj)
    have hholds := (stackHolds_iff_stackSuffices recs _).2 hsuff
    refine ⟨arenaOf (builtNodes recs (s.opArg2 + 1)),
      execDeserPostorder_of_ok h ((buildPostorder_take_ok_iff hle).2 ⟨hsuff, rfl⟩), fun j r hj hr => ?_,
      fun j hj => arenaOf_builtNodes_of_le hj⟩
    have hlt : j.val < s.opArg2 + 1 := Nat.lt_succ_of_le hj
    have hs := hholds j.val hlt
    rw [arenaOf_builtNodes_of_lt hlt hr]
    exact ⟨rfl, poppedRef_of_leaf, poppedRef_of_leaf, poppedNode_right_of_internal hr hs,
      poppedNode_left_of_internal hr hs j.isLt⟩
  case rejects =>
    obtain ⟨j, hj, hbad⟩ := hbad
    exact execDeserPostorder_of_raise h
      (buildPostorder_take_of_not hle fun hsuff => hbad (hsuff j (Nat.lt_succ_of_le hj)))

/-- Settles O45: a DESER_POSTORDER without error has installed what its loop built, and that is a tree. -/
theorem deserPostorderMakesTree : Obligations.DeserPostorderMakesTree := by
  intro s t h hok
  rcases execDeserPostorder_cases s with ⟨_, -, e⟩ | ⟨_, -, e⟩ | ⟨recs, hp, ⟨_, -, e⟩ | ⟨_, -, e⟩ | ⟨l, hl, e⟩⟩ <;>
    cases h.symm.trans e
  · cases hok
  · cases hok
  · obtain ⟨hroot, hlen⟩ := parseHeader_ok_bounds hp
    exact ⟨rfl, buildPostorder_makes_tree hroot hlen hl⟩

/-- Settles O46: the header SERIALIZE wrote is that of the tree's records, from which both rebuild it. -/
theorem serializeRoundTrip : Obligations.SerializeRoundTrip := by
  intro s t s' i hs hn hroot h hok hr hfits hindex hbytes
  obtain ⟨tr, htr, hnd, rfl⟩ := execSerialize_writes_header hs hn h hok
  have hread := htr
  rw [State.tree, hroot] at hread
  have hl := postorder_length_le hnd
  have hrecs : numberedRecords s.nodes tr = slotTreeRecords s.nodes tr := by
    obtain ⟨_, _, _, -, rfl, -, -⟩ := readTree_int hread
    rfl
  have hlen : (numberedRecords s.nodes tr).length = tr.postorder.length := by rw [hrecs, slotTreeRecords_length]
  have toWord_toNat {n : Nat} (hn : n ≤ 1 + 4 * 255) : (toWord n).toNat = n := by
    rw [toWord, BitVec.toNat_ofNat, Nat.mod_eq_of_lt (by omega)]
  have hresult0 : (toWord (1 + 4 * (numberedRecords s.nodes tr).length)).toNat = 1 + 4 * tr.postorder.length := by
    rw [hlen, toWord_toNat (by omega)]
  have hresult1 : (toWord (numberedRecords s.nodes tr).length).toNat = tr.postorder.length := by
    rw [hlen, toWord_toNat (by omega)]
  simp only [completeOk_result0, completeOk_result1, hresult0, hresult1] at hfits hindex hbytes
  have hholds := (Memory.storedAt_writeBytes s.outBuf s.opArg0 (headerBytes (numberedRecords s.nodes tr))).holds
    (m' := s'.inBuf) (a' := s'.opArg0) fun j hj => hbytes j (by rwa [headerBytes_length, hlen] at hj)
  obtain ⟨u, v, hu, hv, huok, hvok, hnodes, hroots, hutree⟩ :=
    deserializers_rebuild hread hnd hr hfits (hrecs ▸ hholds) hindex
  exact ⟨u, v, hu, hv, huok, hvok, hnodes, hroots, tr, _, htr, hutree, (SlotTree.rename_abs _ tr).symm⟩

end Sys2Proof.Machine

/-! SUPPORT. The bits of payload bytes, and the size field before them (45_stream_packer.md R272, R273; 20_memory.md R91, R94). -/

namespace Sys2Proof.Machine

/-! ### The size field -/

theorem toWord_toNat {n : Nat} (h : n < 2 ^ 32) : (toWord n).toNat = n := by
  rw [toWord, BitVec.toNat_ofNat, Nat.mod_eq_of_lt h]

@[simp] theorem toWord_self (v : Word) : toWord v.toNat = v := by simp [toWord]

/-- A size is the integer that its four bytes are, least significant first (R273; 20_memory.md R91). -/
theorem bytesToNat_wordBytes (v : Word) : bytesToNat (wordBytes v) = v.toNat := by
  have := v.isLt
  simp [wordBytes, bytesToNat, wordByte, Nat.shiftRight_eq_div_pow]
  omega

theorem wordBytes_toWord {n : Nat} (h : n < 2 ^ 32) : wordBytes (toWord n) =
    [BitVec.ofNat 8 (n % 256), BitVec.ofNat 8 (n / 256 % 256), BitVec.ofNat 8 (n / 65536 % 256),
      BitVec.ofNat 8 (n / 16777216)] := by
  simp only [wordBytes, List.cons.injEq, and_true]
  refine ⟨?_, ?_, ?_, ?_⟩ <;> apply BitVec.eq_of_toNat_eq <;>
    simp [wordByte, Nat.shiftRight_eq_div_pow, toWord_toNat h] 

/-! ### Payload bytes -/

/-- A number written out digit by digit has those bits, the first one most significant. -/
theorem testBit_foldl_double (f : Nat → Bool) {n p : Nat} (hp : p < n) :
    ((List.range n).foldl (fun acc k => 2 * acc + (f k).toNat) 0).testBit (n - 1 - p) = f p := by
  induction n with
  | zero => exact absurd hp (Nat.not_lt_zero p)
  | succ n ih =>
    rw [List.range_succ, List.foldl_append, List.foldl_cons, List.foldl_nil, ← Nat.bit_val]
    rcases Nat.lt_succ_iff_lt_or_eq.1 hp with hp | rfl
    · rw [show n + 1 - 1 - p = (n - 1 - p) + 1 by omega, Nat.testBit_bit_succ, ih hp]
    · rw [Nat.add_sub_cancel, Nat.sub_self, Nat.testBit_bit_zero]

/-- Bit 7 - p of payload byte q is bit 8q + p of the stream (R272). -/
theorem payloadByte_getLsbD (bits : BitStr) (t : Nat) :
    (payloadByte bits (t / 8)).getLsbD (7 - t % 8) = bits.getD t false := by
  have hp : t % 8 < 8 := Nat.mod_lt t (by decide)
  rw [payloadByte, BitVec.getLsbD_ofNat, decide_eq_true (by omega), Bool.true_and,
    testBit_foldl_double (fun p => bits.getD (8 * (t / 8) + p) false) hp, Nat.div_add_mod]

@[simp] theorem payloadBytes_length (bits : BitStr) : (payloadBytes bits).length = ceilDiv bits.length 8 := by
  simp [payloadBytes]

theorem payloadBytes_getElem? {bits : BitStr} {q : Nat} (h : q < ceilDiv bits.length 8) :
    (payloadBytes bits)[q]? = some (payloadByte bits q) := by
  simp [payloadBytes, h]

/-- The payload of a bit string holds its bits (R272). -/
theorem Memory.Holds.bits {m : Memory} {a : Nat} {bits : BitStr} (h : m.Holds a (payloadBytes bits)) :
    m.HoldsBits a bits := by
  intro t ht
  have hq : t / 8 < ceilDiv bits.length 8 := by rw [ceilDiv]; omega
  refine ⟨payloadByte bits (t / 8), ?_, ?_⟩
  · rw [h _ (by rwa [payloadBytes_length]), payloadBytes_getElem? hq]
  · rw [payloadByte_getLsbD, List.getD_eq_getElem?_getD, List.getElem?_eq_getElem ht, Option.getD_some]

theorem Memory.holds_append {m : Memory} {a : Nat} {bs cs : List Byte} :
    m.Holds a (bs ++ cs) ↔ m.Holds a bs ∧ m.Holds (a + bs.length) cs := by
  induction bs generalizing a with
  | nil => simp [Memory.Holds]
  | cons b bs ih =>
    rw [List.cons_append, Memory.holds_cons, Memory.holds_cons, ih, and_assoc, List.length_cons, Nat.add_assoc,
      Nat.add_comm 1]

end Sys2Proof.Machine

/-! SUPPORT. PACK: its code stream, and its checks (45_stream_packer.md R271, R275, R276). -/

namespace Sys2Proof.Machine

/-! ### The code stream -/

/-- The first symbol without a code ends the stream (R276). -/
theorem codeStream_of_noCode {s : State} {n a j : Nat} {x : Byte} (hj : j < n)
    (hbefore : ∀ k, k < j → ∃ y : Byte, s.inBuf.read (a + k) = some y ∧ s.code[y.toNat]'y.isLt ≠ none)
    (hx : s.inBuf.read (a + j) = some x) (hcode : s.code[x.toNat]'x.isLt = none) :
    codeStream s n a = .error (.raise .noCode) := by
  induction j generalizing n a with
  | zero =>
    obtain ⟨n, rfl⟩ := Nat.exists_eq_add_one.2 hj
    rw [Nat.add_zero] at hx
    rw [codeStream, inByte_ok.2 hx, engine_ok_bind, hcode]
    rfl
  | succ j ih =>
    obtain ⟨n, rfl⟩ := Nat.exists_eq_add_one.2 (Nat.zero_lt_of_lt hj)
    obtain ⟨y, hy, hyc⟩ := hbefore 0 (Nat.succ_pos j)
    obtain ⟨bits, hbits⟩ := Option.ne_none_iff_exists'.1 hyc
    rw [Nat.add_zero] at hy
    have hrest : codeStream s n (a + 1) = .error (.raise .noCode) := by
      refine ih (Nat.lt_of_succ_lt_succ hj) (fun k hk => ?_) ?_
      · rw [Nat.add_assoc, Nat.add_comm 1 k]
        exact hbefore (k + 1) (Nat.succ_lt_succ hk)
      · rwa [Nat.add_assoc, Nat.add_comm 1 j]
    rw [codeStream, inByte_ok.2 hy, engine_ok_bind, hbits, hrest]
    rfl

/-- A code stream symbol by symbol: each symbol stands in IN, and its code in CODE. -/
theorem codeStream_ok_symbols {s : State} {n a : Nat} {bits : BitStr} (h : codeStream s n a = .ok bits) :
    ∃ l : List (Byte × BitStr), l.length = n ∧ l.flatMap Prod.snd = bits ∧ s.inBuf.Holds a (l.map Prod.fst) ∧
      ∀ q ∈ l, s.code[q.1.toNat]'q.1.isLt = some q.2 := by
  rw [codeStream_ok] at h
  obtain ⟨codes, hl, rfl, hcodes⟩ := h
  induction codes generalizing n a with
  | nil => exact ⟨[], hl, rfl, fun j hj => absurd hj (Nat.not_lt_zero j), by simp⟩
  | cons code codes ih =>
    subst hl
    obtain ⟨x, hx, hxc⟩ := hcodes 0 (Nat.succ_pos _)
    obtain ⟨l, hl, hbits, hin, hcode⟩ := ih (a := a + 1) rfl fun j hj => by
      rw [Nat.add_assoc, Nat.add_comm 1 j]
      exact hcodes (j + 1) (Nat.succ_lt_succ hj)
    exact ⟨(x, code) :: l, by simp [hl], by simp [hbits], Memory.holds_cons.2 ⟨hx, hin⟩,
      List.forall_mem_cons.2 ⟨hxc, hcode⟩⟩

/-! ### The checks, in order -/

section
variable {s : State}

theorem execPack_of_inOutOfRange (h : s.params.inBytes < s.opArg0 + s.opArg1) :
    execPack s = .next (s.completeErr .range) := by
  rcases execPack_cases s with ⟨-, e⟩ | ⟨hr, -⟩
  · exact e
  · exact absurd h (Nat.not_lt.2 hr)

variable (hr : s.opArg0 + s.opArg1 ≤ s.params.inBytes)
include hr

theorem execPack_of_raise {c : ErrCode} (h : codeStream s s.opArg1 s.opArg0 = .error (.raise c)) :
    execPack s = .next (s.completeErr c) := by
  rcases execPack_cases s with ⟨hr', -⟩ | ⟨-, ⟨_, hc, e⟩ | ⟨_, hc, -⟩ | ⟨_, hc, -⟩⟩
  · exact absurd hr (Nat.not_le.2 hr')
  all_goals cases h.symm.trans hc
  exact e

theorem execPack_of_codeStream {bits : BitStr} (h : codeStream s s.opArg1 s.opArg0 = .ok bits) :
    execPack s =
      if s.params.outBytes < s.opArg2 + (4 + ceilDiv bits.length 8) then .next (s.completeErr .range)
      else .next ((s.outWrite s.opArg2 (sizedPayload s.opArg1 bits)).completeOk
        (toWord (4 + ceilDiv bits.length 8)) (toWord bits.length)) := by
  rcases execPack_cases s with ⟨hr', -⟩ | ⟨-, ⟨_, hc, -⟩ | ⟨_, hc, -⟩ | ⟨_, hc, ⟨ho, e⟩ | ⟨ho, e⟩⟩⟩
  · exact absurd hr (Nat.not_le.2 hr')
  all_goals cases h.symm.trans hc
  · rw [if_pos ho, e]
  · rw [if_neg (Nat.not_lt.2 ho), e]

end

/-- A PACK that raises no error has written the codes of the symbols in IN, which are paths of the current tree. -/
theorem execPack_writes_codePaths {s t : State} (hs : s.CodesOk) (hcv : s.status.codesValid = true)
    (h : execPack s = .next t) (hok : t.status.err = false) :
    ∃ (tr : SlotTree) (l : List (Byte × BitStr)), s.tree = some tr ∧ (∀ q ∈ l, q ∈ tr.codePaths) ∧ l.length = s.opArg1 ∧
      s.inBuf.Holds s.opArg0 (l.map Prod.fst) ∧
      s.opArg2 + (sizedPayload s.opArg1 (l.flatMap Prod.snd)).length ≤ s.params.outBytes ∧
      t = (s.outWrite s.opArg2 (sizedPayload s.opArg1 (l.flatMap Prod.snd))).completeOk
        (toWord (sizedPayload s.opArg1 (l.flatMap Prod.snd)).length) (toWord (l.flatMap Prod.snd).length) := by
  obtain ⟨-, tr, htr, hcodes⟩ := hs.2 hcv
  rcases execPack_cases s with ⟨-, e⟩ | ⟨-, ⟨_, -, e⟩ | ⟨_, -, e⟩ | ⟨bits, hbits, ⟨-, e⟩ | ⟨ho, e⟩⟩⟩ <;> cases h.symm.trans e
  · cases hok
  · cases hok
  · cases hok
  · obtain ⟨l, hlen, rfl, hin, hcode⟩ := codeStream_ok_symbols hbits
    rw [← sizedPayload_length s.opArg1] at ho ⊢
    refine ⟨tr, l, htr, fun q hq => ?_, hlen, hin, ho, rfl⟩
    obtain ⟨i, hi⟩ := symbolOf_surjective q.1
    refine mem_codePaths_of_codeOf (x := q.1) ?_
    rw [← hi, ← hcodes i, ← hcode q hq]
    simp [← hi]

end Sys2Proof.Machine

/-! SUPPORT. UNPACK's decoding: what it makes of the payload bits that stand in IN (45_stream_packer.md R280, R285 to R287). -/

namespace Sys2Proof.Machine

/-! ### Bits of the payload -/

/-- The payload bits that UNPACK reads from position `t` on are the given ones. -/
def State.PayloadBits (s : State) (base : Nat) : Nat → BitStr → Prop
  | _, [] => True
  | t, b :: bits => payloadBit s base t = .ok b ∧ s.PayloadBits base (t + 1) bits

theorem payloadBits_append {s : State} {base t : Nat} {bits rest : BitStr} :
    s.PayloadBits base t (bits ++ rest) ↔ s.PayloadBits base t bits ∧ s.PayloadBits base (t + bits.length) rest := by
  induction bits generalizing t with
  | nil => simp [State.PayloadBits]
  | cons b bits ih =>
    rw [List.cons_append, State.PayloadBits, State.PayloadBits, ih, and_assoc, List.length_cons, Nat.add_assoc,
      Nat.add_comm 1]

/-- Bits in IN, most significant first (20_memory.md R94), are what UNPACK reads. -/
theorem payloadBits_of_holdsBits {s : State} {base : Nat} {bits : BitStr} (h : s.inBuf.HoldsBits base bits) :
    s.PayloadBits base 0 bits := by
  induction bits using List.reverseRecOn with
  | nil => trivial
  | append_singleton bits b ih =>
    refine payloadBits_append.2 ⟨ih fun t ht => ?_, ?_, trivial⟩
    · obtain ⟨c, hc, hbit⟩ := h t (by simp; omega)
      exact ⟨c, hc, by rw [hbit, List.getElem?_append_left ht]⟩
    · obtain ⟨c, hc, hbit⟩ := h bits.length (by simp)
      rw [List.getElem?_concat_length, Option.some.injEq] at hbit
      rw [Nat.zero_add, payloadBit, inByte_ok.2 hc, ← hbit]
      rfl

/-! ### The walk along a path -/

/-- The empty path is that of a leaf without a node above it. -/
theorem eq_leaf_of_nil_mem_leafPaths {nodes : Arena} {fuel : Nat} {r : Ref} {tr : SlotTree}
    (htr : readTree nodes fuel r = some tr) {x : Byte} (h : (x, []) ∈ tr.leafPaths []) : r = .leaf x := by
  cases r with
  | leaf y =>
    rw [readTree_leaf] at htr
    cases htr
    cases List.mem_singleton.1 h
    rfl
  | int i =>
    obtain ⟨_, l, r, -, rfl, -, -⟩ := readTree_int htr
    exact absurd rfl (codePaths_ne_nil (t := .node i l r) h)

/-- The first bit of a path goes to the left or the right subtree of a node, where the rest of the path begins. -/
theorem exists_child_of_cons_mem_leafPaths {nodes : Arena} {fuel : Nat} {r : Ref} {tr : SlotTree}
    (htr : readTree nodes fuel r = some tr) {x : Byte} {b : Bool} {path : BitStr} (h : (x, b :: path) ∈ tr.leafPaths []) :
    ∃ (i : Fin 255) (k : Nat) (child : SlotTree), r = .int i ∧
      readTree nodes k (if b then nodes[i].right else nodes[i].left) = some child ∧ (x, path) ∈ child.leafPaths [] := by
  cases r with
  | leaf y =>
    rw [readTree_leaf] at htr
    cases htr
    cases List.mem_singleton.1 h
  | int i =>
    obtain ⟨k, l, r, -, rfl, hl, hr⟩ := readTree_int htr
    rw [SlotTree.leafPaths, leafPaths_append l, leafPaths_append r, List.mem_append] at h
    rcases h with h | h <;> obtain ⟨p, hp, e⟩ := List.mem_map.1 h <;> cases e
    · exact ⟨i, k, l, rfl, hl, hp⟩
    · exact ⟨i, k, r, rfl, hr, hp⟩

theorem walkBits_int {s : State} {base t : Nat} {b : Bool} (h : payloadBit s base t = .ok b) (left : Nat) (i : Fin 255) :
    walkBits s base (left + 1) (.int i) t =
      walkBits s base left (if b then s.nodes[i].right else s.nodes[i].left) (t + 1) := by
  rw [walkBits, h, engine_ok_bind]

/-- A walk over the bits of a leaf's path ends at that leaf (R280). -/
theorem walkBits_of_path {s : State} {base fuel : Nat} {r : Ref} {tr : SlotTree} (htr : readTree s.nodes fuel r = some tr)
    {x : Byte} {path : BitStr} (hq : (x, path) ∈ tr.leafPaths []) {left t : Nat} (hleft : path.length ≤ left)
    (hbits : s.PayloadBits base t path) : walkBits s base left r t = .ok (x, t + path.length) := by
  induction path generalizing fuel r tr left t with
  | nil =>
    cases eq_leaf_of_nil_mem_leafPaths htr hq
    cases left <;> rfl
  | cons b path ih =>
    obtain ⟨i, k, child, rfl, hchild, hq⟩ := exists_child_of_cons_mem_leafPaths htr hq
    obtain ⟨left, rfl⟩ := Nat.exists_eq_add_one.2 (Nat.zero_lt_of_lt hleft)
    rw [walkBits_int hbits.1, ih hchild hq (Nat.le_of_succ_le_succ hleft) hbits.2, List.length_cons, Nat.add_right_comm,
      Nat.add_assoc]

/-- A walk whose bits run out before the path ends is truncated (R287). -/
theorem walkBits_of_cut {s : State} {base fuel : Nat} {r : Ref} {tr : SlotTree} (htr : readTree s.nodes fuel r = some tr)
    {x : Byte} {cut rest : BitStr} (hq : (x, cut ++ rest) ∈ tr.leafPaths []) (hrest : rest ≠ []) {t : Nat}
    (hbits : s.PayloadBits base t cut) : walkBits s base cut.length r t = .error (.raise .truncated) := by
  induction cut generalizing fuel r tr t with
  | nil =>
    obtain ⟨b, rest, rfl⟩ := List.exists_cons_of_ne_nil hrest
    obtain ⟨i, -, -, rfl, -, -⟩ := exists_child_of_cons_mem_leafPaths htr hq
    rfl
  | cons b cut ih =>
    obtain ⟨i, k, child, rfl, hchild, hq⟩ := exists_child_of_cons_mem_leafPaths htr hq
    rw [List.length_cons, walkBits_int hbits.1, ih hchild hq hbits.2]

/-! ### One symbol -/

/-- At an internal root the code paths are the leaf paths (42_code_table.md R192). -/
theorem codePaths_eq_leafPaths {s : State} {tr : SlotTree} {i : Fin 255} (htr : s.tree = some tr) (hroot : s.root = .int i) :
    tr.codePaths = tr.leafPaths [] := by
  rw [State.tree, hroot] at htr
  obtain ⟨_, _, _, -, rfl, -, -⟩ := readTree_int htr
  rfl

theorem decodeOne_of_int {s : State} {i : Fin 255} (h : s.root = .int i) (base avail t : Nat) :
    decodeOne s base avail t = walkBits s base (avail - t) s.root t := by
  rw [decodeOne, h]

/-- A leaf root takes one bit, whatever it is (R286). -/
theorem decodeOne_of_leaf {s : State} {x : Byte} (h : s.root = .leaf x) (base avail t : Nat) :
    decodeOne s base avail t = if avail ≤ t then .error (.raise .truncated) else .ok (x, t + 1) := by
  rw [decodeOne, h]
  rfl

/-- The path that gives a symbol its code decodes to the symbol, at a leaf root too (R194, R280). -/
theorem decodeOne_of_codePath {s : State} {tr : SlotTree} (htr : s.tree = some tr) {q : Byte × BitStr}
    (hq : q ∈ tr.codePaths) {base avail t : Nat} (hfit : t + q.2.length ≤ avail) (hbits : s.PayloadBits base t q.2) :
    decodeOne s base avail t = .ok (q.1, t + q.2.length) := by
  cases hroot : s.root with
  | leaf x =>
    rw [State.tree, hroot, readTree_leaf] at htr
    cases htr
    cases List.mem_singleton.1 hq
    rw [decodeOne_of_leaf hroot, if_neg (Nat.not_le.2 hfit)]
    rfl
  | int i =>
    rw [codePaths_eq_leafPaths htr hroot] at hq
    rw [decodeOne_of_int hroot]
    exact walkBits_of_path htr hq (Nat.le_sub_of_add_le' hfit) hbits

/-! ### A list of symbols -/

theorem decodeSymbols_succ {s : State} {base avail t u : Nat} {x : Byte} (h : decodeOne s base avail t = .ok (x, u)) (n : Nat) :
    decodeSymbols s base avail (n + 1) t = decodeSymbols s base avail n u >>= fun p => .ok (x :: p.1, p.2) := by
  rw [decodeSymbols, h]
  rfl

/-- The code paths of symbols, one after the other, decode to the symbols (R285). -/
theorem decodeSymbols_of_codePaths {s : State} {tr : SlotTree} (htr : s.tree = some tr) {l : List (Byte × BitStr)}
    (hl : ∀ q ∈ l, q ∈ tr.codePaths) {base avail t : Nat} (hfit : t + (l.flatMap Prod.snd).length ≤ avail)
    (hbits : s.PayloadBits base t (l.flatMap Prod.snd)) :
    decodeSymbols s base avail l.length t = .ok (l.map Prod.fst, t + (l.flatMap Prod.snd).length) := by
  induction l generalizing t with
  | nil => rfl
  | cons q l ih =>
    obtain ⟨hq, hl⟩ := List.forall_mem_cons.1 hl
    obtain ⟨hbits, hrest⟩ := payloadBits_append.1 (List.flatMap_cons ▸ hbits)
    rw [List.flatMap_cons, List.length_append, ← Nat.add_assoc] at hfit ⊢
    rw [List.length_cons, decodeSymbols_succ (decodeOne_of_codePath htr hq (Nat.le_of_add_right_le hfit) hbits),
      ih hl hfit hrest]
    rfl

theorem decodeSymbols_of_leaf {s : State} {x : Byte} (hroot : s.root = .leaf x) {base avail n t : Nat}
    (hfit : t + n ≤ avail) : decodeSymbols s base avail n t = .ok (List.replicate n x, t + n) := by
  induction n generalizing t with
  | zero => rfl
  | succ n ih =>
    have hone : decodeOne s base avail t = .ok (x, t + 1) := (decodeOne_of_leaf hroot _ _ _).trans (if_neg (by omega))
    rw [decodeSymbols_succ hone, ih (by omega), Nat.add_assoc, Nat.add_comm 1 n]
    rfl

/-- Where the symbols that can be decoded are fewer than those asked for, the first that cannot ends the decoding. -/
theorem decodeSymbols_error_of_lt {s : State} {base avail n m t t' : Nat} {out : List Byte} {e : Abort} (hn : n < m)
    (h : decodeSymbols s base avail n t = .ok (out, t')) (he : decodeOne s base avail t' = .error e) :
    decodeSymbols s base avail m t = .error e := by
  obtain ⟨m, rfl⟩ := Nat.exists_eq_add_one.2 (Nat.zero_lt_of_lt hn)
  induction n generalizing t out m with
  | zero =>
    cases h
    rw [decodeSymbols, he]
    rfl
  | succ n ih =>
    simp only [decodeSymbols, engine_bind_ok] at h
    obtain ⟨⟨x, u⟩, hx, ⟨xs, u'⟩, hxs, h⟩ := h
    cases h
    obtain ⟨m, rfl⟩ := Nat.exists_eq_add_one.2 (Nat.zero_lt_of_lt (Nat.lt_of_succ_lt_succ hn))
    rw [decodeSymbols_succ hx, ih hxs m (Nat.lt_of_succ_lt_succ hn), engine_error_bind]

end Sys2Proof.Machine

/-! SUPPORT. UNPACK's checks, in order (45_stream_packer.md R285, R289). -/

namespace Sys2Proof.Machine

section
variable {s : State}

theorem execUnpack_of_inOutOfRange (h : s.params.inBytes < s.opArg0 + s.opArg1) :
    execUnpack s = .next (s.completeErr .range) := by
  rcases execUnpack_cases s with ⟨-, e⟩ | ⟨hr, -⟩
  · exact e
  · exact absurd h (Nat.not_lt.2 hr)

variable (hr : s.opArg0 + s.opArg1 ≤ s.params.inBytes)
include hr

theorem execUnpack_of_noSizeField (h : s.opArg1 < 4) : execUnpack s = .next (s.completeErr .malformed) := by
  rcases execUnpack_cases s with ⟨hr', -⟩ | ⟨-, ⟨-, e⟩ | ⟨h4, -⟩⟩
  · exact absurd hr (Nat.not_le.2 hr')
  · exact e
  · exact absurd h (Nat.not_lt.2 h4)

variable (h4 : 4 ≤ s.opArg1) {size : Word} (hsize : s.inBuf.Holds s.opArg0 (wordBytes size))
include h4 hsize

/-- The checks that follow once the size field is read. -/
theorem execUnpack_of_size : execUnpack s =
    if size = 0 then .next (s.completeOk 0 0)
    else if s.status.treeValid = false then .next (s.completeErr .noTree)
    else if s.params.outBytes < s.opArg2 + size.toNat then .next (s.completeErr .range)
    else finish s <| decodeSymbols s (s.opArg0 + 4) (8 * (s.opArg1 - 4)) size.toNat 0 >>= fun p =>
      .ok (s.outWrite s.opArg2 p.1, size, toWord p.2) := by
  have hfield := (inRead_ok (a := s.streamArgs.src)).2 ⟨wordBytes_length size, hsize⟩
  have hrange : inRange s.streamArgs.src s.streamArgs.len s.params.inBytes = true := inRange_of_le hr
  have hshort : decide (s.streamArgs.len < 4) = false := decide_eq_false (Nat.not_lt.2 h4)
  have hzero : size.toNat = 0 ↔ size = 0 := BitVec.toNat_inj (y := 0)
  simp only [execUnpack, hrange, hshort, hfield, bytesToNat_wordBytes, Bool.not_true, raiseIf_false,
    engine_ok_bind, toWord_self, hzero]
  by_cases h0 : size = 0
  · rw [if_pos h0, if_pos h0]
    rfl
  rw [if_neg h0, if_neg h0]
  cases s.status.treeValid
  · rfl
  by_cases hb : s.opArg2 + size.toNat ≤ s.params.outBytes
  · have hdst : inRange s.streamArgs.dst size.toNat s.params.outBytes = true := inRange_of_le hb
    rw [hdst, if_neg (by decide), if_neg (Nat.not_lt.2 hb)]
    rfl
  · have hdst : inRange s.streamArgs.dst size.toNat s.params.outBytes = false := decide_eq_false hb
    rw [hdst, if_neg (by decide), if_pos (Nat.not_le.1 hb)]
    rfl

variable (hv : s.status.treeValid = true) (hout : s.opArg2 + size.toNat ≤ s.params.outBytes)
include hv hout

/-- Decoded symbols are written to OUT; a size of 0 is no exception, there is nothing to write (R289). -/
theorem execUnpack_of_decoded {out : List Byte} {t : Nat}
    (h : decodeSymbols s (s.opArg0 + 4) (8 * (s.opArg1 - 4)) size.toNat 0 = .ok (out, t)) :
    execUnpack s = .next ((s.outWrite s.opArg2 out).completeOk size (toWord t)) := by
  rw [execUnpack_of_size hr h4 hsize]
  split
  next h0 =>
    subst h0
    cases h
    rfl
  next => rw [hv, if_neg (by decide), if_neg (Nat.not_lt.2 hout), h, engine_ok_bind, finish_ok]

theorem execUnpack_of_truncated (h0 : size ≠ 0)
    (h : decodeSymbols s (s.opArg0 + 4) (8 * (s.opArg1 - 4)) size.toNat 0 = .error (.raise .truncated)) :
    execUnpack s = .next (s.completeErr .truncated) := by
  rw [execUnpack_of_size hr h4 hsize, if_neg h0, hv, if_neg (by decide), if_neg (Nat.not_lt.2 hout), h, engine_error_bind,
    finish_raise]

end

end Sys2Proof.Machine

/-! Settled obligations: PACK and UNPACK (45_stream_packer.md R275, R276, R285 to R290). -/

namespace Sys2Proof.Machine

/-- Settles O47: the size field and the payload are the bytes stored, and payload bit t is bit t of the code stream. -/
theorem packWritesSizedPayload : Obligations.PackWritesSizedPayload := by
  intro s codes hr hlen hcodes bits nb
  have hexec := execPack_of_codeStream hr (codeStream_ok.2 ⟨codes, hlen, rfl, hcodes⟩)
  refine ⟨fun ho => ?_, fun ho => ?_⟩ <;> rw [Nat.add_assoc] at ho
  · exact hexec.trans (if_pos ho)
  · refine ⟨_, payloadBytes bits, hexec.trans (if_neg (Nat.not_lt.2 ho)), payloadBytes_length bits, ?_, fun t ht => ?_⟩
    · rw [← wordBytes_toWord (show s.opArg1 < 2 ^ 32 from s.latch.arg1.isLt)]
      exact s.outBuf.storedAt_writeBytes s.opArg2 (sizedPayload s.opArg1 bits)
    · exact ⟨_, payloadBytes_getElem? (Nat.div_lt_of_lt_mul ht), payloadByte_getLsbD bits t⟩

/-- Settles O48: the input range is the first check, and the code stream ends at the first symbol without a code. -/
theorem packRejectsRangeThenMissingCode : Obligations.PackRejectsRangeThenMissingCode := fun _ =>
  ⟨execPack_of_inOutOfRange, fun hr _ _ hj hbefore hx hcode =>
    execPack_of_raise hr (codeStream_of_noCode hj hbefore hx hcode)⟩

/-- Settles O49: each clause is the first check that fails, and a size of 0 passes before the tree is looked at. -/
theorem unpackChecksInOrder : Obligations.UnpackChecksInOrder := by
  refine fun s => ⟨execUnpack_of_inOutOfRange, fun hr => ⟨execUnpack_of_noSizeField hr, fun h4 size hsize => ?_⟩⟩
  have hexec := execUnpack_of_size hr h4 hsize
  refine ⟨fun h0 => ?_, fun h0 hv => ?_, fun h0 hv hout => ?_⟩
  · exact hexec.trans (if_pos h0)
  · exact hexec.trans ((if_neg h0).trans (if_pos hv))
  · exact hexec.trans ((if_neg h0).trans ((if_neg (by simp [hv])).trans (if_pos hout)))

/-- Settles O50: with an internal root the paths of leaves are code paths, and each decodes to its leaf's symbol. -/
theorem unpackDecodesLeafPaths : Obligations.UnpackDecodesLeafPaths := by
  intro s tr i l hv htr hroot _ hlen hl hr h4 hsize bits hfit hbits hout
  rw [← wordBytes_toWord hlen] at hsize
  rw [← toWord_toNat hlen] at hout
  rw [← codePaths_eq_leafPaths htr hroot] at hl
  have hdecode := decodeSymbols_of_codePaths htr hl ((Nat.zero_add _).trans_le hfit) (payloadBits_of_holdsBits hbits)
  rw [Nat.zero_add, ← toWord_toNat hlen] at hdecode
  exact ⟨_, s.outBuf.storedAt_writeBytes _ _, execUnpack_of_decoded hr h4 hsize hv hout hdecode⟩

/-- Settles O51: each symbol takes a bit, so that the bits run out exactly when they are fewer than the symbols. -/
theorem unpackOfLeafRoot : Obligations.UnpackOfLeafRoot := by
  intro s x size hv hroot hr h4 hsize h0 hout
  refine ⟨fun hfit => ⟨_, s.outBuf.storedAt_writeBytes _ _, ?_⟩, fun hshort => ?_⟩
  · have hdecode := decodeSymbols_of_leaf hroot (base := s.opArg0 + 4) ((Nat.zero_add _).trans_le hfit)
    rw [Nat.zero_add] at hdecode
    have hexec := execUnpack_of_decoded hr h4 hsize hv hout hdecode
    rwa [toWord_self] at hexec
  · refine execUnpack_of_truncated hr h4 hsize hv hout h0
      (decodeSymbols_error_of_lt hshort (decodeSymbols_of_leaf hroot ?_) ?_)
    · rw [Nat.zero_add]
    · rw [decodeOne_of_leaf hroot, if_pos (Nat.le_add_left _ _)]

/-- Settles O52: after the whole paths the walk for the next symbol has only the bits of `cut` left. -/
theorem unpackOfShortPayloadIsTruncated : Obligations.UnpackOfShortPayloadIsTruncated := by
  intro s tr i l cut q size hv htr hroot hl hq hcut hlt hn hr h4 hsize hlen hbits hout
  obtain ⟨rest, hpath⟩ := hcut
  have hrest : rest ≠ [] := by
    rintro rfl
    simp [← hpath] at hlt
  obtain ⟨hwhole, hpart⟩ := payloadBits_append.1 (payloadBits_of_holdsBits hbits)
  rw [Nat.zero_add] at hpart
  rw [List.length_append] at hlen
  rw [← codePaths_eq_leafPaths htr hroot] at hl
  have h0 : size ≠ 0 := by
    rintro rfl
    simp at hn
  refine execUnpack_of_truncated hr h4 hsize hv hout h0
    (decodeSymbols_error_of_lt hn (decodeSymbols_of_codePaths htr hl (by omega) hwhole) ?_)
  rw [decodeOne_of_int hroot, ← hlen, Nat.zero_add, Nat.add_sub_cancel_left]
  exact walkBits_of_cut htr (x := q.1) (by rwa [hpath]) hrest hpart

/-- Settles O53: the payload is the code paths of the symbols, and those decode to the symbols in the same tree. -/
theorem packUnpackRoundTrip : Obligations.PackUnpackRoundTrip := by
  intro s t s' hs hwf hcv h hok hnodes hroot hv hr hlen hcopy hout
  obtain ⟨tr, l, htr, hl, hn, hin, hfits, rfl⟩ := execPack_writes_codePaths hs hcv h hok
  obtain ⟨-, -, -, hmax⟩ := (params_wellFormed_iff s.params).1 hwf
  have htr' : s'.tree = some tr := by rw [State.tree, hroot, readTree_congr hnodes, ← State.tree, htr]
  have hsize : (toWord s.opArg1).toNat = s.opArg1 := toWord_toNat s.latch.arg1.isLt
  rw [completeOk_result0, toWord_toNat (by omega)] at hlen hcopy
  have hbytes := (s.outBuf.storedAt_writeBytes s.opArg2 (sizedPayload s.opArg1 (l.flatMap Prod.snd))).holds hcopy
  obtain ⟨hfield, hpayload⟩ := Memory.holds_append.1 hbytes
  rw [sizedPayload_length] at hlen
  have hceil : (l.flatMap Prod.snd).length ≤ 8 * ceilDiv (l.flatMap Prod.snd).length 8 := by rw [ceilDiv]; omega
  have hdecode := decodeSymbols_of_codePaths htr' hl (avail := 8 * (s'.opArg1 - 4)) (by omega)
    (payloadBits_of_holdsBits hpayload.bits)
  rw [hn, Nat.zero_add, ← hsize] at hdecode
  refine ⟨_, execUnpack_of_decoded hr (by omega) hfield hv (by rwa [hsize]) hdecode, rfl, hsize, rfl, fun j hj => ?_⟩
  have hj' : j < (l.map Prod.fst).length := by rwa [List.length_map, hn]
  rw [hin j hj', completeOk_outBuf, outWrite_outBuf]
  exact (s'.outBuf.storedAt_writeBytes s'.opArg2 (l.map Prod.fst)).holds (fun _ _ => rfl) j hj'

end Sys2Proof.Machine

/-! SUPPORT. A command on the state that a failure left: what the engine reads there is as before the failure, and a computation
that raised a code raises it again (60_exceptions.md R303, R304). -/

namespace Sys2Proof.Machine

/-! ### Completion with an error -/

/-- A completion with ERR = 1 is one with an error code. -/
theorem Completion.of_err {s t : State} (h : Completion s t) (herr : t.status.err = true) :
    ∃ c, c ≠ .none ∧ t = s.completeErr c := by
  cases h with
  | error hc => exact ⟨_, hc, rfl⟩
  | success _ r0 r1 => simp at herr

/-- A completion with ERR = 0 reports no code. -/
theorem Completion.errCode_of_not_err {s t : State} (h : Completion s t) (herr : t.status.err = false) :
    t.status.errCode = .none := by
  cases h with
  | error => simp at herr
  | success => rfl

/-! ### What the engine reads after a failure -/

section
variable (s : State) (c : ErrCode)

@[simp] theorem completeErr_inByte (a : Nat) : (s.completeErr c).inByte a = s.inByte a := rfl

@[simp] theorem completeErr_inRead (a n : Nat) : (s.completeErr c).inRead a n = s.inRead a n := by
  induction n generalizing a with
  | zero => rfl
  | succ n ih => simp [State.inRead, ih]

@[simp] theorem readRecords_completeErr (index : Bool) (n a : Nat) :
    readRecords (s.completeErr c) index n a = readRecords s index n a := by
  induction n generalizing a with
  | zero => rfl
  | succ n ih => simp [readRecords, readField, ih]

@[simp] theorem parseHeader_completeErr (index : Bool) (a : HeaderArgs) :
    parseHeader (s.completeErr c) index a = parseHeader s index a := by
  simp [parseHeader]

@[simp] theorem codeStream_completeErr (n a : Nat) : codeStream (s.completeErr c) n a = codeStream s n a := by
  induction n generalizing a with
  | zero => rfl
  | succ n ih => simp [codeStream, ih]

@[simp] theorem walkBits_completeErr (base left : Nat) (r : Ref) (t : Nat) :
    walkBits (s.completeErr c) base left r t = walkBits s base left r t := by
  induction left generalizing r t with
  | zero => cases r <;> rfl
  | succ left ih =>
    cases r with
    | leaf x => rfl
    | int i => simp [walkBits, payloadBit, ih]

@[simp] theorem decodeOne_completeErr (base avail t : Nat) :
    decodeOne (s.completeErr c) base avail t = decodeOne s base avail t := by
  simp [decodeOne]

@[simp] theorem decodeSymbols_completeErr (base avail n t : Nat) :
    decodeSymbols (s.completeErr c) base avail n t = decodeSymbols s base avail n t := by
  induction n generalizing t with
  | zero => rfl
  | succ n ih => simp [decodeSymbols, ih]

end

/-! ### Computations that raise the same code -/

/-- Every code that the first computation raises, the second raises too. -/
def RaisesAs {α : Type} (m m' : Engine α) : Prop := ∀ c, m = .error (.raise c) → m' = .error (.raise c)

/-- A computation that has come to its result raises nothing. -/
theorem RaisesAs.ok {α : Type} {a : α} {m' : Engine α} : RaisesAs (.ok a) m' := nofun

theorem RaisesAs.bind {α β : Type} {x : Engine α} {f g : α → Engine β} (h : ∀ a, RaisesAs (f a) (g a)) :
    RaisesAs (x >>= f) (x >>= g) := by
  intro c hc
  rw [engine_bind_error] at hc ⊢
  obtain hx | ⟨a, hx, hf⟩ := hc
  · exact .inl hx
  · exact .inr ⟨a, hx, h a c hf⟩

/-- A command that failed fails alike on the state it left, if what it computes there raises the same code. -/
theorem finish_retry {s : State} {c : ErrCode} {m m' : Engine (State × Word × Word)} (hm : RaisesAs m m')
    (h : finish s m = .next (s.completeErr c)) : finish (s.completeErr c) m' = .next (s.completeErr c) := by
  obtain ⟨t, r0, r1, -, e⟩ | ⟨d, hd, e⟩ := finish_next.1 h
  · have herr : (s.completeErr c).status.err = false := e ▸ rfl
    simp at herr
  · obtain rfl : c = d := congrArg (fun u : State => u.status.errCode) e
    rw [hm c hd]
    rfl

/-! ### Each command, on the state that its failure left -/

section
variable {s : State} {c : ErrCode}

theorem execNop_retry (h : execNop s = .next (s.completeErr c)) :
    execNop (s.completeErr c) = .next (s.completeErr c) :=
  finish_retry .ok h

theorem execBuild_retry (h : execBuild s = .next (s.completeErr c)) :
    execBuild (s.completeErr c) = .next (s.completeErr c) :=
  finish_retry (.bind fun _ => .ok) h

theorem execNumber_retry (h : execNumber s = .next (s.completeErr c)) :
    execNumber (s.completeErr c) = .next (s.completeErr c) :=
  finish_retry (.bind fun _ => .bind fun _ => .ok) h

theorem execGenCodes_retry (h : execGenCodes s = .next (s.completeErr c)) :
    execGenCodes (s.completeErr c) = .next (s.completeErr c) :=
  finish_retry (.bind fun _ => .bind fun _ => .ok) h

theorem execSerialize_retry (h : execSerialize s = .next (s.completeErr c)) :
    execSerialize (s.completeErr c) = .next (s.completeErr c) :=
  finish_retry (.bind fun _ => .bind fun _ => .bind fun _ => .bind fun _ => .bind fun _ => .ok) h

theorem execDeserGeneral_retry (h : execDeserGeneral s = .next (s.completeErr c)) :
    execDeserGeneral (s.completeErr c) = .next (s.completeErr c) := by
  refine finish_retry ?_ h
  simp only [parseHeader_completeErr]
  exact .bind fun _ => .bind fun _ => .bind fun _ => .ok

theorem execDeserPostorder_retry (h : execDeserPostorder s = .next (s.completeErr c)) :
    execDeserPostorder (s.completeErr c) = .next (s.completeErr c) := by
  refine finish_retry ?_ h
  simp only [parseHeader_completeErr]
  exact .bind fun _ => .bind fun _ => .ok

theorem execPack_retry (h : execPack s = .next (s.completeErr c)) :
    execPack (s.completeErr c) = .next (s.completeErr c) := by
  refine finish_retry ?_ h
  simp only [codeStream_completeErr]
  exact .bind fun _ => .bind fun _ => .bind fun _ => .ok

theorem execUnpack_retry (h : execUnpack s = .next (s.completeErr c)) :
    execUnpack (s.completeErr c) = .next (s.completeErr c) := by
  refine finish_retry ?_ h
  simp only [completeErr_inRead, decodeSymbols_completeErr]
  refine .bind fun _ => .bind fun _ => .bind fun field => ?_
  by_cases hsize : bytesToNat field = 0
  · rw [if_pos hsize]
    exact .ok
  · rw [if_neg hsize, if_neg hsize]
    exact .bind fun _ => .bind fun _ => .bind fun _ => .ok

/-- A command reads nothing that a failure changes, so that it fails again as it failed. -/
theorem exec_retry {i : Instr} (h : exec i s = .next (s.completeErr c)) :
    exec i (s.completeErr c) = .next (s.completeErr c) := by
  cases i with
  | nop => exact execNop_retry h
  | build => exact execBuild_retry h
  | number => exact execNumber_retry h
  | genCodes => exact execGenCodes_retry h
  | serialize => exact execSerialize_retry h
  | deserGeneral => exact execDeserGeneral_retry h
  | deserPostorder => exact execDeserPostorder_retry h
  | pack => exact execPack_retry h
  | unpack => exact execUnpack_retry h

end

end Sys2Proof.Machine

/-! Settled obligations: a command that fails (60_exceptions.md R303, R304). -/

namespace Sys2Proof.Machine

/-- Settles O8: a completion with ERR = 1 is one with an error code, and success clears ERRCODE. -/
theorem failingCommandChangesNothingElse : Obligations.FailingCommandChangesNothingElse := fun _ _ _ h =>
  ⟨(exec_completion h).of_err, (exec_completion h).errCode_of_not_err⟩

/-- Settles O9: the failure changed nothing that the command reads. -/
theorem retryRaisesSameCode : Obligations.RetryRaisesSameCode := by
  intro i s t h herr
  obtain ⟨c, -, rfl⟩ := (exec_completion h).of_err herr
  exact exec_retry h

end Sys2Proof.Machine

/-! SUPPORT. The steps of a busy engine from one state to another, the host operations that land meanwhile, and when INIT ends
(70_reset_and_hazards.md R340, R341). -/

namespace Sys2Proof.Machine

/-! ### Host operations that land while the engine is busy -/

/-- A write of either form: the operations that are ignored, and set WR_IGNORED, while BUSY = 1 (20_memory.md R85). -/
def HostOp.isWrite : HostOp → Bool
  | .wr _ _ => true
  | .wrOr _ _ => true
  | _ => false

theorem any_isWrite_iff (l : List HostOp) :
    l.any HostOp.isWrite = true ↔ ∃ off v, .wr off v ∈ l ∨ .wrOr off v ∈ l := by
  rw [List.any_eq_true]
  constructor
  · rintro ⟨op, hmem, hop⟩
    cases op with
    | wr off v => exact ⟨off, v, .inl hmem⟩
    | wrOr off v => exact ⟨off, v, .inr hmem⟩
    | _ => cases hop
  · rintro ⟨off, v, hmem | hmem⟩ <;> exact ⟨_, hmem, rfl⟩

/-- No reset and no loss of power is among the operations. -/
def NoReset (ops : List HostOp) : Prop := .assertReset ∉ ops ∧ .powerCycle ∉ ops

theorem NoReset.of_append {ops landed rest : List HostOp} (h : NoReset ops) (e : ops = landed ++ rest) : NoReset rest := by
  subst e
  obtain ⟨hreset, hpower⟩ := h
  exact ⟨fun hm => hreset (List.mem_append_right _ hm), fun hm => hpower (List.mem_append_right _ hm)⟩

/-- At a busy engine not held in reset an operation is a read of the host's, a write that only sets WR_IGNORED, or nothing. -/
theorem doHostOp_of_busy {s : State} (hb : s.phase ≠ .idle) (hheld : s.phase ≠ .init .held) {op : HostOp}
    (hreset : op ≠ .assertReset) (hpower : op ≠ .powerCycle) : ∃ reads,
      s.doHostOp op = { s with
        reads := reads, status := { s.status with wrIgnored := s.status.wrIgnored || op.isWrite } } := by
  have read (reads : List HostRead) : { s with reads := reads } = { s with
      reads := reads, status := { s.status with wrIgnored := s.status.wrIgnored || false } } := by rw [Bool.or_false]
  have write (off : Offset) (v : Word) : s.hostWrite off v = { s with
      status := { s.status with wrIgnored := s.status.wrIgnored || true } } := by
    rw [hostWrite_of_busy (busy_of_ne_idle hb), Bool.or_true, State.ignoreWrite]
  cases op with
  | wr off v => exact ⟨s.reads, write off v⟩
  | wrOr off m => exact ⟨s.reads, write off _⟩
  | rd off => exact ⟨_, read _⟩
  | wait => exact ⟨_, read _⟩
  | assertReset => exact absurd rfl hreset
  | releaseReset => exact ⟨s.reads, (if_neg hheld).trans (read s.reads)⟩
  | powerCycle => exact absurd rfl hpower

/-- The host's step at a busy engine not held in reset: the operations that leave the host's list (one, or none if it is empty or
a WAIT polls) set WR_IGNORED if a write is among them. -/
theorem hostStep_of_busy {s : State} (hb : s.phase ≠ .idle) (hheld : s.phase ≠ .init .held) (hno : NoReset s.host) :
    ∃ landed rest reads, s.host = landed ++ rest ∧
      s.hostStep = { s with
        host := rest, reads := reads
        status := { s.status with wrIgnored := s.status.wrIgnored || landed.any HostOp.isWrite } } := by
  rcases hostStep_cases s with ⟨-, e⟩ | ⟨_, -, -, e⟩ | ⟨op, rest, hs, -, e⟩
  · exact ⟨[], s.host, s.reads, rfl, by simp [e]⟩
  · exact ⟨[], s.host, _, rfl, by rw [e, State.recordRead, List.any_nil, Bool.or_false]⟩
  · obtain ⟨hreset, hpower⟩ := hno
    rw [hs, List.mem_cons, not_or] at hreset hpower
    obtain ⟨reads, e'⟩ := doHostOp_of_busy (s := { s with host := rest }) hb hheld (Ne.symm hreset.1) (Ne.symm hpower.1)
    exact ⟨[op], rest, reads, hs, by simp [e, e']⟩

/-- A step of the host's at a busy engine not held in reset: one unit of the free time is gone (log 3), and of STATUS only
WR_IGNORED changes, by the operations that landed. -/
theorem busyTick_of_busy {s : State} (hb : s.phase ≠ .idle) (hheld : s.phase ≠ .init .held) (hno : NoReset s.host) :
    ∃ landed, s.host = landed ++ s.busyTick.host ∧ s.busyTick.phase = s.phase ∧ s.busyTick.busyLeft = s.busyLeft - 1 ∧
      s.busyTick.status = { s.status with wrIgnored := s.status.wrIgnored || landed.any HostOp.isWrite } := by
  obtain ⟨landed, rest, reads, hhost, e⟩ := hostStep_of_busy (s := { s with busyLeft := s.busyLeft - 1 }) hb hheld hno
  rw [State.busyTick, e]
  exact ⟨landed, hhost, rfl, rfl, rfl⟩

/-! ### Steps of a busy engine -/

/-- Steps from one state to another, none of them taken while IDLE, with the host operations that landed and what they made of
WR_IGNORED. -/
inductive BusyRun : State → State → List HostOp → Prop where
  | refl (s : State) : BusyRun s s []
  | head {s s' t : State} {landed landed' : List HostOp} (busy : s.phase ≠ .idle) (step : step s = .next s')
      (host : s.host = landed ++ s'.host) (wrIgnored : s'.status.wrIgnored = (s.status.wrIgnored || landed.any HostOp.isWrite))
      (tail : BusyRun s' t landed') : BusyRun s t (landed ++ landed')

theorem BusyRun.trans {s t u : State} {l l' : List HostOp} (h : BusyRun s t l) (h' : BusyRun t u l') :
    BusyRun s u (l ++ l') := by
  induction h with
  | refl => exact h'
  | head busy step host wrIgnored _ ih =>
    rw [List.append_assoc]
    exact .head busy step host wrIgnored (ih h')

/-- An event of the engine, at which no operation lands. -/
theorem BusyRun.event {s t : State} (hb : s.phase ≠ .idle) (h : step s = .next t) (hhost : t.host = s.host)
    (hign : t.status.wrIgnored = s.status.wrIgnored) : BusyRun s t [] :=
  .head (landed := []) hb h hhost.symm (by simp [hign]) (.refl t)

theorem BusyRun.host_eq {s t : State} {landed : List HostOp} (h : BusyRun s t landed) : s.host = landed ++ t.host := by
  induction h with
  | refl => rfl
  | head _ _ host _ _ ih => rw [host, ih, List.append_assoc]

theorem BusyRun.wrIgnored_eq {s t : State} {landed : List HostOp} (h : BusyRun s t landed) :
    t.status.wrIgnored = (s.status.wrIgnored || landed.any HostOp.isWrite) := by
  induction h with
  | refl => simp
  | head _ _ _ wrIgnored _ ih => rw [ih, wrIgnored, List.any_append, Bool.or_assoc]

/-- The run of the machine that the steps make up, and that it passes no IDLE state before its last. -/
theorem BusyRun.run {s t : State} {landed : List HostOp} (h : BusyRun s t landed) :
    ∃ n, Host.Core.run core n s = .next t ∧
      ∀ k u, k < n → Host.Core.run core k s = .next u → u.phase ≠ .idle := by
  induction h with
  | refl s => exact ⟨0, rfl, fun k _ hk => absurd hk k.not_lt_zero⟩
  | head busy step _ _ _ ih =>
    obtain ⟨n, hrun, hbusy⟩ := ih
    refine ⟨n + 1, (run_succ_of_next n step).trans hrun, fun k u hk hu => ?_⟩
    cases k with
    | zero =>
      cases hu
      exact busy
    | succ k => exact hbusy k u (by omega) ((run_succ_of_next k step).symm.trans hu)

/-! ### The events of INIT -/

theorem step_of_pending {s : State} (hp : s.phase = .init .pending) (hb : s.busyLeft = 0) :
    step s = .next s.initSequence.drawBusy := by simp [step, hp, hb]

theorem step_of_set {s : State} (hp : s.phase = .init .set) (hb : s.busyLeft = 0) : step s = .next s.endInit := by
  simp [step, hp, hb]

/-- With time left, a step in INIT is the host's. -/
theorem step_of_init_busyLeft {s : State} {stage : InitStage} (hp : s.phase = .init stage) (hstage : stage ≠ .held)
    (hb : s.busyLeft ≠ 0) : step s = .next s.busyTick := by
  cases stage with
  | held => exact absurd rfl hstage
  | pending => simp [step, hp, hb]
  | set => simp [step, hp, hb]

/-- Once reset is released, host operations land in INIT until the engine's next event is due; of STATUS they change WR_IGNORED
alone. -/
theorem busyRun_to_initEvent {s : State} {stage : InitStage} (hp : s.phase = .init stage) (hstage : stage ≠ .held)
    (hno : NoReset s.host) : ∃ t landed, BusyRun s t landed ∧ t.phase = .init stage ∧ t.busyLeft = 0 ∧
      t.status = { s.status with wrIgnored := t.status.wrIgnored } := by
  induction hn : s.busyLeft generalizing s with
  | zero => exact ⟨s, [], .refl s, hp, hn, rfl⟩
  | succ n ih =>
    have hb : s.phase ≠ .idle := by simp [hp]
    have hheld : s.phase ≠ .init .held := by simpa [hp] using hstage
    obtain ⟨landed, hhost, hphase, hleft, hstatus⟩ := busyTick_of_busy hb hheld hno
    obtain ⟨t, landed', hrun, hpt, hbt, hst⟩ := ih (hphase.trans hp) (hno.of_append hhost) (by omega)
    exact ⟨t, _, .head hb (step_of_init_busyLeft hp hstage (by omega)) hhost
      (congrArg Status.wrIgnored hstatus) hrun, hpt, hbt, by rw [hst, hstatus]⟩

/-- INIT ends: from its last stage the engine comes to IDLE, with STATUS as it was but for WR_IGNORED. -/
theorem busyRun_set_to_idle {s : State} (hp : s.phase = .init .set) (hno : NoReset s.host) :
    ∃ t landed, BusyRun s t landed ∧ t.phase = .idle ∧ t.status = { s.status with wrIgnored := t.status.wrIgnored } := by
  obtain ⟨t, landed, hrun, hpt, hbt, hst⟩ := busyRun_to_initEvent hp nofun hno
  exact ⟨t.endInit, landed ++ [], hrun.trans (.event (by simp [hpt]) (step_of_set hpt hbt) rfl rfl), rfl, hst⟩

/-- From the release of reset the engine comes to IDLE by way of the INIT sequence, which clears STATUS but for WR_IGNORED. -/
theorem busyRun_pending_to_idle {s : State} (hp : s.phase = .init .pending) (hno : NoReset s.host) :
    ∃ t landed, BusyRun s t landed ∧ t.phase = .idle ∧
      t.status = { Status.reset with wrIgnored := t.status.wrIgnored } := by
  obtain ⟨t, landed, hrun, hpt, hbt, -⟩ := busyRun_to_initEvent hp nofun hno
  have hinit : BusyRun t t.initSequence.drawBusy [] :=
    .event (by simp [hpt]) (step_of_pending hpt hbt) (by simp) (by simp)
  have hno' : NoReset t.initSequence.drawBusy.host := (hno.of_append hrun.host_eq).of_append hinit.host_eq
  obtain ⟨u, landed', hrun', hpu, hsu⟩ := busyRun_set_to_idle (by simp) hno'
  exact ⟨u, _, (hrun.trans hinit).trans hrun', hpu, by simpa using hsu⟩

/-- What STATUS reads in IDLE with every stored field but WR_IGNORED at its reset value (10_state.md R36). -/
theorem statusWord_of_idle_reset {s : State} (hp : s.phase = .idle)
    (hs : s.status = { Status.reset with wrIgnored := s.status.wrIgnored }) :
    s.statusWord = flagAt s.status.wrIgnored 3 := by
  rw [State.statusWord, busy_of_idle hp, hs]
  simp [Status.reset, flagAt, byteAt, ErrCode.toByte]

/-! ### Reset asserted -/

/-- While reset is asserted only its release leads on. -/
theorem hostStep_phase_of_held {s : State} (hp : s.phase = .init .held) (hrel : s.host.head? ≠ some .releaseReset) :
    s.hostStep.phase = .init .held := by
  rcases hostStep_cases s with ⟨-, e⟩ | ⟨_, -, -, e⟩ | ⟨op, rest, hs, -, e⟩ <;> rw [e]
  · exact hp
  · exact hp
  · rcases doHostOp_cases { s with host := rest } op with ⟨off, v, e⟩ | ⟨off, e⟩ | ⟨-, e⟩ | ⟨h, -⟩ | ⟨-, e⟩
    · rw [e, hostWrite_of_busy (busy_of_ne_idle (by simp [hp]))]
      exact hp
    · rw [e]
      exact hp
    · rw [e]
      rfl
    · exact absurd (by rw [hs, h, List.head?_cons]) hrel
    · rw [e]
      rfl

/-- A release of reset leads to the INIT sequence, and changes nothing else but the free time. -/
theorem leaveReset_of_held {s : State} (hp : s.phase = .init .held) :
    ∃ b sch d, s.leaveReset = { s with phase := .init .pending, busyLeft := b, schedule := sch, draws := d } := by
  obtain ⟨b, sch, d, e⟩ := drawBusy_eq { s with phase := .init .pending }
  exact ⟨b, sch, d, (if_pos hp).trans e⟩

end Sys2Proof.Machine

/-! Settled obligations: reset, loss of power and INIT (70_reset_and_hazards.md R340 to R343, 60_exceptions.md R318). -/

namespace Sys2Proof.Machine

/-- Settles O24: at the host's turn the step is the operation itself, and the bytes kept are those written since reset over those
kept before. -/
theorem resetAbandonsAndKeepsBuffers : Obligations.ResetAbandonsAndKeepsBuffers := by
  intro s rest hturn hin hout
  refine ⟨fun hhost => ?_, fun hhost => ?_⟩
  · obtain ⟨b, e⟩ := step_of_ne_wait hturn hhost nofun
    exact ⟨b, _, s.inBuf.over s.inAtReset, s.outBuf.over s.outAtReset, e,
      fun a => ⟨Memory.read_over _ hin a, Memory.read_over _ hout a⟩⟩
  · obtain ⟨b, e⟩ := step_of_ne_wait hturn hhost nofun
    exact ⟨b, _, e⟩

/-- Settles O25: the step is the INIT sequence, with a drawn time until INIT ends. -/
theorem initSequenceSetsResetValues : Obligations.InitSequenceSetsResetValues := by
  intro s hp hb
  obtain ⟨b, sch, d, e⟩ := drawBusy_eq s.initSequence
  exact ⟨b, sch, d, (step_of_pending hp hb).trans (congrArg _ e)⟩

/-- Settles O26: the free times before the INIT sequence and before the end of INIT run out, and only WR_IGNORED outlives the
sequence. -/
theorem initEndsWithStatusZeroOrEight : Obligations.InitEndsWithStatusZeroOrEight := by
  refine ⟨fun s rest hp => ⟨fun hhost => ?_, fun hrel => ?_⟩, fun s hp hreset hpower => ?_⟩
  · obtain ⟨b, e⟩ := step_of_ne_wait (.inr (.inl hp)) hhost nofun
    obtain ⟨b', sch, d, e'⟩ := leaveReset_of_held (s := { s with host := rest, busyLeft := b }) hp
    exact ⟨b', sch, d, e.trans (congrArg _ e')⟩
  · obtain ⟨b, e⟩ := step_of_hostTurn (.inr (.inl hp))
    exact ⟨_, e, hostStep_phase_of_held hp hrel⟩
  · obtain ⟨t, landed, hrun, hpt, hst⟩ := busyRun_pending_to_idle hp ⟨hreset, hpower⟩
    obtain ⟨n, hn, hbusy⟩ := hrun.run
    refine ⟨n, t, landed, hn, hpt, hrun.host_eq, hbusy, ?_⟩
    simp only [statusWord_of_idle_reset hpt hst, hrun.wrIgnored_eq, ← any_isWrite_iff, ← Bool.or_eq_true]
    exact ⟨fun h => by rw [h]; rfl, fun h => by rw [Bool.eq_false_iff.2 h]; rfl⟩

end Sys2Proof.Machine
